-- ==== Sys2Proof/Word.lean ====
section
/-! DEFINITION. Word types of the block (spec 00_scope.md R9, R10, R11; 30_encoding.md R62). -/

namespace Sys2Proof

/-- A `u16`: bit 0 is the least significant bit (R10, R11). -/
abbrev U16 := BitVec 16

/-- The 32-bit operation word, the only word format (R62). -/
abbrev OpWord := BitVec 32

/-- A valid port index, 0 to 7 (R9: NPORTS = 8). -/
abbrev Port := Fin 8

/-- Text carried by the control surface (R109, R111, R115, R116). -/
abbrev Text := List Char

end Sys2Proof
end

