-- ==== Sys2Proof/Config.lean ====
section
/-! DEFINITION. What is fixed for one block: the parameters of R9, and the OPEN parameters of 92_eei_decisions.md
as constants without a body, so that no proof can see their value. -/

namespace Sys2Proof

/-- REG_WIDTH (R9). -/
abbrev Config.regWidth : Nat := 16
/-- NPORTS (R9). -/
abbrev Config.nPorts : Nat := 8
/-- BITS_PER_PORT (R9). -/
abbrev Config.bitsPerPort : Nat := 2
/-- NLINES (R9). -/
abbrev Config.nLines : Nat := 4
/-- SETTLE_DELAY_MS (R9, R98). -/
def Config.settleDelayMs : Nat := 300

/-- How many callers there are beyond the first (D26 leaves NCALLERS open, at least 1). -/
opaque Config.extraCallers : Nat

/-- NCALLERS, OPEN and at least 1 (R9, D26). -/
def Config.nCallers : Nat := Config.extraCallers + 1

/-- The identifier of caller c0, which every block has (R132, D26). -/
def Config.firstCaller : Fin Config.nCallers := ⟨0, Nat.succ_pos _⟩

/-- ID_STRING, OPEN (R116, D23). -/
opaque Config.idString : Text

/-- RAW_WIDE_POLICY, OPEN: true is reject, false is truncate (R109, D21). -/
opaque Config.rawWideReject : Bool

/-- A free candidate for RAW_TEXT_FORMAT (R109, D21). -/
opaque Config.rawFormatDraw : U16 → Text

/-- A free candidate for RAW_TEXT_PARSE; `none` is malformed (R109, D21). -/
opaque Config.rawParseDraw : Text → Option Nat

/-- Whether the two free candidates keep the one law R109 asks of them, at the value `n`. -/
def Config.rawLawAt (n : Nat) : Bool :=
  Config.rawParseDraw (Config.rawFormatDraw (BitVec.ofNat 16 n)) == some n

/-- Whether the two free candidates keep the one law R109 asks of them. -/
def Config.rawLaw : Bool := (List.range 65536).all Config.rawLawAt

/-- RAW_TEXT_FORMAT, OPEN (R109). Every lawful pair of candidates is used as it is. Only a pair that breaks the law, which
R109 excludes, is replaced by one that keeps it (DESIGN CHOICE, log entry 14). -/
def Config.rawFormat (v : U16) : Text :=
  if Config.rawLaw then Config.rawFormatDraw v else List.replicate v.toNat 'x'

/-- RAW_TEXT_PARSE, OPEN (R109); `none` is malformed, and a number may exceed 0xFFFF. -/
def Config.rawParse (t : Text) : Option Nat :=
  if Config.rawLaw then Config.rawParseDraw t else some t.length

/-- A free candidate for OE_TEXT_FORMAT (R115, D22). -/
opaque Config.oeFormatDraw : Bool → Text

/-- A free candidate for OE_TEXT_PARSE; `none` is malformed (R115, D22). -/
opaque Config.oeParseDraw : Text → Option Bool

/-- Whether the two free candidates keep the law of R115. -/
def Config.oeLaw : Bool :=
  [false, true].all fun b => Config.oeParseDraw (Config.oeFormatDraw b) == some b

/-- OE_TEXT_FORMAT, OPEN (R115); see `Config.rawFormat` for a pair that breaks the law. -/
def Config.oeFormat (b : Bool) : Text :=
  if Config.oeLaw then Config.oeFormatDraw b else (if b then ['1'] else ['0'])

/-- OE_TEXT_PARSE, OPEN (R115). -/
def Config.oeParse (t : Text) : Option Bool :=
  if Config.oeLaw then Config.oeParseDraw t else some (t == ['1'])

/-- A free candidate for VOLT_TEXT_PARSE; `none` is malformed (R112, D20). -/
opaque Config.voltParseDraw : Text → Option Int

/-- VOLT_TEXT_PARSE, OPEN with the one law of R112: the texts `0`, `24` and `48` parse to 0, 24 and 48. -/
def Config.voltParse (t : Text) : Option Int :=
  if t = ['0'] then some 0
  else if t = ['2', '4'] then some 24
  else if t = ['4', '8'] then some 48
  else Config.voltParseDraw t

end Sys2Proof
end

