-- ==== Sys2Proof/Syntax.lean ====
section
/-! DEFINITION. The operations of the block, one constructor per row of spec/opcode_table.json (30_encoding.md R65), and the
enumerations their operands and results use (10_state.md R16, R17). -/

namespace Sys2Proof

/-- The voltage class of a port (R16). -/
inductive VoltageClass where
  | off
  | v24
  | v48
deriving DecidableEq, Repr

/-- The decoder's result (R17): `undefined` stands for the field value 0b11. -/
inductive PortState where
  | off
  | v24
  | v48
  | undefined
deriving DecidableEq, Repr

/-- The operations (R65). A port index is the field A as it stands in the word, 0 to 15 (R64). -/
inductive Instr where
  /-- `ShiftRegisterDriver.initialize()` (R86). -/
  | init
  /-- `ShiftRegisterDriver.teardown()` (R90). -/
  | teardown
  /-- `ShiftRegisterDriver.write(value)` (R85). -/
  | write (v : U16)
  /-- `PortController.setPort(port, voltage)` with the voltage as its 2-bit code (R100). -/
  | setport (p : BitVec 4) (nb : BitVec 2)
  /-- `setRawRegister(value)` (R106). -/
  | setraw (v : U16)
  /-- `OutputEnableController.setEnabled(on)` (R104). -/
  | setoe (on : Bool)
  /-- Read the register mirror (R108). -/
  | readraw
  /-- Read one port's voltage class (R110). -/
  | readport (p : BitVec 4)
  /-- Read the global output enable (R114). -/
  | readoe
  /-- Read the identification string (R116). -/
  | readid
  /-- Set one port's voltage class from an integer (R113). -/
  | cssetport (p : BitVec 4) (n : U16)
deriving DecidableEq, Repr

end Sys2Proof
end

