-- ==== Sys2Proof/WellFormed.lean ====
section
/-! DEFINITION. Which operations some operation word spells (30_encoding.md R66, R67). -/

namespace Sys2Proof

/-- The one check a term can fail: the voltage code 0b11 spells no SETPORT (R67). Every other operand fills its field. -/
def Instr.wellFormed : Instr → Bool
  | .init => true
  | .teardown => true
  | .write _ => true
  | .setport _ nb => nb != 0b11#2
  | .setraw _ => true
  | .setoe _ => true
  | .readraw => true
  | .readport _ => true
  | .readoe => true
  | .readid => true
  | .cssetport _ _ => true

end Sys2Proof
end

