-- ==== Sys2Proof/Decode.lean ====
section
/-! DEFINITION. The operation word: its fields (30_encoding.md R63), the decoder, total on every word (R66, R67), and the
encoder (R63, R65). -/

namespace Sys2Proof

/-- Bits 31:28 (R63). -/
def OpWord.op (w : OpWord) : BitVec 4 := w.extractLsb' 28 4
/-- Bits 27:24 (R63). -/
def OpWord.a (w : OpWord) : BitVec 4 := w.extractLsb' 24 4
/-- Bits 23:16 (R63). -/
def OpWord.b (w : OpWord) : BitVec 8 := w.extractLsb' 16 8
/-- Bits 15:0 (R63). -/
def OpWord.v (w : OpWord) : U16 := w.extractLsb' 0 16

/-- Why a word spells no operation (R67). -/
inductive Illegal where
  /-- OP = 0x0. -/
  | opZero
  /-- OP = 0xC to 0xF. -/
  | opReserved
  /-- A nonzero bit in a field its row marks zero. -/
  | nonzeroField
  /-- A SETPORT word with voltage code 0b11. -/
  | voltageCode
deriving DecidableEq, Repr

/-- `i` when the fields its row marks zero are zero (R63). -/
def whenZero (zero : Bool) (i : Instr) : Except Illegal Instr :=
  if zero then .ok i else .error .nonzeroField

/-- A SETPORT word's operation: its code must not be 0b11 (R66, R67). -/
def decodeSetport (a : BitVec 4) (b : BitVec 8) (v : U16) : Except Illegal Instr :=
  if b.extractLsb' 2 6 = 0#6 ∧ v = 0#16 then
    if b.extractLsb' 0 2 = 0b11#2 then .error .voltageCode
    else .ok (.setport a (b.extractLsb' 0 2))
  else .error .nonzeroField

/-- The decoder (R66). -/
def decode (w : OpWord) : Except Illegal Instr :=
  let a := w.a
  let b := w.b
  let v := w.v
  match w.op.toNat with
  | 0x0 => .error .opZero
  | 0x1 => whenZero (a == 0#4 && b == 0#8 && v == 0#16) .init
  | 0x2 => whenZero (a == 0#4 && b == 0#8 && v == 0#16) .teardown
  | 0x3 => whenZero (a == 0#4 && b == 0#8) (.write v)
  | 0x4 => decodeSetport a b v
  | 0x5 => whenZero (a == 0#4 && b == 0#8) (.setraw v)
  | 0x6 => whenZero (a == 0#4 && b.extractLsb' 1 7 == 0#7 && v == 0#16) (.setoe (b.getLsbD 0))
  | 0x7 => whenZero (a == 0#4 && b == 0#8 && v == 0#16) .readraw
  | 0x8 => whenZero (b == 0#8 && v == 0#16) (.readport a)
  | 0x9 => whenZero (a == 0#4 && b == 0#8 && v == 0#16) .readoe
  | 0xA => whenZero (a == 0#4 && b == 0#8 && v == 0#16) .readid
  | 0xB => whenZero (b == 0#8) (.cssetport a v)
  | _ => .error .opReserved

/-- The word with the four fields of R63. -/
def OpWord.pack (op : BitVec 4) (a : BitVec 4) (b : BitVec 8) (v : U16) : OpWord :=
  op ++ a ++ b ++ v

/-- The word that spells an operation (R63, R65). -/
def encode : Instr → OpWord
  | .init => OpWord.pack 0x1 0 0 0
  | .teardown => OpWord.pack 0x2 0 0 0
  | .write v => OpWord.pack 0x3 0 0 v
  | .setport p nb => OpWord.pack 0x4 p (0#6 ++ nb) 0
  | .setraw v => OpWord.pack 0x5 0 0 v
  | .setoe on => OpWord.pack 0x6 0 (0#7 ++ BitVec.ofBool on) 0
  | .readraw => OpWord.pack 0x7 0 0 0
  | .readport p => OpWord.pack 0x8 p 0 0
  | .readoe => OpWord.pack 0x9 0 0 0
  | .readid => OpWord.pack 0xA 0 0 0
  | .cssetport p n => OpWord.pack 0xB p 0 n

/-- The operation the decoder reads from a word numbered as spec/opcode_table.json numbers it: one 32-bit word, whose bits
above `nbits` are zero (R62). -/
def decodeTableWord (nbits w : Nat) : Option Instr :=
  match decode (BitVec.ofNat 32 (w % 2 ^ nbits)) with
  | .ok i => some i
  | .error _ => none

end Sys2Proof
end

