-- ==== Sys2Proof/Machine/State.lean ====
section
/-! DEFINITION. Everything the spec gives the machine, as plain data (10_state.md; 60_exceptions.md; 70_reset_and_hazards.md
R137), the inputs the model steps on, and the state at power-up. -/

namespace Sys2Proof.Machine

/-- The four lines (R18). -/
inductive Line where
  | clk
  | data
  | store
  | oe
deriving DecidableEq, Repr

/-- A line's level (R18): `unknown` means the block does not drive the line (R25). -/
inductive LineLevel where
  | unknown
  | driven (b : Bool)
deriving DecidableEq, Repr

/-- One value for each of the four lines. -/
structure PerLine (α : Type) where
  clk : α
  data : α
  store : α
  oe : α
deriving DecidableEq, Repr

/-- One output of the register as an observer sees it (R32). -/
inductive OutLevel where
  | notDriven
  | driving (b : Bool)
deriving DecidableEq, Repr

/-- The lifecycle state (R27). -/
inductive Lifecycle where
  | down
  | initializing
  | ready
  | tearingDown
deriving DecidableEq, Repr

/-- The agents that issue operations (R35, R132). -/
inductive Agent where
  | host
  | caller (n : Fin Config.nCallers)
deriving DecidableEq, Repr

/-- The block's one lock (R28). -/
inductive Lock where
  | free
  | held (a : Agent)
deriving DecidableEq, Repr

/-- The model faults the spec defines (R121); their numbers are in Machine/Flags.lean. -/
inductive FaultCode where
  | illegalOp
  | notReady
  | alreadyReady
  | undefinedPortState
  | hostProtocol
  | role
deriving DecidableEq, Repr

/-- A record of the fault set: `(code, agent, word)` (R121). -/
structure FaultRecord where
  code : FaultCode
  agent : Agent
  word : OpWord
deriving DecidableEq, Repr

/-- The value an operation hands its agent beside OK (R108, R110, R114, R116). -/
inductive Reply where
  | nothing
  | raw (v : U16)
  | port (c : VoltageClass)
  | oe (b : Bool)
  | id (t : Text)
deriving DecidableEq, Repr

/-- What an operation returns (R117). -/
inductive OpResult where
  | ok (r : Reply)
  | invalidArgument
  | resourceUnavailable
deriving DecidableEq, Repr

/-- An operation in flight with its locals (R36). `idx` is the index of its next micro-step in `sequenceOf instr`. -/
structure InFlight where
  instr : Instr
  idx : Nat
  v : U16
  p : Port
  nb : BitVec 2
  t0 : Nat
  wpos : Fin 53
deriving DecidableEq, Repr

/-- The endpoints of the control surface (R39, R40). -/
inductive Endpoint where
  | raw
  | oe
  | port (p : Port)
  | id
deriving DecidableEq, Repr

/-- What an agent asks of the block next: an operation word (R62), the read of an endpoint (R39), or a text write of one
(R109, R112, R115). ID is read only, so it has no write. -/
inductive Request where
  | word (w : OpWord)
  | read (e : Endpoint)
  | writeRaw (t : Text)
  | writeOe (t : Text)
  | writePort (p : Port) (t : Text)
deriving DecidableEq, Repr

/-- An agent's sequencer (R36): the operation in flight or none, and whether a fault stopped the agent for good (R121).
`program` is what it will still ask, in order (R71), and `result` the last outcome handed to it (R117). -/
structure Sequencer where
  op : Option InFlight
  stopped : Bool
  program : List Request
  result : Option OpResult
deriving DecidableEq, Repr

/-- The sequencers of all agents that issue operations (R36, R132). A caller not listed is one that never had anything to do: its
sequencer is `Sequencer.idle`. Listing only the others keeps the state a finite value whatever NCALLERS is. -/
structure Sequencers where
  host : Sequencer
  callers : List (Fin Config.nCallers × Sequencer)
deriving DecidableEq, Repr

/-- A line event or a platform event, the block's output (R70). -/
inductive LineEvent where
  | set (l : Line) (b : Bool)
  | acquire (l : Line) (granted : Bool)
  | release (l : Line)
deriving DecidableEq, Repr

/-- A line event with the model time and the agent of its micro-step. -/
structure TraceEntry where
  time : Nat
  agent : Agent
  event : LineEvent
deriving DecidableEq, Repr

/-- One agent's turn with every draw its micro-steps may need; plain data, so that a statement over all states is one over all
draws (log entry 1). -/
structure Turn where
  /-- The agent that may step (R52). -/
  agent : Agent
  /-- How many of its micro-steps happen before another agent may step (R52). -/
  budget : Nat
  /-- The milliseconds the environment lets pass each time the agent is found waiting in a settling delay (R98, R129). -/
  elapse : Nat
  /-- The platform's answer to `Acquire` of each line (R131): true is ok. -/
  grant : PerLine Bool
  /-- The position of the mirror update of a WRITE sequence begun in this turn (R80). -/
  wpos : Fin 53
  /-- The bit sampled at a rising CLK edge while the DATA level is unknown (R75). -/
  sample : Bool
deriving DecidableEq, Repr

/-- What happens next: an agent's turn, a Tick (R129), or a floating-line step (R77). -/
inductive Move where
  | turn (t : Turn)
  | tick (k : Nat)
  | floatChain (v : U16)
  | floatLatch (v : U16)
deriving DecidableEq, Repr

/-- The machine. `schedule` and `turn`, and each sequencer's `program` and `result`, are the model's own fields (INVENTORY.md);
every other field is the spec's. -/
structure State where
  /-- The register mirror, or Absent (R19). -/
  mirror : Option U16
  /-- OutputEnableState (R23). -/
  oeState : Bool
  /-- Exclusive ownership of each line (R24). -/
  owned : PerLine Bool
  /-- The level of each line (R25). -/
  level : PerLine LineLevel
  /-- The lifecycle state (R27). -/
  life : Lifecycle
  /-- The lock (R28). -/
  lock : Lock
  /-- Model time in milliseconds (R29). -/
  now : Nat
  /-- The external register's shift chain (R30). -/
  chain : U16
  /-- The external register's output latches (R31). -/
  latch : U16
  /-- The sequencer of each host or caller agent (R36, R132). -/
  seqs : Sequencers
  /-- The fault set, in the order raised (R37, R121). -/
  faults : List FaultRecord
  /-- The trace of line events, newest first (R70). -/
  trace : List TraceEntry
  /-- The moves that are to happen, first one next. -/
  schedule : List Move
  /-- The turn being taken, or the last one taken. -/
  turn : Turn
deriving DecidableEq, Repr

/-- The block state of a run's end (R136): the block's own state, the external register's, and the fault set. The sequencers and the
trace are left aside (DEDUCED, log entry 24). -/
structure BlockState where
  mirror : Option U16
  oeState : Bool
  owned : PerLine Bool
  level : PerLine LineLevel
  life : Lifecycle
  lock : Lock
  now : Nat
  chain : U16
  latch : U16
  faults : List FaultRecord
deriving DecidableEq, Repr

/-- Why the machine has no next state. Each is raised by a shared operation whose precondition the spec states and keeps, in a
state no run reaches (`Inv` of Safety.lean rules all of them out). All are SAFE: the spec gives no effect there. The faults of R121
are not among these: they are records in `State.faults`, and the machine goes on. -/
inductive Fault where
  /-- Raised by `lineSet`: the block issues `LineSet` only for lines it owns (R74). Safe. -/
  | lineNotOwned (l : Line)
  /-- Raised by `lockRelease`: releasing requires `lock = Held(a)` (R56). Safe. -/
  | lockNotHeld
  /-- Raised where `mirror` is read while it is Absent (R19). Safe. -/
  | mirrorAbsent
  /-- Raised by `exec` when the agent has an operation in flight or is stopped: only an agent with `op` = None may issue (R36). Safe. -/
  | agentNotIdle
  /-- Raised when the index of an operation in flight lies outside its sequence (R36). Safe. -/
  | noMicroStep
deriving DecidableEq, Repr

/-- Why an instruction has no meaning. -/
inductive Refusal where
  /-- Raised by an arm of `exec` for an instruction with no meaning yet; no arm is left that does. Safe. -/
  | notModelled (mnemonic : String)
deriving DecidableEq, Repr

/-- The outcome of a step. -/
abbrev Result := Host.Outcome State Fault Refusal

/-- An agent that has no operation in flight and nothing to ask (R137). -/
def Sequencer.idle : Sequencer where
  op := none
  stopped := false
  program := []
  result := none

/-- Every agent idle (R132). -/
def Sequencers.idle : Sequencers where
  host := Sequencer.idle
  callers := []

/-- The same value for each line. -/
def PerLine.all {α : Type} (x : α) : PerLine α := ⟨x, x, x, x⟩

/-- A turn in which the agent takes no micro-step (the model's own value at power-up, log entry 4). -/
def Turn.none : Turn where
  agent := .host
  budget := 0
  elapse := 0
  grant := PerLine.all false
  wpos := 0
  sample := false

/-- The state at power-up, the start of a model run, for one draw of `chain` and of `latch` (R137). -/
def State.powerUp (chain latch : U16) : State where
  mirror := none
  oeState := false
  owned := PerLine.all false
  level := PerLine.all .unknown
  life := .down
  lock := .free
  now := 0
  chain := chain
  latch := latch
  seqs := Sequencers.idle
  faults := []
  trace := []
  schedule := []
  turn := Turn.none

/-- The machine right after reset: power-up with `chain` and `latch` at zero. The spec makes both a free draw (R137, D29); the zero
is the model's own (DESIGN CHOICE, log entry 3). Every other draw is `powerUp chain latch`, and a floating-line step reaches it from
here too (R77). -/
def State.reset : State := State.powerUp 0 0

end Sys2Proof.Machine
end

