-- ==== Sys2Proof/Machine/Operands.lean ====
section
/-! DEFINITION. The operand forms: the voltage code, the port field and its merge, the settling-delay condition, the integer
normalization, the order of the line events of a WRITE sequence, the endpoints' operations and their text forms
(41_port_controller.md R93 to R97; 44_control_surface.md R109 to R115; 40_shift_register_driver.md R79). -/

namespace Sys2Proof.Machine

/-- The encoder (R93, R68). -/
def enc : VoltageClass → BitVec 2
  | .off => 0b00#2
  | .v24 => 0b10#2
  | .v48 => 0b01#2

/-- The decoder (R95). -/
def dec (c : BitVec 2) : PortState :=
  if c = 0b00#2 then .off
  else if c = 0b01#2 then .v48
  else if c = 0b10#2 then .v24
  else .undefined

/-- The class a port state names; `undefined` names none (R17, R110). -/
def voltageOf : PortState → Option VoltageClass
  | .off => some .off
  | .v24 => some .v24
  | .v48 => some .v48
  | .undefined => none

/-- A port index as R100 checks it: 8 to 15 are out of range. -/
def portInRange (p : BitVec 4) : Bool := p.toNat ≤ 7

/-- The port of an index in range (R64); an index out of range reaches no use of it. -/
def portOf (p : BitVec 4) : Port := ⟨p.toNat % 8, Nat.mod_lt _ (by decide)⟩

/-- `mask(p)` (R94). -/
def portMask (p : Port) : U16 := 0b11#16 <<< (2 * p.val)

/-- `field(x, p)` (R94). -/
def field (x : U16) (p : Port) : BitVec 2 := ((x >>> (2 * p.val)) &&& 0b11#16).setWidth 2

/-- The register value with port p's field replaced by a code (R100, step 4). -/
def mergeField (x : U16) (p : Port) (nb : BitVec 2) : U16 :=
  (x &&& ~~~(portMask p)) ||| (nb.setWidth 16 <<< (2 * p.val))

/-- The delay condition (R97). -/
def needDelay (cur nb : BitVec 2) : Bool := nb != 0b00#2 && cur != nb

/-- The normalization of a requested voltage (R112). -/
def normVolt (n : Int) : VoltageClass :=
  if n = 24 then .v24 else if n = 48 then .v48 else .off

/-- The integer a voltage text asks for, as the operand V of CSSETPORT. A malformed text is Off, and so is an integer that V does
not hold, since neither is 24 or 48 (R112; log entry 13). -/
def voltOperand (t : Text) : U16 :=
  match Config.voltParse t with
  | none => 0#16
  | some n => if 0 ≤ n ∧ n ≤ 65535 then BitVec.ofNat 16 n.toNat else 0#16

/-- Line event e(e) of `WriteSeq(v)`, e0 to e51 (R79). -/
def writeEvent (v : U16) (e : Nat) : Line × Bool :=
  if e = 0 then (.clk, false)
  else if e = 1 then (.store, false)
  else if e = 50 then (.store, true)
  else if 50 < e then (.store, false)
  else if (e - 2) % 3 = 0 then (.data, v.getLsbD (15 - (e - 2) / 3))
  else if (e - 2) % 3 = 1 then (.clk, true)
  else (.clk, false)

/-- The operation that reads an endpoint (R39). -/
def Endpoint.readOp : Endpoint → Instr
  | .raw => .readraw
  | .oe => .readoe
  | .port p => .readport (BitVec.ofNat 4 p.val)
  | .id => .readid

/-- The text of a port's class, exactly one of three strings (R111). -/
def voltText : VoltageClass → Text
  | .off => ['O', 'f', 'f']
  | .v24 => ['2', '4', 'V']
  | .v48 => ['4', '8', 'V']

/-- The text in which the control surface carries a result's value (R109, R111, R115, R116). -/
def replyText : Reply → Text
  | .nothing => []
  | .raw v => Config.rawFormat v
  | .port c => voltText c
  | .oe b => Config.oeFormat b
  | .id t => t

end Sys2Proof.Machine
end

