-- ==== Sys2Proof/Machine/Flags.lean ====
section
/-! DEFINITION. The block has no flags or condition codes (10_state.md R38); its only status is the code an operation returns and
the fault set. This file gives those their numbers (60_exceptions.md R117, R121), and line events theirs (30_encoding.md R70). -/

namespace Sys2Proof.Machine

/-- The number of a returned code (R117). -/
def OpResult.code : OpResult → Nat
  | .ok _ => 0
  | .invalidArgument => 1
  | .resourceUnavailable => 2

/-- The number of a model fault (R121). -/
def FaultCode.number : FaultCode → Nat
  | .illegalOp => 0x10
  | .notReady => 0x11
  | .alreadyReady => 0x12
  | .undefinedPortState => 0x13
  | .hostProtocol => 0x14
  | .role => 0x15

/-- Lcode of a line (R70). -/
def Line.code : Line → BitVec 2
  | .clk => 0
  | .data => 1
  | .store => 2
  | .oe => 3

/-- The 3-bit coding of a line event; platform events have none (R70). -/
def LineEvent.code : LineEvent → Option (BitVec 3)
  | .set l b => some (l.code ++ BitVec.ofBool b)
  | .acquire _ _ => none
  | .release _ => none

end Sys2Proof.Machine
end

