-- ==== Sys2Proof/Machine/Ops.lean ====
section
/-! DEFINITION. The named operations over the state: the sequencers, the lines and the external register behind them
(40_shift_register_driver.md R74 to R77), the lock (20_memory.md R56), time (R129), returning a code (R117) and raising a model
fault (60_exceptions.md R121). -/

namespace Sys2Proof.Machine

/-- The value of one line. -/
def PerLine.get {α : Type} (x : PerLine α) : Line → α
  | .clk => x.clk
  | .data => x.data
  | .store => x.store
  | .oe => x.oe

/-- The value of one line replaced. -/
def PerLine.set {α : Type} (x : PerLine α) (l : Line) (y : α) : PerLine α :=
  match l with
  | .clk => { x with clk := y }
  | .data => { x with data := y }
  | .store => { x with store := y }
  | .oe => { x with oe := y }

/-- A caller's sequencer in the list of them. -/
def getCaller (n : Fin Config.nCallers) : List (Fin Config.nCallers × Sequencer) → Sequencer
  | [] => Sequencer.idle
  | e :: es => if e.1 = n then e.2 else getCaller n es

/-- A caller's sequencer replaced in the list of them. -/
def setCaller (n : Fin Config.nCallers) (x : Sequencer) :
    List (Fin Config.nCallers × Sequencer) → List (Fin Config.nCallers × Sequencer)
  | [] => [(n, x)]
  | e :: es => if e.1 = n then (n, x) :: es else e :: setCaller n x es

/-- An agent's sequencer (R36). -/
def Sequencers.get (q : Sequencers) : Agent → Sequencer
  | .host => q.host
  | .caller n => getCaller n q.callers

/-- An agent's sequencer replaced. -/
def Sequencers.set (q : Sequencers) (a : Agent) (x : Sequencer) : Sequencers :=
  match a with
  | .host => { q with host := x }
  | .caller n => { q with callers := setCaller n x q.callers }

/-- An agent's sequencer in a state. -/
abbrev State.seq (s : State) (a : Agent) : Sequencer := s.seqs.get a

/-- A state with an agent's sequencer replaced. -/
def State.setSeq (s : State) (a : Agent) (x : Sequencer) : State := { s with seqs := s.seqs.set a x }

/-- The agent whose turn it is. -/
abbrev State.agent (s : State) : Agent := s.turn.agent

/-- The operation in flight of the agent whose turn it is, replaced (R36). -/
def State.setOp (s : State) (f : Option InFlight) : State :=
  s.setSeq s.agent { s.seq s.agent with op := f }

/-- A line event added to the trace (R70). -/
def State.log (s : State) (e : LineEvent) : State :=
  { s with trace := ⟨s.now, s.agent, e⟩ :: s.trace }

/-- The bit a rising CLK edge takes in: the DATA level, or the turn's draw while it is unknown (R75). -/
def State.dataBit (s : State) : Bool :=
  match s.level.data with
  | .driven b => b
  | .unknown => s.turn.sample

/-- The chain shifted one place toward bit 15, with d in bit 0 (R75). -/
def shiftIn (c : U16) (d : Bool) : U16 := (c <<< 1) ||| (BitVec.ofBool d).setWidth 16

/-- Whether driving a line to `b` is a rising edge: from 0 to 1, so never from an unknown level (R75, R76). -/
def risingEdge (prev : LineLevel) (b : Bool) : Bool := prev = .driven false && b

/-- What an edge does to the external register: CLK shifts (R75), STORE latches (R76), DATA and OE do nothing (R77). -/
def State.edge (s : State) (l : Line) : State :=
  match l with
  | .clk => { s with chain := shiftIn s.chain s.dataBit }
  | .store => { s with latch := s.chain }
  | .data => s
  | .oe => s

/-- `LineSet(L, b)` (R74): one micro-step, on an owned line only. -/
def lineSet (l : Line) (b : Bool) (s : State) : Result :=
  if s.owned.get l then
    let t := if risingEdge (s.level.get l) b then s.edge l else s
    .next ({ t with level := t.level.set l (.driven b) }.log (.set l b))
  else .fault (.lineNotOwned l)

/-- `Acquire(L)` answered ok: the line is owned and at level 0, in one micro-step and with no edge (R86, R131). -/
def acquireLine (l : Line) (s : State) : State :=
  { s with owned := s.owned.set l true, level := s.level.set l (.driven false) }.log (.acquire l true)

/-- `Release(L)` of an owned line (R86, R90, R131); a line not owned is passed over. -/
def releaseLine (l : Line) (s : State) : State :=
  if s.owned.get l then
    { s with owned := s.owned.set l false, level := s.level.set l .unknown }.log (.release l)
  else s

/-- Drive OE and set `oeState` in one micro-step (R88, R104). -/
def driveOe (on : Bool) (s : State) : Result :=
  match lineSet .oe on s with
  | .next t => .next { t with oeState := on }
  | .fault r => .fault r
  | .refused r => .refused r

/-- The environment's Tick (R129); no time passes for k = 0, which is no Tick. -/
def tick (k : Nat) (s : State) : State := { s with now := s.now + k }

/-- The floating-line step of CLK, enabled only while CLK is not owned (R77). -/
def floatChain (v : U16) (s : State) : State := if s.owned.clk then s else { s with chain := v }

/-- The floating-line step of STORE, enabled only while STORE is not owned (R77). -/
def floatLatch (v : U16) (s : State) : State := if s.owned.store then s else { s with latch := v }

/-- `return c`: the operation ends and its code goes to the agent whose turn it is (R36, R117). -/
def returnResult (r : OpResult) (s : State) : State :=
  s.setSeq s.agent { s.seq s.agent with op := none, result := some r }

/-- `fault F` (R121): the record joins the fault set, the operation ends and its agent is stopped for good. No block state
changes and control goes nowhere (R125). -/
def raiseFault (c : FaultCode) (w : OpWord) (s : State) : State :=
  let t : State := { s with faults := s.faults ++ [{ code := c, agent := s.agent, word := w }] }
  t.setSeq s.agent { s.seq s.agent with op := none, stopped := true }

/-- `LockRelease()` followed by `return r` (R56, R36). Both are one micro-step: R14 lists no return among the micro-steps, and that
no other agent steps between the two is the model's choice (DESIGN CHOICE, log entry 23). -/
def lockRelease (r : OpResult) (s : State) : Result :=
  if s.lock = .held s.agent then .next (returnResult r { s with lock := .free })
  else .fault .lockNotHeld

/-- Whether an agent may issue its next operation (R36, R121). -/
def Sequencer.ready (q : Sequencer) : Bool := q.op.isNone && !q.stopped

/-- Whether some caller has an operation in flight (R123). -/
def State.callerInFlight (s : State) : Bool := s.seqs.callers.any fun e => (getCaller e.1 s.seqs.callers).op.isSome

/-- Whether an agent has come to its end (R136): it stopped on a fault, or has no operation in flight and nothing further to issue. -/
def Sequencer.over (q : Sequencer) : Bool := q.stopped || (q.op.isNone && q.program.isEmpty)

/-- Whether the run is over (R136): every host and caller agent has come to its end. -/
def State.runOver (s : State) : Bool :=
  s.seqs.host.over && s.seqs.callers.all fun e => (getCaller e.1 s.seqs.callers).over

/-- The block state (R136). -/
def State.block (s : State) : BlockState where
  mirror := s.mirror
  oeState := s.oeState
  owned := s.owned
  level := s.level
  life := s.life
  lock := s.lock
  now := s.now
  chain := s.chain
  latch := s.latch
  faults := s.faults

/-- The final state of a run that is over; a run that is not over has none (R136). -/
def State.finalState (s : State) : Option BlockState := if s.runOver then some s.block else none

/-- Whether an agent other than the one whose turn it is holds the lock (R123). -/
def State.lockHeldByOther (s : State) : Bool :=
  match s.lock with
  | .free => false
  | .held a => a != s.agent

/-- Whether the host has INIT or TEARDOWN in flight: INIT has not completed, or TEARDOWN has begun (R135, D31). -/
def State.hostInTransition (s : State) : Bool :=
  match s.seqs.host.op with
  | none => false
  | some f => f.instr = .init || f.instr = .teardown

/-- Output k of the register as one observation sees it (R32). `drives` is the free draw of an observation while the level of OE
is unknown (R91). -/
def State.out (s : State) (k : Fin 16) (drives : Bool) : OutLevel :=
  match s.level.oe with
  | .driven true => .driving (s.latch.getLsbD k.val)
  | .driven false => .notDriven
  | .unknown => if drives then .driving (s.latch.getLsbD k.val) else .notDriven

/-- The output that drives port p's 48V enable (R33). -/
def output48 (p : Port) : Fin 16 := ⟨2 * p.val, by omega⟩

/-- The output that drives port p's 24V enable (R33). -/
def output24 (p : Port) : Fin 16 := ⟨2 * p.val + 1, by omega⟩

end Sys2Proof.Machine
end

