-- ==== Sys2Proof/Machine/Sequences.lean ====
section
/-! DEFINITION. Each operation as a sequence of micro-steps (00_scope.md R14), written from its pseudocode. -/

namespace Sys2Proof.Machine

/-- A micro-step (R14). -/
inductive Micro where
  /-- `LockAcquire()`, enabled only while the lock is free (R56). -/
  | lockAcquire
  /-- A write of `life` (R86, R90). -/
  | setLife (l : Lifecycle)
  /-- `Acquire(L)`; a refusal goes on at the release part of INIT (R86). -/
  | acquire (l : Line)
  /-- The value of a WRITE sequence and its draw of `wpos` (R79). -/
  | load (v : U16)
  /-- `cur <- field(mirror, p)`, the delay condition and `t0 <- now` (R100). -/
  | readField
  /-- The end of `WaitAtLeast(SETTLE_DELAY_MS)` (R98). -/
  | waitSettled
  /-- The merged value of SETPORT and the draw of `wpos` (R100, R79). -/
  | merge
  /-- Micro-step k of the 53 of a WRITE sequence: a line event or the mirror update (R79, R80). -/
  | shiftOut (k : Nat)
  /-- `LineSet(OE, 1); oeState <- true` in INIT (R88). -/
  | oeOn
  /-- `LineSet(OE, on); oeState <- on` and the return of SETOE (R104). -/
  | setOe (on : Bool)
  /-- `Release(L)` of an owned line (R86, R90). -/
  | release (l : Line)
  /-- `LockRelease()` and the return of a code (R56). -/
  | lockRelease (r : OpResult)
  /-- The atomic read of `mirror` and the return (R108). -/
  | replyRaw
  /-- The atomic read of a port's state and the return or fault (R110). -/
  | replyPort
  /-- The atomic read of `oeState` and the return (R114). -/
  | replyOe
  /-- The return of ID_STRING (R116). -/
  | replyId
deriving DecidableEq, Repr

/-- The 53 micro-steps of `WriteSeq` (R79). -/
def writeSteps : List Micro := (List.range 53).map .shiftOut

/-- WRITE after its admission (R85). -/
def seqWrite (v : U16) : List Micro :=
  [.lockAcquire, .load v] ++ writeSteps ++ [.lockRelease (.ok .nothing)]

/-- INIT after its admission (R86). The part after the first `lockRelease` is what a refused acquisition goes on with. -/
def seqInit : List Micro :=
  [.lockAcquire, .setLife .initializing, .acquire .clk, .acquire .data, .acquire .store, .acquire .oe, .load 0]
    ++ writeSteps ++ [.oeOn, .setLife .ready, .lockRelease (.ok .nothing)]
    ++ [.release .clk, .release .data, .release .store, .release .oe, .setLife .down, .lockRelease .resourceUnavailable]

/-- Where INIT goes on after a refused acquisition (R86). -/
def initFailIdx : Nat := 63

/-- TEARDOWN after its admission, in any state but Down (R90). -/
def seqTeardown : List Micro :=
  [.lockAcquire, .setLife .tearingDown, .release .clk, .release .data, .release .store, .release .oe, .setLife .down,
    .lockRelease (.ok .nothing)]

/-- SETPORT after its admission and argument check (R100). -/
def seqSetport : List Micro :=
  [.lockAcquire, .readField, .waitSettled, .merge] ++ writeSteps ++ [.lockRelease (.ok .nothing)]

/-- CSSETPORT after its admission and argument check: SETPORT from its `LockAcquire` on (R113). -/
def seqCssetport : List Micro :=
  [.lockAcquire, .readField, .waitSettled, .merge] ++ writeSteps ++ [.lockRelease (.ok .nothing)]

/-- SETRAW after its admission (R106). -/
def seqSetraw (v : U16) : List Micro :=
  [.lockAcquire, .load v] ++ writeSteps ++ [.lockRelease (.ok .nothing)]

/-- SETOE after its admission (R104). -/
def seqSetoe (on : Bool) : List Micro := [.setOe on]

/-- READRAW after its admission (R108). -/
def seqReadraw : List Micro := [.replyRaw]

/-- READPORT after its admission and argument check (R110). -/
def seqReadport : List Micro := [.replyPort]

/-- READOE after its admission (R114). -/
def seqReadoe : List Micro := [.replyOe]

/-- READID after its admission (R116). -/
def seqReadid : List Micro := [.replyId]

/-- The micro-steps of an operation in flight (R36). -/
def sequenceOf : Instr → List Micro
  | .init => seqInit
  | .teardown => seqTeardown
  | .write v => seqWrite v
  | .setport _ _ => seqSetport
  | .setraw v => seqSetraw v
  | .setoe on => seqSetoe on
  | .readraw => seqReadraw
  | .readport _ => seqReadport
  | .readoe => seqReadoe
  | .readid => seqReadid
  | .cssetport _ _ => seqCssetport

/-- The operation an issue puts in flight, with the locals its operands give (R36, R64). The locals an operation does not use are
zero. -/
def inFlightOf (i : Instr) : InFlight :=
  let f : InFlight := { instr := i, idx := 0, v := 0, p := 0, nb := 0, t0 := 0, wpos := 0 }
  match i with
  | .init => f
  | .teardown => f
  | .write v => { f with v := v }
  | .setport p nb => { f with p := portOf p, nb := nb }
  | .setraw v => { f with v := v }
  | .setoe _ => f
  | .readraw => f
  | .readport p => { f with p := portOf p }
  | .readoe => f
  | .readid => f
  | .cssetport p n => { f with p := portOf p, nb := enc (normVolt n.toNat) }

end Sys2Proof.Machine
end

