-- ==== Sys2Proof/Machine/Micro.lean ====
section
/-! DEFINITION. What one micro-step does, an agent's run of micro-steps within its turn, and the admission every operation starts
with (00_scope.md R14; 20_memory.md R52; 60_exceptions.md R122 to R125). -/

namespace Sys2Proof.Machine

/-- The next micro-step of the operation in flight comes next (R36). -/
def advance (f : InFlight) (s : State) : State := s.setOp (some { f with idx := f.idx + 1 })

/-- An outcome's next state taken on to the operation's next micro-step. -/
def thenAdvance (f : InFlight) : Result → Result
  | .next t => .next (advance f t)
  | .fault r => .fault r
  | .refused r => .refused r

/-- `LockAcquire()`: blocked while the lock is not free (R56). -/
def microLockAcquire (f : InFlight) (s : State) : Result :=
  if s.lock = .free then .next (advance f { s with lock := .held s.agent }) else .next s

/-- `Acquire(L)` with the platform's draw (R86, R131). -/
def microAcquire (l : Line) (f : InFlight) (s : State) : Result :=
  if s.turn.grant.get l then .next (advance f (acquireLine l s))
  else .next ((s.log (.acquire l false)).setOp (some { f with idx := initFailIdx }))

/-- The start of a WRITE sequence of value v, with the draw of its mirror-update position (R79). -/
def startWrite (v : U16) (f : InFlight) (s : State) : State :=
  s.setOp (some { f with v := v, wpos := s.turn.wpos, idx := f.idx + 1 })

/-- The delay condition on the current field: a delay begins at `t0 <- now`, or the wait is passed over (R97, R100). -/
def microReadField (f : InFlight) (s : State) : Result :=
  match s.mirror with
  | none => .fault .mirrorAbsent
  | some m =>
    if needDelay (field m f.p) f.nb then .next (s.setOp (some { f with t0 := s.now, idx := f.idx + 1 }))
    else .next (s.setOp (some { f with idx := f.idx + 2 }))

/-- The end of the settling delay, enabled once 300 ms have passed (R98). The environment may let time pass first (R129). -/
def microWait (f : InFlight) (s : State) : Result :=
  let t := tick s.turn.elapse s
  if f.t0 + Config.settleDelayMs ≤ t.now then .next (advance f t) else .next t

/-- SETPORT's new register value (R100). -/
def microMerge (f : InFlight) (s : State) : Result :=
  match s.mirror with
  | none => .fault .mirrorAbsent
  | some m => .next (startWrite (mergeField m f.p f.nb) f s)

/-- Micro-step k of a WRITE sequence: the mirror update stands immediately before event e(wpos), or last when wpos is 52 (R79,
R80). -/
def microShift (k : Nat) (f : InFlight) (s : State) : Result :=
  if k = f.wpos.val then .next (advance f { s with mirror := some f.v })
  else
    let e := writeEvent f.v (if k < f.wpos.val then k else k - 1)
    thenAdvance f (lineSet e.1 e.2 s)

/-- SETOE's one micro-step (R104). -/
def microSetOe (on : Bool) (s : State) : Result :=
  match driveOe on s with
  | .next t => .next (returnResult (.ok .nothing) t)
  | .fault r => .fault r
  | .refused r => .refused r

/-- READRAW's one micro-step (R108). -/
def microReplyRaw (s : State) : Result :=
  match s.mirror with
  | none => .fault .mirrorAbsent
  | some m => .next (returnResult (.ok (.raw m)) s)

/-- READPORT's one micro-step: a field of 0b11 raises F_UNDEFINED_PORT_STATE (R110). -/
def microReplyPort (f : InFlight) (s : State) : Result :=
  match s.mirror with
  | none => .fault .mirrorAbsent
  | some m =>
    match voltageOf (dec (field m f.p)) with
    | some c => .next (returnResult (.ok (.port c)) s)
    | none => .next (raiseFault .undefinedPortState (encode f.instr) s)

/-- READOE's one micro-step (R114). -/
def microReplyOe (s : State) : Result := .next (returnResult (.ok (.oe s.oeState)) s)

/-- READID's one micro-step (R116). -/
def microReplyId (s : State) : Result := .next (returnResult (.ok (.id Config.idString)) s)

/-- One micro-step of the operation in flight of the agent whose turn it is. -/
def runMicro (f : InFlight) (m : Micro) (s : State) : Result :=
  match m with
  | .lockAcquire => microLockAcquire f s
  | .setLife l => .next (advance f { s with life := l })
  | .acquire l => microAcquire l f s
  | .load v => .next (startWrite v f s)
  | .readField => microReadField f s
  | .waitSettled => microWait f s
  | .merge => microMerge f s
  | .shiftOut k => microShift k f s
  | .oeOn => thenAdvance f (driveOe true s)
  | .setOe on => microSetOe on s
  | .release l => .next (advance f (releaseLine l s))
  | .lockRelease r => lockRelease r s
  | .replyRaw => microReplyRaw s
  | .replyPort => microReplyPort f s
  | .replyOe => microReplyOe s
  | .replyId => microReplyId s

/-- The next micro-step of an operation in flight (R36). -/
def microStep (f : InFlight) (s : State) : Result :=
  match (sequenceOf f.instr)[f.idx]? with
  | none => .fault .noMicroStep
  | some m => runMicro f m s

/-- Up to n micro-steps of the agent whose turn it is, in program order, until its operation ends (R52). A micro-step that is not
enabled leaves the agent where it is. -/
def runTurn : Nat → State → Result
  | 0, s => .next s
  | n + 1, s =>
    match (s.seq s.agent).op with
    | none => .next s
    | some f =>
      match microStep f s with
      | .next t => runTurn n t
      | .fault r => .fault r
      | .refused r => .refused r

/-- Whether an operation is one of the host role's own (R122, R128). -/
def hostOnly : Instr → Bool
  | .init => true
  | .teardown => true
  | .write _ => true
  | .setport _ _ => false
  | .setraw _ => false
  | .setoe _ => false
  | .readraw => false
  | .readport _ => false
  | .readoe => false
  | .readid => false
  | .cssetport _ _ => false

/-- INIT is allowed only in state Down (R123). -/
def lifecycleInit (s : State) : Option FaultCode :=
  match s.life with
  | .down => none
  | .ready => some .alreadyReady
  | .initializing => some .hostProtocol
  | .tearingDown => some .hostProtocol

/-- TEARDOWN is allowed when no caller operation is in flight and no other agent holds the lock (R123). -/
def lifecycleTeardown (s : State) : Option FaultCode :=
  if s.callerInFlight || s.lockHeldByOther then some .hostProtocol else none

/-- Every other operation is allowed only in state Ready, once INIT has completed and before TEARDOWN begins (R123, R135, D31). -/
def lifecycleReady (s : State) : Option FaultCode :=
  if s.life = .ready ∧ s.hostInTransition = false then none else some .notReady

/-- The admission checks in their order: decoding, role, lifecycle (R122). The first that fails decides. -/
def admission (i : Instr) (life : State → Option FaultCode) (s : State) : Option FaultCode :=
  if i.wellFormed = false then some .illegalOp
  else if hostOnly i = true ∧ s.agent ≠ .host then some .role
  else life s

/-- An operation from its issue on: admission, then what it returns at once (its argument checks), then its micro-steps for as
long as the turn lasts (R14, R122, R124). -/
def operate (i : Instr) (life : State → Option FaultCode) (atOnce : State → Option OpResult) (s : State) : Result :=
  if (s.seq s.agent).ready then
    match admission i life s with
    | some c => .next (raiseFault c (encode i) s)
    | none =>
      match atOnce s with
      | some r => .next (returnResult r s)
      | none => runTurn s.turn.budget (s.setOp (some (inFlightOf i)))
  else .fault .agentNotIdle

/-- Nothing is returned at once. -/
def noCheck (_ : State) : Option OpResult := none

/-- The argument check of SETPORT, CSSETPORT and READPORT: before the lock, touching no state (R100, R110, R113, R118). -/
def checkPort (p : BitVec 4) (_ : State) : Option OpResult :=
  if portInRange p then none else some .invalidArgument

end Sys2Proof.Machine
end

