-- ==== Sys2Proof/Machine/ControlSurface.lean ====
section
/-! DEFINITION. The control surface's operations: the four reads and the integer port write (44_control_surface.md). -/

namespace Sys2Proof.Machine

/-- READRAW: read the register mirror (R108). -/
def execReadraw (s : State) : Result := operate .readraw lifecycleReady noCheck s

/-- READPORT: read one port's voltage class (R110). -/
def execReadport (p : BitVec 4) (s : State) : Result := operate (.readport p) lifecycleReady (checkPort p) s

/-- READOE: read the global output-enable state (R114). -/
def execReadoe (s : State) : Result := operate .readoe lifecycleReady noCheck s

/-- READID: read the identification string (R116). -/
def execReadid (s : State) : Result := operate .readid lifecycleReady noCheck s

/-- CSSETPORT: set one port's voltage class from an integer (R113). -/
def execCssetport (p : BitVec 4) (n : U16) (s : State) : Result :=
  operate (.cssetport p n) lifecycleReady (checkPort p) s

end Sys2Proof.Machine
end

