-- ==== Sys2Proof/Machine/Driver.lean ====
section
/-! DEFINITION. The shift-register driver's operations: INIT, TEARDOWN, WRITE (40_shift_register_driver.md). -/

namespace Sys2Proof.Machine

/-- INIT: acquire the four lines, clear the register, enable the outputs (R86). -/
def execInit (s : State) : Result := operate .init lifecycleInit noCheck s

/-- TEARDOWN in state Down returns OK at once and changes nothing (R90, R123). -/
def teardownAtOnce (s : State) : Option OpResult := if s.life = .down then some (.ok .nothing) else none

/-- TEARDOWN: release the four lines (R90). -/
def execTeardown (s : State) : Result := operate .teardown lifecycleTeardown teardownAtOnce s

/-- WRITE: write a 16-bit value to the register (R85). -/
def execWrite (v : U16) (s : State) : Result := operate (.write v) lifecycleReady noCheck s

end Sys2Proof.Machine
end

