-- ==== Sys2Proof/Machine/OutputEnable.lean ====
section
/-! DEFINITION. The output-enable controller's operation SETOE (42_output_enable.md R104). -/

namespace Sys2Proof.Machine

/-- SETOE: drive the global output-enable line, without the lock (R104). -/
def execSetoe (on : Bool) (s : State) : Result := operate (.setoe on) lifecycleReady noCheck s

end Sys2Proof.Machine
end

