-- ==== Sys2Proof/Machine/PortController.lean ====
section
/-! DEFINITION. The port controller's operation SETPORT (41_port_controller.md R100). -/

namespace Sys2Proof.Machine

/-- SETPORT: set one port's voltage class, after a settling delay where R97 asks for one (R100). -/
def execSetport (p : BitVec 4) (nb : BitVec 2) (s : State) : Result :=
  operate (.setport p nb) lifecycleReady (checkPort p) s

end Sys2Proof.Machine
end

