-- ==== Sys2Proof/Machine/RawOverride.lean ====
section
/-! DEFINITION. The raw register override SETRAW (43_raw_override.md R106). -/

namespace Sys2Proof.Machine

/-- SETRAW: write a 16-bit value to the register, bypassing the per-port rules (R106). -/
def execSetraw (v : U16) (s : State) : Result := operate (.setraw v) lifecycleReady noCheck s

end Sys2Proof.Machine
end

