-- ==== Sys2Proof/Machine/Dispatch.lean ====
section
/-! DEFINITION. The meaning of each operation, one arm per constructor of Instr. -/

namespace Sys2Proof.Machine

/-- The meaning of each operation, issued by the agent whose turn it is. -/
def exec (i : Instr) (s : State) : Host.Outcome State Fault Refusal :=
  match i with
  | .init => Sys2Proof.Machine.execInit s
  | .teardown => Sys2Proof.Machine.execTeardown s
  | .write v => Sys2Proof.Machine.execWrite v s
  | .setport p nb => Sys2Proof.Machine.execSetport p nb s
  | .setraw v => Sys2Proof.Machine.execSetraw v s
  | .setoe on => Sys2Proof.Machine.execSetoe on s
  | .readraw => Sys2Proof.Machine.execReadraw s
  | .readport p => Sys2Proof.Machine.execReadport p s
  | .readoe => Sys2Proof.Machine.execReadoe s
  | .readid => Sys2Proof.Machine.execReadid s
  | .cssetport p n => Sys2Proof.Machine.execCssetport p n s

end Sys2Proof.Machine
end

