-- ==== Sys2Proof/Machine/Requests.lean ====
section
/-! DEFINITION. How a request of an agent becomes an operation (30_encoding.md R66, R67; 44_control_surface.md R109, R112, R115),
and what each move does (20_memory.md R52). -/

namespace Sys2Proof.Machine

/-- An operation word is decoded and its operation issued; a word that spells none raises F_ILLEGAL_OP (R67, R122). -/
def serveWord (w : OpWord) (s : State) : Result :=
  match decode w with
  | .ok i => exec i s
  | .error _ => .next (raiseFault .illegalOp w s)

/-- A text write of RAW (R109): malformed text and, under the reject policy, a value above 0xFFFF issue no operation. -/
def serveWriteRaw (t : Text) (s : State) : Result :=
  match Config.rawParse t with
  | none => .next (returnResult .invalidArgument s)
  | some n =>
    if 0xFFFF < n ∧ Config.rawWideReject = true then .next (returnResult .invalidArgument s)
    else exec (.setraw (BitVec.ofNat 16 n)) s

/-- A text write of OE (R115). -/
def serveWriteOe (t : Text) (s : State) : Result :=
  match Config.oeParse t with
  | none => .next (returnResult .invalidArgument s)
  | some b => exec (.setoe b) s

/-- A text write of a port: every text asks for some class (R112). -/
def serveWritePort (p : Port) (t : Text) (s : State) : Result :=
  exec (.cssetport (BitVec.ofNat 4 p.val) (voltOperand t)) s

/-- One request of the agent whose turn it is. -/
def serve (r : Request) (s : State) : Result :=
  match r with
  | .word w => serveWord w s
  | .read e => exec e.readOp s
  | .writeRaw t => serveWriteRaw t s
  | .writeOe t => serveWriteOe t s
  | .writePort p t => serveWritePort p t s

/-- The agent whose turn it is issues its next request, or has none (R36, R71). -/
def issueNext (s : State) : Result :=
  match (s.seq s.agent).program with
  | [] => .next s
  | r :: rs => serve r (s.setSeq s.agent { s.seq s.agent with program := rs })

/-- A turn: a stopped agent does nothing more (R121), an operation in flight goes on, an idle agent issues its next request (R36). -/
def takeTurn (t : Turn) (s : State) : Result :=
  let u : State := { s with turn := t }
  if (u.seq u.agent).stopped then .next u
  else if (u.seq u.agent).op.isSome then runTurn t.budget u
  else issueNext u

/-- What a move does (R52, R77, R129). -/
def runMove (m : Move) (s : State) : Result :=
  match m with
  | .turn t => takeTurn t s
  | .tick k => .next (tick k s)
  | .floatChain v => .next (floatChain v s)
  | .floatLatch v => .next (floatLatch v s)

/-- A turn of the host long enough for any operation to complete: every acquisition is granted, and 300 ms pass at a settling
delay (log entry 2). -/
def hostTurn : Turn where
  agent := .host
  budget := 100
  elapse := Config.settleDelayMs
  grant := PerLine.all true
  wpos := 0
  sample := false

end Sys2Proof.Machine
end

