-- ==== Sys2Proof/Machine/Step.lean ====
section
/-! DEFINITION. One step: the next move of the schedule happens (20_memory.md R52). -/

namespace Sys2Proof.Machine

/-- The next move happens; with none to happen the state stays (log entry 15). Whether the run is over is
`State.runOver`, whatever the schedule holds. -/
def step (s : State) : Host.Outcome State Fault Refusal :=
  match s.schedule with
  | [] => .next s
  | m :: ms => runMove m { s with schedule := ms }

/-- `s` with an operation word as the host's next request and the host's turn as the next move, so that the next step issues
exactly that word. An operation the host has in flight, and a fault that stopped it, would keep it from issuing, so both are
cleared (log entry 2). -/
def State.withFetchWord (s : State) (nbits w : Nat) : State :=
  { s with
    seqs := { s.seqs with
      host := { s.seqs.host with
        op := none
        stopped := false
        program := .word (BitVec.ofNat 32 (w % 2 ^ nbits)) :: s.seqs.host.program } }
    schedule := .turn hostTurn :: s.schedule }

end Sys2Proof.Machine
end

