-- ==== Sys2Proof/Machine/Assembler.lean ====
section
/-! DEFINITION. The assembler syntax and the pseudo-operations (30_encoding.md R71, R72). It carries no meaning beyond the words it
names. -/

namespace Sys2Proof.Machine

/-- The pseudo-operations (R72). -/
inductive Pseudo where
  | portoff (p : BitVec 4)
  | port24 (p : BitVec 4)
  | port48 (p : BitVec 4)
  | kill
  | restore
  | alloff
deriving DecidableEq, Repr

/-- The expansion of a pseudo-operation (R72). -/
def expand : Pseudo → Instr
  | .portoff p => .setport p (enc .off)
  | .port24 p => .setport p (enc .v24)
  | .port48 p => .setport p (enc .v48)
  | .kill => .setoe false
  | .restore => .setoe true
  | .alloff => .setraw 0

/-- The agent an `agent:` marker names (R71). -/
inductive AgentMark where
  | host
  | caller (n : Nat)
deriving DecidableEq, Repr

/-- A token of a line: a word of letters and digits, a comma, or a colon. -/
inductive Token where
  | word (t : Text)
  | comma
  | colon
deriving DecidableEq, Repr

/-- The letters and digits of a word, as the codes of their characters. -/
def isWordChar (c : Char) : Bool :=
  (97 ≤ c.toNat && c.toNat ≤ 122) || (65 ≤ c.toNat && c.toNat ≤ 90) || (48 ≤ c.toNat && c.toNat ≤ 57)

/-- The pending word, if any, as the next token. -/
def flushWord (pending : Text) (rest : List Token) : List Token :=
  if pending.isEmpty then rest else .word pending.reverse :: rest

/-- The tokens of a line up to its comment; `pending` is the word being read, backwards (R71). -/
def tokens : Text → Text → Option (List Token)
  | [], pending => some (flushWord pending [])
  | c :: cs, pending =>
    if c = ';' then some (flushWord pending [])
    else if isWordChar c then tokens cs (c :: pending)
    else if c = ' ' ∨ c = '\t' then (tokens cs []).map (flushWord pending)
    else if c = ',' then (tokens cs []).map fun r => flushWord pending (.comma :: r)
    else if c = ':' then (tokens cs []).map fun r => flushWord pending (.colon :: r)
    else none

/-- The value of one digit in a base, if it is one. -/
def digit (base : Nat) (c : Char) : Option Nat :=
  let n := c.toNat
  let d :=
    if 48 ≤ n ∧ n ≤ 57 then n - 48
    else if 97 ≤ n ∧ n ≤ 102 then n - 87
    else if 65 ≤ n ∧ n ≤ 70 then n - 55
    else base
  if d < base then some d else none

/-- The value of a row of digits in a base. -/
def digits (base : Nat) : Nat → Text → Option Nat
  | acc, [] => some acc
  | acc, c :: cs =>
    match digit base c with
    | some d => digits base (acc * base + d) cs
    | none => none

/-- A number, decimal or `0x` hexadecimal (R71). -/
def number : Text → Option Nat
  | [] => none
  | '0' :: 'x' :: [] => none
  | '0' :: 'x' :: cs => digits 16 0 cs
  | cs => digits 10 0 cs

/-- A number that fits w bits, as an operand. -/
def operand (w : Nat) (t : Text) : Option (BitVec w) :=
  match number t with
  | some n => if n < 2 ^ w then some (BitVec.ofNat w n) else none
  | none => none

/-- `vclass` of setport (R71). -/
def vclass (t : Text) : Option VoltageClass :=
  if t = "off".toList then some .off
  else if t = "v24".toList then some .v24
  else if t = "v48".toList then some .v48
  else none

/-- An operation or pseudo-operation without operands (R71, R72). -/
def assemble0 (m : Text) : Option Instr :=
  if m = "init".toList then some .init
  else if m = "teardown".toList then some .teardown
  else if m = "readraw".toList then some .readraw
  else if m = "readoe".toList then some .readoe
  else if m = "readid".toList then some .readid
  else if m = "kill".toList then some (expand .kill)
  else if m = "restore".toList then some (expand .restore)
  else if m = "alloff".toList then some (expand .alloff)
  else none

/-- An operation or pseudo-operation with one operand (R71, R72). -/
def assemble1 (m x : Text) : Option Instr :=
  if m = "write".toList then (operand 16 x).map .write
  else if m = "setraw".toList then (operand 16 x).map .setraw
  else if m = "setoe".toList then (operand 1 x).map fun b => .setoe (b == 1)
  else if m = "readport".toList then (operand 4 x).map .readport
  else if m = "portoff".toList then (operand 4 x).map fun p => expand (.portoff p)
  else if m = "port24".toList then (operand 4 x).map fun p => expand (.port24 p)
  else if m = "port48".toList then (operand 4 x).map fun p => expand (.port48 p)
  else none

/-- An operation with two operands (R71). -/
def assemble2 (m x y : Text) : Option Instr :=
  match operand 4 x with
  | none => none
  | some p =>
    if m = "setport".toList then (vclass y).map fun c => .setport p (enc c)
    else if m = "cssetport".toList then (operand 16 y).map fun n => .cssetport p n
    else none

/-- One operation from its tokens (R71). -/
def assembleOp : List Token → Option Instr
  | [.word m] => assemble0 m
  | [.word m, .word x] => assemble1 m x
  | [.word m, .word x, .comma, .word y] => assemble2 m x y
  | _ => none

/-- The agent named before a colon: `host`, or `c` and a decimal number (R71). -/
def agentMark (t : Text) : Option AgentMark :=
  if t = "host".toList then some .host
  else
    match t with
    | 'c' :: d :: ds => (digits 10 0 (d :: ds)).map .caller
    | _ => none

/-- One line of a program: the agent it names, if any, and its operation (R71). A line of a comment only holds none. -/
def assembleLine (t : Text) : Option (Option AgentMark × Option Instr) :=
  match tokens t [] with
  | none => none
  | some [] => some (none, none)
  | some (.word a :: .colon :: ts) =>
    match agentMark a, assembleOp ts with
    | some g, some i => some (some g, some i)
    | _, _ => none
  | some ts =>
    match assembleOp ts with
    | some i => some (none, some i)
    | none => none

/-- A program: its lines' operations in order, each with the agent its line names, if any (R71). -/
def assembleProgram : List Text → Option (List (Option AgentMark × Instr))
  | [] => some []
  | l :: ls =>
    match assembleLine l, assembleProgram ls with
    | some (g, some i), some rest => some ((g, i) :: rest)
    | some (_, none), some rest => some rest
    | _, _ => none

end Sys2Proof.Machine
end

