-- ==== Sys2Proof/Safety.lean ====
section
/-! DEFINITION. The terms claims use: a run with no fault recorded (60_exceptions.md R121), the end state of a WRITE sequence
(40_shift_register_driver.md R81), and the invariant that every step keeps, with the phases of the operations in flight. -/

namespace Sys2Proof.Machine

/-- A claim about a run may rest only on runs with no fault recorded (R121). -/
abbrev Clean (s : State) : Prop := s.faults = []

/-- The agent whose turn it is may issue its next operation (R36). -/
abbrev MayIssue (s : State) : Prop := (s.seq s.agent).ready = true

/-- The block admits operations other than INIT and TEARDOWN (R123, R135). -/
abbrev Open (s : State) : Prop := s.life = .ready ∧ s.hostInTransition = false

/-- All four lines are owned. -/
abbrev AllOwned (s : State) : Prop := s.owned = PerLine.all true

/-- A register write of the agent whose turn it is meets no obstacle: it is admitted, finds the lock free, owns the lines it
drives (R74), and the turn is long enough for its 58 micro-steps at most (counted as in log entry 9). -/
structure Unhindered (s : State) : Prop where
  idle : MayIssue s
  opened : Open s
  lock : s.lock = .free
  owned : AllOwned s
  budget : 58 ≤ s.turn.budget

/-- The trace entries of a whole WRITE sequence of v by the agent whose turn it is, newest first (R79). -/
def writeTrace (v : U16) (s : State) : List TraceEntry :=
  ((List.range 52).map fun e => (⟨s.now, s.agent, .set (writeEvent v e).1 (writeEvent v e).2⟩ : TraceEntry)).reverse

/-- The end state of a whole WRITE sequence of v (R81), sequencers left aside. -/
def wroteState (v : U16) (s : State) : State :=
  { s with
    mirror := some v
    chain := v
    latch := v
    level := { s.level with clk := .driven false, data := .driven (v.getLsbD 0), store := .driven false }
    trace := writeTrace v s ++ s.trace }

/-- `latch` = `chain` = `mirror` with the lines a WRITE sequence leaves (R50, R59, R81). -/
structure Coherent (s : State) : Prop where
  latch : s.mirror = some s.latch
  chain : s.chain = s.latch
  clk : s.level.clk = .driven false
  data : s.level.data = .driven (s.latch.getLsbD 0)
  store : s.level.store = .driven false

/-- Data bits clocked into the register, each by DATA, CLK low and CLK high (R78). -/
def clockIn : List Bool → State → Result
  | [], s => .next s
  | d :: ds, s =>
    match lineSet .data d s with
    | .next s1 =>
      match lineSet .clk false s1 with
      | .next s2 =>
        match lineSet .clk true s2 with
        | .next s3 => clockIn ds s3
        | .fault r => .fault r
        | .refused r => .refused r
      | .fault r => .fault r
      | .refused r => .refused r
    | .fault r => .fault r
    | .refused r => .refused r

/-- The operation a request issues; none for a word that spells none and for text that is rejected (R67, R109, R115). -/
def Request.issues : Request → Option Instr
  | .word w =>
    match decode w with
    | .ok i => some i
    | .error _ => none
  | .read e => some e.readOp
  | .writeRaw t =>
    match Config.rawParse t with
    | none => none
    | some n => if 0xFFFF < n ∧ Config.rawWideReject = true then none else some (.setraw (BitVec.ofNat 16 n))
  | .writeOe t => (Config.oeParse t).map .setoe
  | .writePort p t => some (.cssetport (BitVec.ofNat 4 p.val) (voltOperand t))

/-- `b` is the state in which the micro-steps of the turn u taken in s begin: with the operation in flight, or with the one that the
agent's next request issues. -/
def StartsTurn (u : Turn) (s b : State) : Prop :=
  ((s.seq u.agent).op ≠ none ∧ b = { s with turn := u }) ∨
  (∃ r rs i, (s.seq u.agent).program = r :: rs ∧ r.issues = some i ∧
    b = (({ s with turn := u } : State).setSeq u.agent { s.seq u.agent with program := rs }).setOp (some (inFlightOf i)))

/-- The operation in flight of the agent whose turn it is stands at the end of a settling delay (R98). -/
def AtWait (s : State) : Prop :=
  ∃ f, (s.seq s.agent).op = some f ∧ (sequenceOf f.instr)[f.idx]? = some .waitSettled

/-- How many rising CLK edges the first e line events of a WRITE sequence hold (R79). -/
def risesIn (e : Nat) : Nat := min ((e - 1) / 3) 16

/-- How many line events precede micro-step k of a WRITE sequence with the mirror update at wpos (R79). -/
def eventsBefore (wpos k : Nat) : Nat := if k ≤ wpos then k else k - 1

/-- The lines and the external register after the first e line events of a WRITE sequence of v (R75, R76, R79). -/
structure ShiftProgress (v : U16) (e : Nat) (s : State) : Prop where
  clk : 1 ≤ e → s.level.clk = .driven (decide (e % 3 = 1 ∧ 4 ≤ e ∧ e ≤ 49))
  store : 2 ≤ e → s.level.store = .driven (decide (e = 51))
  data : 3 ≤ e → s.level.data = .driven (v.getLsbD (15 - (min e 50 - 3) / 3))
  chain : ∀ i, i < risesIn e → s.chain.getLsbD i = v.getLsbD (16 - risesIn e + i)
  latch : 51 ≤ e → s.latch = v

/-- A WRITE sequence before its micro-step k (R79, R80). -/
structure WritePhase (f : InFlight) (k : Nat) (s : State) : Prop where
  owned : AllOwned s
  progress : ShiftProgress f.v (eventsBefore f.wpos.val k) s
  mirror : f.wpos.val < k → s.mirror = some f.v

/-- The state in which WRITE or SETRAW of v has its micro-step idx before it (R85, R106). -/
def rawPhase (v : U16) (f : InFlight) (s : State) : Prop :=
  s.life = .ready ∧
  (f.idx = 0 ∨ (f.idx = 1 ∧ Coherent s) ∨ (2 ≤ f.idx ∧ f.idx ≤ 55 ∧ f.v = v ∧ WritePhase f (f.idx - 2) s))

/-- The state in which SETPORT or CSSETPORT has its micro-step idx before it (R100, R113). -/
def portPhase (f : InFlight) (s : State) : Prop :=
  s.life = .ready ∧ f.t0 ≤ s.now ∧
  (f.idx = 0 ∨ (1 ≤ f.idx ∧ f.idx ≤ 3 ∧ Coherent s) ∨ (4 ≤ f.idx ∧ f.idx ≤ 57 ∧ WritePhase f (f.idx - 4) s))

/-- How far INIT's acquisitions or a failed INIT's releases have come: line l is owned at level 0, or not owned. -/
def acquired (s : State) (l : Line) : Prop := s.owned.get l = true ∧ s.level.get l = .driven false

/-- The state in which INIT has its micro-step idx before it (R86). -/
def initPhase (f : InFlight) (s : State) : Prop :=
  (f.idx ≤ 1 ∧ s.life = .down) ∨
  (2 ≤ f.idx ∧ f.idx ≤ 6 ∧ s.life = .initializing ∧ (3 ≤ f.idx → acquired s .clk) ∧ (4 ≤ f.idx → acquired s .data) ∧
    (5 ≤ f.idx → acquired s .store) ∧ (6 ≤ f.idx → acquired s .oe) ∧
    (f.idx < 3 → s.owned.clk = false) ∧ (f.idx < 4 → s.owned.data = false) ∧ (f.idx < 5 → s.owned.store = false) ∧
    (f.idx < 6 → s.owned.oe = false)) ∨
  (7 ≤ f.idx ∧ f.idx ≤ 60 ∧ s.life = .initializing ∧ f.v = 0 ∧ WritePhase f (f.idx - 7) s ∧ s.level.oe = .driven false) ∨
  (f.idx = 61 ∧ s.life = .initializing ∧ AllOwned s ∧ Coherent s ∧ s.latch = 0 ∧ s.level.oe = .driven s.oeState) ∨
  (f.idx = 62 ∧ s.life = .ready ∧ Coherent s ∧ s.latch = 0) ∨
  (63 ≤ f.idx ∧ f.idx ≤ 67 ∧ s.life = .initializing ∧ s.level.oe ≠ .driven true ∧ (64 ≤ f.idx → s.owned.clk = false) ∧
    (65 ≤ f.idx → s.owned.data = false) ∧ (66 ≤ f.idx → s.owned.store = false) ∧ (67 ≤ f.idx → s.owned.oe = false)) ∨
  (f.idx = 68 ∧ s.life = .down)

/-- The state in which TEARDOWN has its micro-step idx before it (R90). -/
def teardownPhase (f : InFlight) (s : State) : Prop :=
  (f.idx = 0 ∧ s.life = .ready) ∨ (f.idx = 1 ∧ s.life = .ready ∧ Coherent s) ∨
  (2 ≤ f.idx ∧ f.idx ≤ 6 ∧ s.life = .tearingDown ∧ (3 ≤ f.idx → s.owned.clk = false) ∧ (4 ≤ f.idx → s.owned.data = false) ∧
    (5 ≤ f.idx → s.owned.store = false) ∧ (6 ≤ f.idx → s.owned.oe = false) ∧ (f.idx ≤ 5 → s.level.oe = .driven s.oeState)) ∨
  (f.idx = 7 ∧ s.life = .down)

/-- The state an operation in flight has before it, by its index (R36). -/
def phaseOf (f : InFlight) (s : State) : Prop :=
  match f.instr with
  | .init => initPhase f s
  | .teardown => teardownPhase f s
  | .write v => rawPhase v f s
  | .setport _ nb => portPhase f s ∧ f.nb = nb
  | .setraw v => rawPhase v f s
  | .setoe _ => f.idx = 0 ∧ s.life = .ready
  | .readraw => f.idx = 0 ∧ s.life = .ready
  | .readport _ => f.idx = 0 ∧ s.life = .ready
  | .readoe => f.idx = 0 ∧ s.life = .ready
  | .readid => f.idx = 0 ∧ s.life = .ready
  | .cssetport _ n => portPhase f s ∧ f.nb = enc (normVolt n.toNat)

/-- The operations that take the lock (R52). -/
def takesLock : Instr → Bool
  | .init => true
  | .teardown => true
  | .write _ => true
  | .setport _ _ => true
  | .setraw _ => true
  | .setoe _ => false
  | .readraw => false
  | .readport _ => false
  | .readoe => false
  | .readid => false
  | .cssetport _ _ => true

/-- The lifecycle operations (R27). -/
def changesLife (i : Instr) : Bool := i = .init || i = .teardown

/-- What holds of an agent's operation in flight. -/
structure FlightOk (s : State) (a : Agent) (f : InFlight) : Prop where
  /-- Its word decodes (R122). -/
  wf : f.instr.wellFormed = true
  /-- Its agent's role may issue it (R128). -/
  role : hostOnly f.instr = true → a = .host
  /-- It holds the lock from its first micro-step on (R28, R52). -/
  lock : takesLock f.instr = true → 1 ≤ f.idx → s.lock = .held a
  /-- No caller operation is in flight beside INIT or TEARDOWN (R123, R135). -/
  alone : changesLife f.instr = true → s.callerInFlight = false
  /-- The shared state is as its pseudocode left it. -/
  phase : phaseOf f s

/-- The invariant of the machine: it rules out every state in which a primitive's precondition fails, and every step keeps it. -/
structure Inv (s : State) : Prop where
  /-- A line's level is known exactly while the line is owned (R25). -/
  known : ∀ l, s.owned.get l = true ↔ s.level.get l ≠ .unknown
  /-- In Down no line is owned (R89, R90). -/
  down : s.life = .down → s.owned = PerLine.all false
  /-- In Ready every line is owned (R74, R86). -/
  ready : s.life = .ready → AllOwned s
  /-- In Ready the mirror is there (R19). -/
  present : s.life = .ready → s.mirror ≠ none
  /-- In Ready `oeState` is the level of OE (R26). -/
  oe : s.life = .ready → s.level.oe = .driven s.oeState
  /-- In Ready with the lock free, `latch` = `chain` = `mirror` (R59). -/
  coherent : s.life = .ready → s.lock = .free → Coherent s
  /-- Initializing means the host's INIT is in flight (R27). -/
  initializing : s.life = .initializing → ∃ f, s.seqs.host.op = some f ∧ f.instr = .init
  /-- TearingDown means the host's TEARDOWN is in flight (R27). -/
  tearingDown : s.life = .tearingDown → ∃ f, s.seqs.host.op = some f ∧ f.instr = .teardown
  /-- The lock's holder has a lock-taking operation in flight, past its `LockAcquire` (R28, R56). -/
  holder : ∀ a, s.lock = .held a → ∃ f, (s.seq a).op = some f ∧ takesLock f.instr = true ∧ 1 ≤ f.idx
  /-- Every operation in flight is as its agent's micro-steps left it (R36). -/
  flight : ∀ a f, (s.seq a).op = some f → FlightOk s a f
  /-- The stopped agents are those with a record in the fault set (R37, R121). -/
  stopped : ∀ a, (s.seq a).stopped = true ↔ ∃ r ∈ s.faults, r.agent = a
  /-- A stopped agent has no operation in flight (R121). -/
  halted : ∀ a, (s.seq a).stopped = true → (s.seq a).op = none

end Sys2Proof.Machine
end

