-- ==== Sys2Proof/Certificates/Slice0/Obligations.lean ====
section
/-! DEFINITION. The statements for the provers. Each docstring names the rules of spec/ it formalises. -/

open Sys2Proof Sys2Proof.Machine

/-! ### Encoding (30_encoding.md) -/

/-- R63, R65, R66: no bit of an encoding is dropped, at every value of every operand. -/
def Obligations.DecodeEncodeRoundTrip : Prop :=
  ∀ i : Instr, i.wellFormed = true → decode (encode i) = .ok i

/-- R63, R66: a word that decodes is the encoding of its operation, and the operation is well-formed. -/
def Obligations.EncodeDecodeRoundTrip : Prop :=
  ∀ (w : OpWord) (i : Instr), decode w = .ok i → encode i = w ∧ i.wellFormed = true

/-- R66, case by case, on the number the word stands for: OP = w[31:28], A = w[27:24], B = w[23:16], V = w[15:0]. -/
def Obligations.DecoderFollowsItsCases : Prop :=
  ∀ w : OpWord,
    (decode w = .ok .init ↔ w = 0x10000000#32) ∧
    (decode w = .ok .teardown ↔ w = 0x20000000#32) ∧
    (∀ v : U16, decode w = .ok (.write v) ↔ w.toNat = 0x30000000 + v.toNat) ∧
    (∀ (p : BitVec 4) (nb : BitVec 2), decode w = .ok (.setport p nb) ↔
      w.toNat = 0x40000000 + p.toNat * 2 ^ 24 + nb.toNat * 2 ^ 16 ∧ nb ≠ 0b11#2) ∧
    (∀ v : U16, decode w = .ok (.setraw v) ↔ w.toNat = 0x50000000 + v.toNat) ∧
    (∀ b : Bool, decode w = .ok (.setoe b) ↔ w.toNat = 0x60000000 + b.toNat * 2 ^ 16) ∧
    (decode w = .ok .readraw ↔ w = 0x70000000#32) ∧
    (∀ p : BitVec 4, decode w = .ok (.readport p) ↔ w.toNat = 0x80000000 + p.toNat * 2 ^ 24) ∧
    (decode w = .ok .readoe ↔ w = 0x90000000#32) ∧
    (decode w = .ok .readid ↔ w = 0xA0000000#32) ∧
    (∀ (p : BitVec 4) (n : U16), decode w = .ok (.cssetport p n) ↔
      w.toNat = 0xB0000000 + p.toNat * 2 ^ 24 + n.toNat) ∧
    ((∃ e, decode w = .error e) ↔ ∀ i, decode w ≠ .ok i)

/-- Words of 95_test_vectors.md Part 2 decode as its table says. -/
def Obligations.VectorWordsDecode : Prop :=
  decode 0x10000000 = .ok .init ∧ decode 0x20000000 = .ok .teardown ∧ decode 0x30008001 = .ok (.write 0x8001) ∧
  decode 0x43020000 = .ok (.setport 3 0b10) ∧ decode 0x50001234 = .ok (.setraw 0x1234) ∧
  decode 0x60010000 = .ok (.setoe true) ∧ decode 0x85000000 = .ok (.readport 5) ∧
  decode 0xB500001E = .ok (.cssetport 5 30) ∧ decode 0x43030000 = .error .voltageCode ∧
  decode 0x00000000 = .error .opZero ∧ decode 0xC0000000 = .error .opReserved ∧ decode 0x61010000 = .error .nonzeroField

/-! ### The step (20_memory.md R52, R58; 10_state.md R36) -/

/-- When the next move is the turn of an idle agent whose next request is a word that decodes to i, the step is exec of i in the
state in which the move and the request are taken off and the turn is set. -/
def Obligations.StepRunsDecodedInstruction : Prop :=
  ∀ (s : State) (t : Turn) (ms : List Move) (w : OpWord) (rs : List Request) (i : Instr),
    s.schedule = .turn t :: ms → (s.seq t.agent).ready = true → (s.seq t.agent).program = .word w :: rs → decode w = .ok i →
    step s = exec i (({ s with schedule := ms, turn := t } : State).setSeq t.agent { s.seq t.agent with program := rs })

/-- A word placed by withFetchWord is issued by the very next step, in every state. -/
def Obligations.FetchedWordRunsNext : Prop :=
  ∀ (s : State) (w : Nat) (i : Instr), decodeTableWord 32 w = some i →
    step (s.withFetchWord 32 w) =
      exec i (({ s with turn := hostTurn } : State).setSeq .host { s.seqs.host with op := none, stopped := false })

/-- R67, R121, R122, R125: a word that spells no operation, issued by any idle agent in any state, adds the record (F_ILLEGAL_OP,
agent, word) and stops the agent. Nothing else changes but the move and the request taken off. -/
def Obligations.IllegalWordIsRecorded : Prop :=
  ∀ (s : State) (t : Turn) (ms : List Move) (w : OpWord) (rs : List Request) (e : Illegal),
    s.schedule = .turn t :: ms → (s.seq t.agent).ready = true → (s.seq t.agent).program = .word w :: rs → decode w = .error e →
    step s = .next { s with
      schedule := ms
      turn := t
      faults := s.faults ++ [⟨.illegalOp, t.agent, w⟩]
      seqs := s.seqs.set t.agent ⟨none, true, rs, (s.seq t.agent).result⟩ }

/-- R36, R52, R121: the turn of an agent with an operation in flight takes up to `budget` of its micro-steps; the turn of a stopped
agent, and of one with nothing to ask, changes nothing but the turn itself. -/
def Obligations.TurnResumesOperation : Prop :=
  ∀ (s : State) (t : Turn) (ms : List Move), s.schedule = .turn t :: ms →
    (∀ f, (s.seq t.agent).op = some f → (s.seq t.agent).stopped = false →
      step s = runTurn t.budget { s with schedule := ms, turn := t }) ∧
    ((s.seq t.agent).stopped = true → step s = .next { s with schedule := ms, turn := t }) ∧
    ((s.seq t.agent).op = none → (s.seq t.agent).program = [] → step s = .next { s with schedule := ms, turn := t })

/-- R14, R52: a turn of m + n micro-steps is one of m and then one of n, so a turn may end, and another agent step, between any two
micro-steps. -/
def Obligations.TurnSplitsAnywhere : Prop :=
  ∀ (m n : Nat) (s t : State), runTurn m s = .next t → runTurn (m + n) s = runTurn n t

/-- R129, R77: Tick adds to `now` and does nothing else; the floating-line steps set `chain` or `latch` to any value while CLK or
STORE is not owned, and do nothing while it is. -/
def Obligations.EnvironmentMoves : Prop :=
  ∀ (s : State) (ms : List Move) (k : Nat) (v : U16),
    (s.schedule = .tick k :: ms → step s = .next { s with schedule := ms, now := s.now + k }) ∧
    (s.schedule = .floatChain v :: ms → s.owned.clk = false → step s = .next { s with schedule := ms, chain := v }) ∧
    (s.schedule = .floatChain v :: ms → s.owned.clk = true → step s = .next { s with schedule := ms }) ∧
    (s.schedule = .floatLatch v :: ms → s.owned.store = false → step s = .next { s with schedule := ms, latch := v }) ∧
    (s.schedule = .floatLatch v :: ms → s.owned.store = true → step s = .next { s with schedule := ms })

/-! ### Power-up (70_reset_and_hazards.md) -/

/-- R137, for every draw of `chain` and of `latch`. -/
def Obligations.PowerUpState : Prop :=
  ∀ c l : U16,
    (State.powerUp c l).mirror = none ∧ (State.powerUp c l).oeState = false ∧
    (∀ k, (State.powerUp c l).owned.get k = false ∧ (State.powerUp c l).level.get k = .unknown) ∧
    (State.powerUp c l).life = .down ∧ (State.powerUp c l).lock = .free ∧ (State.powerUp c l).now = 0 ∧
    (State.powerUp c l).chain = c ∧ (State.powerUp c l).latch = l ∧ (State.powerUp c l).faults = [] ∧
    (∀ a, ((State.powerUp c l).seq a).op = none)

/-! ### Admission, errors and faults (60_exceptions.md) -/

/-- R123: INIT is admitted only in Down, TEARDOWN only while no caller operation is in flight and no other agent holds the lock (it
returns OK at once in Down), and every other operation only in Ready. A fault leaves the block as it is (R125). -/
def Obligations.LifecycleAdmission : Prop :=
  ∀ s : State, MayIssue s →
    (s.agent = .host → s.life = .ready → exec .init s = .next (raiseFault .alreadyReady (encode .init) s)) ∧
    (s.agent = .host → s.life = .initializing ∨ s.life = .tearingDown →
      exec .init s = .next (raiseFault .hostProtocol (encode .init) s)) ∧
    (s.agent = .host → (∃ n f, (s.seq (.caller n)).op = some f) ∨ (∃ a, s.lock = .held a ∧ a ≠ s.agent) →
      exec .teardown s = .next (raiseFault .hostProtocol (encode .teardown) s)) ∧
    (s.agent = .host → (∀ n, (s.seq (.caller n)).op = none) → (∀ a, s.lock = .held a → a = s.agent) → s.life = .down →
      exec .teardown s = .next (returnResult (.ok .nothing) s)) ∧
    (∀ i : Instr, i.wellFormed = true → i ≠ .init → i ≠ .teardown → (hostOnly i = true → s.agent = .host) → s.life ≠ .ready →
      exec i s = .next (raiseFault .notReady (encode i) s))

/-- R122, R124, R128: a caller that issues INIT, TEARDOWN or WRITE raises F_ROLE, in every lifecycle state. -/
def Obligations.HostOperationsNeedHostRole : Prop :=
  ∀ (s : State) (i : Instr), MayIssue s → s.agent ≠ .host → (i = .init ∨ i = .teardown ∨ ∃ v, i = .write v) →
    exec i s = .next (raiseFault .role (encode i) s)

/-- R135, D31, log entry 6 (the model's reading): while INIT or TEARDOWN is in flight, a caller operation raises F_NOT_READY. -/
def Obligations.NoCallerOperationInTransition : Prop :=
  ∀ (s : State) (i : Instr) (f : InFlight), MayIssue s → s.agent ≠ .host → hostOnly i = false → i.wellFormed = true →
    s.seqs.host.op = some f → (f.instr = .init ∨ f.instr = .teardown) →
    exec i s = .next (raiseFault .notReady (encode i) s)

/-- R121, R125: what raising a fault does: one record, the agent stopped, and nothing else but that its operation ends. That the
agent's `op` becomes none is the model's reading (DEDUCED, log entry 5); its program and its last result stay. -/
def Obligations.FaultIsPrecise : Prop :=
  ∀ (c : FaultCode) (w : OpWord) (s : State),
    (raiseFault c w s).faults = s.faults ++ [⟨c, s.agent, w⟩] ∧
    ((raiseFault c w s).seq s.agent).stopped = true ∧ ((raiseFault c w s).seq s.agent).op = none ∧
    ((raiseFault c w s).seq s.agent).program = (s.seq s.agent).program ∧
    ((raiseFault c w s).seq s.agent).result = (s.seq s.agent).result ∧
    (∀ a, a ≠ s.agent → (raiseFault c w s).seq a = s.seq a) ∧
    raiseFault c w s = { s with faults := (raiseFault c w s).faults, seqs := (raiseFault c w s).seqs }

/-- R100, R110, R113, R118: a port index above 7 is E_INVALID_ARGUMENT before the lock is asked for, whoever holds it; only the
issuing agent's sequencer changes. -/
def Obligations.BadPortIndexChangesNothing : Prop :=
  ∀ (s : State) (p : BitVec 4) (nb : BitVec 2) (n : U16), MayIssue s → Open s → 7 < p.toNat → nb ≠ 0b11#2 →
    exec (.setport p nb) s = .next (returnResult .invalidArgument s) ∧
    exec (.cssetport p n) s = .next (returnResult .invalidArgument s) ∧
    exec (.readport p) s = .next (returnResult .invalidArgument s)

/-! ### The operations complete (R85, R86, R90, R100, R104, R106, R108, R110, R113, R114, R116)

Each equation gives the result and the frame at once: whatever `wroteState` and `returnResult` do not name stays. The budgets that
make a turn long enough (58 in `Unhindered`, 63, 8) count the model's micro-steps, local ones and passed-over releases among them
(DESIGN CHOICE, log entries 9 and 21). -/

/-- R85, R81: WRITE by the host, from any `chain`, `latch`, line levels and draw of the mirror-update position. -/
def Obligations.WriteCompletes : Prop :=
  ∀ (s : State) (v : U16), Unhindered s → s.agent = .host →
    exec (.write v) s = .next (returnResult (.ok .nothing) (wroteState v s))

/-- R106, R81: SETRAW by any agent; no settling delay, whatever the pairs become. -/
def Obligations.SetrawCompletes : Prop :=
  ∀ (s : State) (v : U16), Unhindered s → exec (.setraw v) s = .next (returnResult (.ok .nothing) (wroteState v s))

/-- R100, R97, R98: SETPORT by any agent. Where the delay is charged, the time the turn lets pass, at least 300 ms, passes in it
(DESIGN CHOICE, log entries 1 and 15); where it is not, no time passes. The value written is the mirror with field p replaced. -/
def Obligations.SetportCompletes : Prop :=
  ∀ (s : State) (m : U16) (p : BitVec 4) (nb : BitVec 2), Unhindered s → s.mirror = some m → (h : p.toNat < 8) → nb ≠ 0b11#2 →
    (nb ≠ 0b00#2 → field m ⟨p.toNat, h⟩ ≠ nb → 300 ≤ s.turn.elapse →
      exec (.setport p nb) s = .next (returnResult (.ok .nothing)
        (wroteState ((m &&& ~~~(0b11#16 <<< (2 * p.toNat))) ||| (nb.setWidth 16 <<< (2 * p.toNat)))
          { s with now := s.now + s.turn.elapse }))) ∧
    (nb = 0b00#2 ∨ field m ⟨p.toNat, h⟩ = nb →
      exec (.setport p nb) s = .next (returnResult (.ok .nothing)
        (wroteState ((m &&& ~~~(0b11#16 <<< (2 * p.toNat))) ||| (nb.setWidth 16 <<< (2 * p.toNat))) s)))

/-- R113, R112: CSSETPORT is SETPORT of the normalized voltage: 24 and 48 are active, every other integer is Off. Where the delay is
charged, the time the turn lets pass, at least 300 ms, passes in it (DESIGN CHOICE, log entries 1 and 15); where it is not, no time
passes, whatever the turn lets pass. -/
def Obligations.CssetportCompletes : Prop :=
  ∀ (s : State) (m : U16) (p : BitVec 4) (n : U16), Unhindered s → s.mirror = some m → (h : p.toNat < 8) →
    ∃ nb : BitVec 2, (n = 24 → nb = 0b10) ∧ (n = 48 → nb = 0b01) ∧ (n ≠ 24 → n ≠ 48 → nb = 0b00) ∧
      (nb ≠ 0b00#2 → field m ⟨p.toNat, h⟩ ≠ nb → 300 ≤ s.turn.elapse →
        exec (.cssetport p n) s = .next (returnResult (.ok .nothing)
          (wroteState ((m &&& ~~~(0b11#16 <<< (2 * p.toNat))) ||| (nb.setWidth 16 <<< (2 * p.toNat)))
            { s with now := s.now + s.turn.elapse }))) ∧
      (nb = 0b00#2 ∨ field m ⟨p.toNat, h⟩ = nb →
        exec (.cssetport p n) s = .next (returnResult (.ok .nothing)
          (wroteState ((m &&& ~~~(0b11#16 <<< (2 * p.toNat))) ||| (nb.setWidth 16 <<< (2 * p.toNat))) s)))

/-- R86, R138: INIT by the host with every acquisition granted, from Down, whatever `mirror`, `chain`, `latch`, `oeState`, the lines
and the draw of the mirror-update position were: CLK, DATA, STORE and OE are acquired in that order, 0x0000 is written, and OE is
raised last. -/
def Obligations.InitCompletes : Prop :=
  ∀ s : State, MayIssue s → s.agent = .host → s.life = .down → s.lock = .free → s.turn.grant = PerLine.all true →
    63 ≤ s.turn.budget →
    exec .init s = .next (returnResult (.ok .nothing) { s with
      mirror := some 0
      oeState := true
      owned := PerLine.all true
      level := ⟨.driven false, .driven false, .driven false, .driven true⟩
      life := .ready
      chain := 0
      latch := 0
      trace := ⟨s.now, .host, .set .oe true⟩ :: (writeTrace 0 s ++ [⟨s.now, .host, .acquire .oe true⟩,
        ⟨s.now, .host, .acquire .store true⟩, ⟨s.now, .host, .acquire .data true⟩, ⟨s.now, .host, .acquire .clk true⟩] ++
        s.trace) })

/-- R89, R86, R119: INIT with some acquisition refused ends in E_RESOURCE_UNAVAILABLE with no line held, and `mirror`, `chain` and
`latch` as they were. -/
def Obligations.FailedInitHoldsNothing : Prop :=
  ∀ s : State, MayIssue s → s.agent = .host → s.life = .down → s.owned = PerLine.all false → s.level = PerLine.all .unknown →
    s.lock = .free → (∃ l, s.turn.grant.get l = false) → 63 ≤ s.turn.budget →
    ∃ t, exec .init s = .next t ∧ (∀ l, t.owned.get l = false ∧ t.level.get l = .unknown) ∧ t.life = .down ∧ t.lock = .free ∧
      t.mirror = s.mirror ∧ t.chain = s.chain ∧ t.latch = s.latch ∧ t.oeState = s.oeState ∧ t.now = s.now ∧
      t.faults = s.faults ∧
      t.seqs = s.seqs.set .host { s.seqs.host with op := none, result := some .resourceUnavailable }

/-- R90, R138: TEARDOWN from Ready releases the four lines, CLK first and OE last; `mirror`, `oeState`, `chain` and `latch` are not
written. -/
def Obligations.TeardownCompletes : Prop :=
  ∀ s : State, MayIssue s → s.agent = .host → s.life = .ready → s.lock = .free → AllOwned s →
    (∀ n, (s.seq (.caller n)).op = none) → 8 ≤ s.turn.budget →
    exec .teardown s = .next (returnResult (.ok .nothing) { s with
      owned := PerLine.all false
      level := PerLine.all .unknown
      life := .down
      trace := [⟨s.now, .host, .release .oe⟩, ⟨s.now, .host, .release .store⟩, ⟨s.now, .host, .release .data⟩,
        ⟨s.now, .host, .release .clk⟩] ++ s.trace })

/-- R104: SETOE needs no lock: it completes whoever holds it, and writes `level[OE]` and `oeState` only. -/
def Obligations.SetoeCompletes : Prop :=
  ∀ (s : State) (on : Bool), MayIssue s → Open s → s.owned.oe = true → 1 ≤ s.turn.budget →
    exec (.setoe on) s = .next (returnResult (.ok .nothing) { s with
      level := { s.level with oe := .driven on }
      oeState := on
      trace := ⟨s.now, s.agent, .set .oe on⟩ :: s.trace })

/-- R108, R110, R114, R116, R49: each read needs no lock, returns what the rule says, and changes nothing but its agent's
sequencer. -/
def Obligations.ReadsComplete : Prop :=
  ∀ (s : State) (m : U16), MayIssue s → Open s → s.mirror = some m → 1 ≤ s.turn.budget →
    exec .readraw s = .next (returnResult (.ok (.raw m)) s) ∧
    (∀ (p : BitVec 4) (h : p.toNat < 8) (c : VoltageClass), field m ⟨p.toNat, h⟩ = enc c →
      exec (.readport p) s = .next (returnResult (.ok (.port c)) s)) ∧
    exec .readoe s = .next (returnResult (.ok (.oe s.oeState)) s) ∧
    exec .readid s = .next (returnResult (.ok (.id Config.idString)) s)

/-- R110, R121, R125: READPORT of a field 0b11 raises F_UNDEFINED_PORT_STATE with the operation's word, and nothing but what raising a
fault does (`Obligations.FaultIsPrecise`; its end of the operation is log entry 5) happens. -/
def Obligations.ReadportOfBothFaults : Prop :=
  ∀ (s : State) (m : U16) (p : BitVec 4), MayIssue s → Open s → s.mirror = some m → (h : p.toNat < 8) → 1 ≤ s.turn.budget →
    field m ⟨p.toNat, h⟩ = 0b11#2 →
    exec (.readport p) s = .next (raiseFault .undefinedPortState (encode (.readport p)) s)

/-- R139, R138: after INIT returns OK every port's state is Off, and all 16 outputs are driven at 0. -/
def Obligations.InitLeavesEveryPortOff : Prop :=
  ∀ s : State, MayIssue s → s.agent = .host → s.life = .down → s.lock = .free → s.turn.grant = PerLine.all true →
    63 ≤ s.turn.budget →
    ∃ t m, exec .init s = .next t ∧ (t.seq s.agent).result = some (.ok .nothing) ∧ t.mirror = some m ∧
      (∀ p, dec (field m p) = .off) ∧ (∀ k d, t.out k d = .driving false)

/-! ### The port controller (41_port_controller.md) -/

/-- R93, R95, R96: the encoder's and the decoder's tables. -/
def Obligations.VoltageCodes : Prop :=
  enc .off = 0b00 ∧ enc .v24 = 0b10 ∧ enc .v48 = 0b01 ∧
  dec 0b00 = .off ∧ dec 0b01 = .v48 ∧ dec 0b10 = .v24 ∧ dec 0b11 = .undefined ∧
  (∀ c, voltageOf (dec (enc c)) = some c)

/-- R94, R21: field p is the bit pair [2p+1:2p], and mask(p) is the value with exactly those two bits set. -/
def Obligations.PortFieldIsBitPair : Prop :=
  ∀ (x : U16) (p : Port),
    (field x p).getLsbD 0 = x.getLsbD (2 * p.val) ∧ (field x p).getLsbD 1 = x.getLsbD (2 * p.val + 1) ∧
    (∀ i, (portMask p).getLsbD i = true ↔ i = 2 * p.val ∨ i = 2 * p.val + 1)

/-- R97: the delay condition, for every current field and every class, and its table. -/
def Obligations.DelayConditionTable : Prop :=
  (∀ (cur : BitVec 2) (c : VoltageClass), needDelay cur (enc c) = true ↔ enc c ≠ 0b00#2 ∧ cur ≠ enc c) ∧
  (∀ cur, needDelay cur 0b00 = false) ∧
  needDelay 0b00 0b10 = true ∧ needDelay 0b10 0b10 = false ∧ needDelay 0b01 0b10 = true ∧ needDelay 0b11 0b10 = true ∧
  needDelay 0b00 0b01 = true ∧ needDelay 0b10 0b01 = true ∧ needDelay 0b01 0b01 = false ∧ needDelay 0b11 0b01 = true

/-- R101, R102: a SETPORT that completes writes nb into field p and leaves every other field, so it makes no field 0b11. -/
def Obligations.SetportChangesOnlyItsField : Prop :=
  ∀ (s : State) (m : U16) (p : BitVec 4) (nb : BitVec 2), Unhindered s → s.mirror = some m → (h : p.toNat < 8) → nb ≠ 0b11#2 →
    (nb ≠ 0b00#2 → field m ⟨p.toNat, h⟩ ≠ nb → 300 ≤ s.turn.elapse) →
    ∃ t m', exec (.setport p nb) s = .next t ∧ (t.seq s.agent).result = some (.ok .nothing) ∧ t.mirror = some m' ∧
      field m' ⟨p.toNat, h⟩ = nb ∧
      (∀ q : Port, q ≠ ⟨p.toNat, h⟩ → field m' q = field m q) ∧ (∀ q, field m' q = 0b11#2 → field m q = 0b11#2)

/-- R101, R110, R33: after SETPORT the port reads as the class set, and with OE on its two outputs drive exactly the enables of that
class. -/
def Obligations.SetportThenReadport : Prop :=
  ∀ (s : State) (m : U16) (p : BitVec 4) (c : VoltageClass), Unhindered s → s.mirror = some m → (h : p.toNat < 8) →
    (enc c ≠ 0b00#2 → field m ⟨p.toNat, h⟩ ≠ enc c → 300 ≤ s.turn.elapse) →
    ∃ t, exec (.setport p (enc c)) s = .next t ∧ exec (.readport p) t = .next (returnResult (.ok (.port c)) t) ∧
      (t.level.oe = .driven true → ∀ d, t.out (output48 ⟨p.toNat, h⟩) d = .driving (decide (c = .v48)) ∧
        t.out (output24 ⟨p.toNat, h⟩) d = .driving (decide (c = .v24)))

/-- R98, R100: where the delay is charged and no time passes, SETPORT stands at the end of its wait, holding the lock since `t0`; the
register and the lines are untouched, and a longer turn changes nothing. The index 2 of the wait takes the reading of the field as a
micro-step of its own (DESIGN CHOICE, log entry 9), and a turn that lets no time pass is log entries 1 and 15. -/
def Obligations.DelayHoldsTheLock : Prop :=
  ∀ (s : State) (m : U16) (p : BitVec 4) (nb : BitVec 2), Unhindered s → s.mirror = some m → (h : p.toNat < 8) → nb ≠ 0b11#2 →
    nb ≠ 0b00#2 → field m ⟨p.toNat, h⟩ ≠ nb → s.turn.elapse = 0 →
    ∃ t f, exec (.setport p nb) s = .next t ∧ (t.seq s.agent).op = some f ∧ f.idx = 2 ∧ f.t0 = s.now ∧ t.lock = .held s.agent ∧
      t.mirror = s.mirror ∧ t.chain = s.chain ∧ t.latch = s.latch ∧ t.level = s.level ∧ t.trace = s.trace ∧ t.now = s.now ∧
      ∀ n, runTurn n t = .next t

/-- R98, D12: a settling delay may end from 300 ms after t0 on, at any time, and not before; until then the agent stays where it is
with whatever it holds. R98 gives the bound alone. That the time the turn lets pass is added to `now` inside the wait micro-step is the
environment's Tick taken within a turn, the model's choice (DESIGN CHOICE, log entries 1 and 15). -/
def Obligations.WaitEndsAfter300 : Prop :=
  ∀ (s : State) (f : InFlight),
    (f.t0 + 300 ≤ s.now + s.turn.elapse →
      runMicro f .waitSettled s = .next (({ s with now := s.now + s.turn.elapse } : State).setOp (some { f with idx := f.idx + 1 }))) ∧
    (s.now + s.turn.elapse < f.t0 + 300 →
      runMicro f .waitSettled s = .next { s with now := s.now + s.turn.elapse })

/-- R103: a SETPORT that charges the delay from t0 on has its STORE rising edge at t0 + 300 or later. However long its turn, and
however much time the turn lets pass, every line event of it that has happened comes at least 300 ms after `now` at its issue; and if it
is still in flight, its t0 is that `now`, and 300 ms have passed once it is past its wait. A turn of 58 micro-steps that lets 300 ms pass
holds the edge. An operation that goes on from its wait in a later turn has no line event before its t0 + 300 either. The count of 58
and the indexes 2 and 3 take the local micro-steps as ones of their own (DESIGN CHOICE, log entry 9), and that time passes within a
turn is the model's choice too (DESIGN CHOICE, log entries 1 and 15). -/
def Obligations.EnergizingEdgeComesLater : Prop :=
  (∀ (s : State) (m : U16) (p : BitVec 4) (nb : BitVec 2), MayIssue s → Open s → s.lock = .free → AllOwned s → s.mirror = some m →
    (h : p.toNat < 8) → nb ≠ 0b11#2 → nb ≠ 0b00#2 → field m ⟨p.toNat, h⟩ ≠ nb →
    ∃ t new, exec (.setport p nb) s = .next t ∧ t.trace = new ++ s.trace ∧ (∀ e ∈ new, s.now + 300 ≤ e.time) ∧
      (∀ f, (t.seq s.agent).op = some f → (2 ≤ f.idx → f.t0 = s.now) ∧ (3 ≤ f.idx → s.now + 300 ≤ t.now)) ∧
      (58 ≤ s.turn.budget → 300 ≤ s.turn.elapse → ∃ e ∈ new, e.event = .set .store true)) ∧
  (∀ (s t : State) (f : InFlight) (n : Nat), (s.seq s.agent).op = some f → (sequenceOf f.instr)[f.idx]? = some .waitSettled →
    runTurn n s = .next t → ∃ new, t.trace = new ++ s.trace ∧ ∀ e ∈ new, f.t0 + 300 ≤ e.time)

/-! ### The lines and the WRITE sequence (40_shift_register_driver.md) -/

/-- R74, R75, R76, R77: what LineSet does on each line, block state by block state, with the turn's free draw as the bit taken in
while DATA is unknown. R74 says that the block issues LineSet only for lines it owns; that the model stops with `lineNotOwned` on a
line not owned is its own choice (DEDUCED, log entry 17). -/
def Obligations.LineSetFollowsEdges : Prop :=
  ∀ (s : State) (l : Line) (b : Bool),
    (s.owned.get l = false → lineSet l b s = .fault (.lineNotOwned l)) ∧
    (s.owned.get l = true → ∃ t, lineSet l b s = .next t ∧
      t.level = s.level.set l (.driven b) ∧
      (l = .clk → s.level.clk = .driven false → b = true →
        (∀ x, s.level.data = .driven x → t.chain.getLsbD 0 = x) ∧
        (s.level.data = .unknown → t.chain.getLsbD 0 = s.turn.sample) ∧
        ∀ i, i < 15 → t.chain.getLsbD (i + 1) = s.chain.getLsbD i) ∧
      (¬ (l = .clk ∧ s.level.clk = .driven false ∧ b = true) → t.chain = s.chain) ∧
      (l = .store → s.level.store = .driven false → b = true → t.latch = s.chain) ∧
      (¬ (l = .store ∧ s.level.store = .driven false ∧ b = true) → t.latch = s.latch) ∧
      t = { s with level := t.level, chain := t.chain, latch := t.latch, trace := t.trace })

/-- R78: after 16 rising CLK edges the first bit sampled is chain[15] and the last is chain[0], whatever `chain` held. -/
def Obligations.SixteenEdgesPlaceBits : Prop :=
  ∀ (s : State) (ds : List Bool), AllOwned s → ds.length = 16 →
    ∃ t, clockIn ds s = .next t ∧ ∀ i, i < 16 → t.chain.getLsbD (15 - i) = ds.getD i false

/-- R79, R43: the line events of a WRITE in their order: CLK and STORE low, then bits 15 down to 0 with one CLK pulse each, then one
STORE pulse. -/
def Obligations.WriteTraceOrder : Prop :=
  ∀ (s : State) (v : U16), Unhindered s → s.agent = .host →
    ∃ t, exec (.write v) s = .next t ∧
      t.trace.reverse.map (·.event) = s.trace.reverse.map (·.event) ++ ([.set .clk false, .set .store false] ++
        ((List.range 16).flatMap fun j => [.set .data (v.getLsbD (15 - j)), .set .clk true, .set .clk false]) ++
        [.set .store true, .set .store false])

/-- R47, R48, R54, R61, R80: wherever a WRITE's turn ends, the latch holds the whole old value or the whole new one, and so does the
mirror that a read then finds. The count of micro-steps takes the load of the value as one of its own, which is the model's choice
(DESIGN CHOICE, log entry 9). The mirror update falls at the drawn position, and every one of the 53 positions is admitted: with
the draw w, the mirror is unchanged after the lock, the load and w further micro-steps, and holds v after one more. -/
def Obligations.WritePrefixOldOrNew : Prop :=
  ∀ (s : State) (v : U16) (w : Fin 53) (n : Nat), MayIssue s → Open s → s.lock = .free → AllOwned s → s.agent = .host →
    ∃ t, exec (.write v) { s with turn := { s.turn with wpos := w, budget := n } } = .next t ∧
      (t.latch = s.latch ∨ t.latch = v) ∧ t.mirror = if n ≤ 2 + w.val then s.mirror else some v

/-- R50: two WRITEs of one value end alike, and the second produces the same 52 line events again. -/
def Obligations.WriteIsIdempotent : Prop :=
  ∀ (s : State) (v : U16), Unhindered s → s.agent = .host →
    ∃ t u, exec (.write v) s = .next t ∧ exec (.write v) t = .next u ∧
      t.mirror = some v ∧ t.chain = v ∧ t.latch = v ∧ t.level.data = .driven (v.getLsbD 0) ∧ t.level.clk = .driven false ∧
      t.level.store = .driven false ∧ u.mirror = t.mirror ∧ u.chain = t.chain ∧ u.latch = t.latch ∧ u.level = t.level ∧
      ∃ es : List TraceEntry, es.length = 52 ∧ t.trace = es ++ s.trace ∧ u.trace = es ++ t.trace

/-- R83, R105: a SETOE of another agent between any two micro-steps of a WRITE leaves its outcome: `mirror`, `chain` and `latch` are
those of the WRITE alone, and `oeState` and `level[OE]` those of the SETOE. The counts 55 and 56 take the load as a micro-step of its own (DESIGN CHOICE, log
entry 9) and the return as one with its LockRelease (DESIGN CHOICE, log entry 23). -/
def Obligations.SetoeDuringWriteIsHarmless : Prop :=
  ∀ (s : State) (v : U16) (on : Bool) (n : Nat) (c : Fin Config.nCallers) (th tc : Turn) (ms : List Move) (rs qs : List Request),
    Open s → s.lock = .free → AllOwned s → s.seqs.host.ready = true → (s.seq (.caller c)).ready = true →
    s.seqs.host.program = .word (encode (.write v)) :: rs → (s.seq (.caller c)).program = .word (encode (.setoe on)) :: qs →
    th.agent = .host → tc.agent = .caller c → 1 ≤ tc.budget → n ≤ 55 →
    s.schedule = [.turn { th with budget := n }, .turn tc, .turn { th with budget := 56 }] ++ ms →
    ∃ t, Sys2Proof.core.run 3 s = .next t ∧ t.mirror = some v ∧ t.chain = v ∧ t.latch = v ∧ t.oeState = on ∧
      t.level.oe = .driven on ∧ t.lock = .free ∧ t.seqs.host.result = some (.ok .nothing)

/-- R32, R91: the outputs follow the latch while OE is 1, are not driven while it is 0, and are a free draw while it is unknown. -/
def Obligations.OutputsFollowLatchAndOe : Prop :=
  ∀ (s : State) (k : Fin 16),
    (s.level.oe = .driven true → ∀ d, s.out k d = .driving (s.latch.getLsbD k.val)) ∧
    (s.level.oe = .driven false → ∀ d, s.out k d = .notDriven) ∧
    (s.level.oe = .unknown → ∀ o, (∃ d, s.out k d = o) ↔ o = .driving (s.latch.getLsbD k.val) ∨ o = .notDriven)

/-- R20: a micro-step that changes the mirror is the mirror update of a WRITE sequence. -/
def Obligations.MirrorWrittenOnlyByWriteSeq : Prop :=
  ∀ (f : InFlight) (m : Micro) (s t : State), runMicro f m s = .next t → t.mirror ≠ s.mirror →
    m = .shiftOut f.wpos.val ∧ t.mirror = some f.v

/-- R30, R31: a micro-step that changes the chain raises CLK, and one that changes the latch raises STORE and loads the chain. -/
def Obligations.RegisterChangesOnlyAtEdges : Prop :=
  ∀ (f : InFlight) (m : Micro) (s t : State), runMicro f m s = .next t →
    (t.chain ≠ s.chain → s.level.clk = .driven false ∧ t.level.clk = .driven true) ∧
    (t.latch ≠ s.latch → s.level.store = .driven false ∧ t.level.store = .driven true ∧ t.latch = s.chain)

/-! ### Mutual exclusion (20_memory.md) -/

/-- R52, R56: while another agent holds the lock, a lock-taking operation stands at its `LockAcquire`, however long its turn. -/
def Obligations.LockExcludesOthers : Prop :=
  ∀ (s : State) (a : Agent) (f : InFlight) (n : Nat), s.lock = .held a → (s.seq s.agent).op = some f →
    takesLock f.instr = true → f.idx = 0 → runTurn n s = .next s

/-- R57, R98: every hold of the lock ends. The count of 69 is the model's, of the longest sequence with its local micro-steps (INIT's;
DESIGN CHOICE, log entries 9 and 21), and so is that one turn lets the time pass (log entries 1 and 15). From every state the invariant allows, an operation in flight that finds the lock free, or holds it, ends within one
turn of 69 micro-steps in which 300 ms pass at its settling delay. -/
def Obligations.EveryHoldEnds : Prop :=
  ∀ (s : State) (f : InFlight), Inv s → (s.seq s.agent).op = some f → s.lock = .free ∨ s.lock = .held s.agent →
    300 ≤ s.turn.elapse → 69 ≤ s.turn.budget →
    ∃ t, runTurn s.turn.budget s = .next t ∧ (t.seq s.agent).op = none ∧ t.lock = .free

/-! ### The control surface (44_control_surface.md) -/

/-- R112: the normalization, on integers and on texts; whatever the parser calls malformed is Off, never an error. -/
def Obligations.VoltageTextIsForgiving : Prop :=
  normVolt 24 = .v24 ∧ normVolt 48 = .v48 ∧ (∀ n, n ≠ 24 → n ≠ 48 → normVolt n = .off) ∧
  voltOperand ['0'] = 0 ∧ voltOperand ['2', '4'] = 24 ∧ voltOperand ['4', '8'] = 48 ∧
  (∀ t, normVolt (voltOperand t).toNat =
    match Config.voltParse t with
    | none => .off
    | some n => normVolt n)

/-- R109, R115: the laws of the text forms: what is read back as text parses to the same value. -/
def Obligations.TextFormsRoundTrip : Prop :=
  (∀ v : U16, Config.rawParse (Config.rawFormat v) = some v.toNat) ∧ (∀ b, Config.oeParse (Config.oeFormat b) = some b)

/-- R109, R112, R115, R118: malformed RAW or OE text, and RAW text above 0xFFFF under the reject policy, is E_INVALID_ARGUMENT with no
state touched but the issuing agent's sequencer; any other RAW text writes its low 16 bits to the register, and any other OE text
drives OE. Every text written to a port sets it, to 24V and 48V for the integers 24 and 48 and to Off for all else; where the delay is
charged, the time the turn lets pass, at least 300 ms, passes in it (DESIGN CHOICE, log entries 1 and 15), and else none. In no state
does it return E_INVALID_ARGUMENT. -/
def Obligations.TextWritesComplete : Prop :=
  ∀ (s : State) (t : Text),
    (Unhindered s →
      (match Config.rawParse t with
        | none => serve (.writeRaw t) s = .next (returnResult .invalidArgument s)
        | some n =>
          if 0xFFFF < n ∧ Config.rawWideReject = true then serve (.writeRaw t) s = .next (returnResult .invalidArgument s)
          else serve (.writeRaw t) s = .next (returnResult (.ok .nothing) (wroteState (BitVec.ofNat 16 n) s))) ∧
      (match Config.oeParse t with
        | none => serve (.writeOe t) s = .next (returnResult .invalidArgument s)
        | some b => serve (.writeOe t) s = .next (returnResult (.ok .nothing) { s with
            level := { s.level with oe := .driven b }
            oeState := b
            trace := ⟨s.now, s.agent, .set .oe b⟩ :: s.trace })) ∧
      (∀ (m : U16) (p : Port), s.mirror = some m →
        ∃ nb : BitVec 2, (Config.voltParse t = some 24 → nb = 0b10) ∧ (Config.voltParse t = some 48 → nb = 0b01) ∧
          (Config.voltParse t ≠ some 24 → Config.voltParse t ≠ some 48 → nb = 0b00) ∧
          (nb ≠ 0b00#2 → field m p ≠ nb → 300 ≤ s.turn.elapse →
            serve (.writePort p t) s = .next (returnResult (.ok .nothing)
              (wroteState ((m &&& ~~~(0b11#16 <<< (2 * p.val))) ||| (nb.setWidth 16 <<< (2 * p.val)))
                { s with now := s.now + s.turn.elapse }))) ∧
          (nb = 0b00#2 ∨ field m p = nb →
            serve (.writePort p t) s = .next (returnResult (.ok .nothing)
              (wroteState ((m &&& ~~~(0b11#16 <<< (2 * p.val))) ||| (nb.setWidth 16 <<< (2 * p.val))) s))))) ∧
    (∀ (p : Port) (u : State), serve (.writePort p t) s = .next u →
      (u.seq s.agent).result = (s.seq s.agent).result ∨ (u.seq s.agent).result = some (.ok .nothing))

/-- R108, R109, R110, R111, R114, R115, R116: the read of each endpoint by any agent completes, and what its reply says as text: the
texts of RAW and OE parse to the value read, a port's text is one of Off, 24V and 48V, and ID's is the constant. A port with both bits
set raises F_UNDEFINED_PORT_STATE; that the read's `op` is none after it is the model's reading (DEDUCED, log entry 5). -/
def Obligations.TextReadsComplete : Prop :=
  ∀ (s : State) (m : U16), MayIssue s → Open s → s.mirror = some m → 1 ≤ s.turn.budget →
    (∃ r, serve (.read .raw) s = .next (returnResult (.ok r) s) ∧ Config.rawParse (replyText r) = some m.toNat) ∧
    (∃ r, serve (.read .oe) s = .next (returnResult (.ok r) s) ∧ Config.oeParse (replyText r) = some s.oeState) ∧
    (∃ r, serve (.read .id) s = .next (returnResult (.ok r) s) ∧ replyText r = Config.idString) ∧
    (∀ p : Port, field m p ≠ 0b11#2 → ∃ r, serve (.read (.port p)) s = .next (returnResult (.ok r) s) ∧
      (field m p = 0b00#2 → replyText r = ['O', 'f', 'f']) ∧ (field m p = 0b10#2 → replyText r = ['2', '4', 'V']) ∧
      (field m p = 0b01#2 → replyText r = ['4', '8', 'V'])) ∧
    (∀ p : Port, field m p = 0b11#2 → serve (.read (.port p)) s =
      .next (raiseFault .undefinedPortState (encode (.readport (BitVec.ofNat 4 p.val))) s))

/-- R107, R109: a value written raw is read back exactly, as a value and as text. -/
def Obligations.RawRoundTrip : Prop :=
  ∀ (s : State) (v : U16), Unhindered s →
    ∃ t, exec (.setraw v) s = .next t ∧ exec .readraw t = .next (returnResult (.ok (.raw v)) t) ∧
      serve (.writeRaw (replyText (.raw v))) s = .next t

/-! ### Invariants -/

/-- The invariant holds at power-up, for every draw of `chain` and `latch`, and so at reset. -/
def Obligations.InvHoldsAtPowerUp : Prop := (∀ c l : U16, Inv (State.powerUp c l)) ∧ Inv State.reset

/-- Every step keeps the invariant, whatever the schedule, the programs and the draws. -/
def Obligations.StepKeepsInv : Prop := ∀ s t : State, Inv s → step s = .next t → Inv t

/-- In every state the invariant allows, the machine goes on: no step stops with a fault or a refusal. That the model
has such stops at all, where a primitive's precondition fails, is its own choice (DEDUCED, log entry 17). -/
def Obligations.StepNeverStops : Prop := ∀ s : State, Inv s → ∃ t, step s = .next t

/-- R26: while the block owns OE and no INIT is in flight, `oeState` = (`level[OE]` = 1). -/
def Obligations.OeStateIsOeLevel : Prop :=
  ∀ s : State, Inv s → s.owned.oe = true → (∀ f, s.seqs.host.op = some f → f.instr ≠ .init) →
    s.oeState = decide (s.level.oe = .driven true)

/-- R87, R145: while INIT is under way, an output drives only once 0x0000 has been latched: no stale value reaches a port. -/
def Obligations.InitNeverDrivesStaleLatch : Prop :=
  ∀ s : State, Inv s → s.life = .initializing → s.owned.oe = true → ∀ k d, s.out k d = .notDriven ∨ s.out k d = .driving false

/-- R59: in Ready with no lock-taking operation in flight, `latch` = `chain` = `mirror`. -/
def Obligations.CoherentWhenQuiet : Prop :=
  ∀ s : State, Inv s → s.life = .ready → (∀ a f, (s.seq a).op = some f → takesLock f.instr = false) →
    s.mirror = some s.latch ∧ s.chain = s.latch

/-- R37, R121: the fault set is empty at power-up, no step removes a record, and a stopped agent stays stopped. -/
def Obligations.FaultSetOnlyGrows : Prop :=
  (∀ c l : U16, (State.powerUp c l).faults = []) ∧
  (∀ s t : State, step s = .next t →
    (∀ r, r ∈ s.faults → r ∈ t.faults) ∧ (∀ a, (s.seq a).stopped = true → (t.seq a).stopped = true))

/-- R29, R129: no step takes time back. Time moves by a Tick, by its amount; or within a turn by the time the turn lets pass, which is
the environment's Tick taken inside it (DESIGN CHOICE, log entries 1 and 15), and then the turn brings its agent's operation to the end
of a settling delay. Of all micro-steps only that one moves time. -/
def Obligations.TimeMovesOnlyByTickOrAtWait : Prop :=
  (∀ s t : State, step s = .next t → s.now ≤ t.now ∧
    (t.now ≠ s.now →
      (∃ k ms, s.schedule = .tick k :: ms ∧ t.now = s.now + k) ∨
      (∃ (u : Turn) (ms : List Move) (b v : State) (k : Nat), s.schedule = .turn u :: ms ∧ 0 < u.elapse ∧
        StartsTurn u { s with schedule := ms } b ∧ k < u.budget ∧ runTurn k b = .next v ∧ AtWait v))) ∧
  (∀ (f : InFlight) (m : Micro) (s t : State), runMicro f m s = .next t → t.now ≠ s.now →
    m = .waitSettled ∧ t.now = s.now + s.turn.elapse)

/-- R136: a run is over exactly when every agent has stopped on a fault, or has no operation in flight and nothing further to issue; so
it is not over, and has no final state, while an agent waits for the lock or in a settling delay. Once it is over, a turn of any agent
changes nothing but the turn, and a step of any kind leaves the final state but for time and for floating lines, and adds no line
event. Which fields the final state names is the model's reading (DEDUCED, log entry 24). -/
def Obligations.RunOverIsFinal : Prop :=
  ∀ s : State,
    (s.runOver = true ↔ ∀ a, (s.seq a).stopped = true ∨ (s.seq a).op = none ∧ (s.seq a).program = []) ∧
    (∀ a f, (s.seq a).op = some f → (s.seq a).stopped = false → s.finalState = none) ∧
    (∀ u ms, s.runOver = true → s.schedule = .turn u :: ms → step s = .next { s with schedule := ms, turn := u }) ∧
    (∀ t, s.runOver = true → step s = .next t → ∃ c l n,
      t.finalState = some { s.block with chain := c, latch := l, now := n } ∧ t.trace = s.trace ∧ t.seqs = s.seqs ∧
      (s.owned.clk = true → c = s.chain) ∧ (s.owned.store = true → l = s.latch))
end

