-- ==== Sys2Proof/Laws/Decode.lean ====
section
/-! SUPPORT. The fields of an operation word as numbers, and what packing and decoding make of them (30_encoding.md R63). -/

namespace Sys2Proof

theorem append_toNat {m n : Nat} (x : BitVec m) (y : BitVec n) : (x ++ y).toNat = x.toNat * 2 ^ n + y.toNat := by
  rw [BitVec.toNat_append, ← Nat.shiftLeft_add_eq_or_of_lt y.isLt, Nat.shiftLeft_eq]

theorem op_toNat (w : OpWord) : w.op.toNat = w.toNat / 2 ^ 28 := by
  have := w.isLt
  simp only [OpWord.op, BitVec.extractLsb'_toNat, Nat.shiftRight_eq_div_pow]; omega

theorem a_toNat (w : OpWord) : w.a.toNat = w.toNat / 2 ^ 24 % 16 := by
  simp only [OpWord.a, BitVec.extractLsb'_toNat, Nat.shiftRight_eq_div_pow]

theorem b_toNat (w : OpWord) : w.b.toNat = w.toNat / 2 ^ 16 % 256 := by
  simp only [OpWord.b, BitVec.extractLsb'_toNat, Nat.shiftRight_eq_div_pow]

theorem v_toNat (w : OpWord) : w.v.toNat = w.toNat % 2 ^ 16 := by
  simp only [OpWord.v, BitVec.extractLsb'_toNat, Nat.shiftRight_eq_div_pow]; omega

theorem pack_toNat (op a : BitVec 4) (b : BitVec 8) (v : U16) :
    (OpWord.pack op a b v).toNat = op.toNat * 2 ^ 28 + a.toNat * 2 ^ 24 + b.toNat * 2 ^ 16 + v.toNat := by
  have h : (OpWord.pack op a b v).toNat = (op ++ a ++ b ++ v).toNat := rfl
  rw [h, append_toNat, append_toNat, append_toNat]; omega

@[simp] theorem pack_op (op a : BitVec 4) (b : BitVec 8) (v : U16) : (OpWord.pack op a b v).op = op := by
  apply BitVec.eq_of_toNat_eq
  rw [op_toNat, pack_toNat]
  have := a.isLt; have := b.isLt; have := v.isLt
  omega

@[simp] theorem pack_a (op a : BitVec 4) (b : BitVec 8) (v : U16) : (OpWord.pack op a b v).a = a := by
  apply BitVec.eq_of_toNat_eq
  rw [a_toNat, pack_toNat]
  have := a.isLt; have := b.isLt; have := v.isLt
  omega

@[simp] theorem pack_b (op a : BitVec 4) (b : BitVec 8) (v : U16) : (OpWord.pack op a b v).b = b := by
  apply BitVec.eq_of_toNat_eq
  rw [b_toNat, pack_toNat]
  have := b.isLt; have := v.isLt
  omega

@[simp] theorem pack_v (op a : BitVec 4) (b : BitVec 8) (v : U16) : (OpWord.pack op a b v).v = v := by
  apply BitVec.eq_of_toNat_eq
  rw [v_toNat, pack_toNat]
  have := v.isLt
  omega

/-- A word is made of its fields. -/
theorem pack_fields (w : OpWord) : OpWord.pack w.op w.a w.b w.v = w := by
  apply BitVec.eq_of_toNat_eq
  rw [pack_toNat, op_toNat, a_toNat, b_toNat, v_toNat]; omega

theorem whenZero_ok {z : Bool} {i j : Instr} (h : whenZero z i = .ok j) : z = true ∧ i = j := by
  cases z <;> simp_all [whenZero]

end Sys2Proof
end

