-- ==== Sys2Proof/Laws/State.lean ====
section
/-! SUPPORT. One lemma for each field of the state after each named update, and the laws of the sequencers and of the lines. -/

namespace Sys2Proof.Machine

@[simp] theorem agent_eq (s : State) : s.agent = s.turn.agent := rfl
@[simp] theorem seq_eq (s : State) (a : Agent) : s.seq a = s.seqs.get a := rfl

@[simp] theorem setSeq_mirror (s : State) (a : Agent) (x : Sequencer) : (s.setSeq a x).mirror = s.mirror := rfl
@[simp] theorem setSeq_oeState (s : State) (a : Agent) (x : Sequencer) : (s.setSeq a x).oeState = s.oeState := rfl
@[simp] theorem setSeq_owned (s : State) (a : Agent) (x : Sequencer) : (s.setSeq a x).owned = s.owned := rfl
@[simp] theorem setSeq_level (s : State) (a : Agent) (x : Sequencer) : (s.setSeq a x).level = s.level := rfl
@[simp] theorem setSeq_life (s : State) (a : Agent) (x : Sequencer) : (s.setSeq a x).life = s.life := rfl
@[simp] theorem setSeq_lock (s : State) (a : Agent) (x : Sequencer) : (s.setSeq a x).lock = s.lock := rfl
@[simp] theorem setSeq_now (s : State) (a : Agent) (x : Sequencer) : (s.setSeq a x).now = s.now := rfl
@[simp] theorem setSeq_chain (s : State) (a : Agent) (x : Sequencer) : (s.setSeq a x).chain = s.chain := rfl
@[simp] theorem setSeq_latch (s : State) (a : Agent) (x : Sequencer) : (s.setSeq a x).latch = s.latch := rfl
@[simp] theorem setSeq_seqs (s : State) (a : Agent) (x : Sequencer) : (s.setSeq a x).seqs = s.seqs.set a x := rfl
@[simp] theorem setSeq_faults (s : State) (a : Agent) (x : Sequencer) : (s.setSeq a x).faults = s.faults := rfl
@[simp] theorem setSeq_trace (s : State) (a : Agent) (x : Sequencer) : (s.setSeq a x).trace = s.trace := rfl
@[simp] theorem setSeq_schedule (s : State) (a : Agent) (x : Sequencer) : (s.setSeq a x).schedule = s.schedule := rfl
@[simp] theorem setSeq_turn (s : State) (a : Agent) (x : Sequencer) : (s.setSeq a x).turn = s.turn := rfl

@[simp] theorem setOp_mirror (s : State) (f : Option InFlight) : (s.setOp f).mirror = s.mirror := rfl
@[simp] theorem setOp_oeState (s : State) (f : Option InFlight) : (s.setOp f).oeState = s.oeState := rfl
@[simp] theorem setOp_owned (s : State) (f : Option InFlight) : (s.setOp f).owned = s.owned := rfl
@[simp] theorem setOp_level (s : State) (f : Option InFlight) : (s.setOp f).level = s.level := rfl
@[simp] theorem setOp_life (s : State) (f : Option InFlight) : (s.setOp f).life = s.life := rfl
@[simp] theorem setOp_lock (s : State) (f : Option InFlight) : (s.setOp f).lock = s.lock := rfl
@[simp] theorem setOp_now (s : State) (f : Option InFlight) : (s.setOp f).now = s.now := rfl
@[simp] theorem setOp_chain (s : State) (f : Option InFlight) : (s.setOp f).chain = s.chain := rfl
@[simp] theorem setOp_latch (s : State) (f : Option InFlight) : (s.setOp f).latch = s.latch := rfl
@[simp] theorem setOp_seqs (s : State) (f : Option InFlight) : (s.setOp f).seqs = s.seqs.set s.agent { s.seq s.agent with op := f } := rfl
@[simp] theorem setOp_faults (s : State) (f : Option InFlight) : (s.setOp f).faults = s.faults := rfl
@[simp] theorem setOp_trace (s : State) (f : Option InFlight) : (s.setOp f).trace = s.trace := rfl
@[simp] theorem setOp_schedule (s : State) (f : Option InFlight) : (s.setOp f).schedule = s.schedule := rfl
@[simp] theorem setOp_turn (s : State) (f : Option InFlight) : (s.setOp f).turn = s.turn := rfl

@[simp] theorem log_mirror (s : State) (e : LineEvent) : (s.log e).mirror = s.mirror := rfl
@[simp] theorem log_oeState (s : State) (e : LineEvent) : (s.log e).oeState = s.oeState := rfl
@[simp] theorem log_owned (s : State) (e : LineEvent) : (s.log e).owned = s.owned := rfl
@[simp] theorem log_level (s : State) (e : LineEvent) : (s.log e).level = s.level := rfl
@[simp] theorem log_life (s : State) (e : LineEvent) : (s.log e).life = s.life := rfl
@[simp] theorem log_lock (s : State) (e : LineEvent) : (s.log e).lock = s.lock := rfl
@[simp] theorem log_now (s : State) (e : LineEvent) : (s.log e).now = s.now := rfl
@[simp] theorem log_chain (s : State) (e : LineEvent) : (s.log e).chain = s.chain := rfl
@[simp] theorem log_latch (s : State) (e : LineEvent) : (s.log e).latch = s.latch := rfl
@[simp] theorem log_seqs (s : State) (e : LineEvent) : (s.log e).seqs = s.seqs := rfl
@[simp] theorem log_faults (s : State) (e : LineEvent) : (s.log e).faults = s.faults := rfl
@[simp] theorem log_trace (s : State) (e : LineEvent) : (s.log e).trace = ⟨s.now, s.agent, e⟩ :: s.trace := rfl
@[simp] theorem log_schedule (s : State) (e : LineEvent) : (s.log e).schedule = s.schedule := rfl
@[simp] theorem log_turn (s : State) (e : LineEvent) : (s.log e).turn = s.turn := rfl

@[simp] theorem tick_mirror (s : State) (k : Nat) : (tick k s).mirror = s.mirror := rfl
@[simp] theorem tick_oeState (s : State) (k : Nat) : (tick k s).oeState = s.oeState := rfl
@[simp] theorem tick_owned (s : State) (k : Nat) : (tick k s).owned = s.owned := rfl
@[simp] theorem tick_level (s : State) (k : Nat) : (tick k s).level = s.level := rfl
@[simp] theorem tick_life (s : State) (k : Nat) : (tick k s).life = s.life := rfl
@[simp] theorem tick_lock (s : State) (k : Nat) : (tick k s).lock = s.lock := rfl
@[simp] theorem tick_now (s : State) (k : Nat) : (tick k s).now = s.now + k := rfl
@[simp] theorem tick_chain (s : State) (k : Nat) : (tick k s).chain = s.chain := rfl
@[simp] theorem tick_latch (s : State) (k : Nat) : (tick k s).latch = s.latch := rfl
@[simp] theorem tick_seqs (s : State) (k : Nat) : (tick k s).seqs = s.seqs := rfl
@[simp] theorem tick_faults (s : State) (k : Nat) : (tick k s).faults = s.faults := rfl
@[simp] theorem tick_trace (s : State) (k : Nat) : (tick k s).trace = s.trace := rfl
@[simp] theorem tick_schedule (s : State) (k : Nat) : (tick k s).schedule = s.schedule := rfl
@[simp] theorem tick_turn (s : State) (k : Nat) : (tick k s).turn = s.turn := rfl

@[simp] theorem advance_mirror (s : State) (f : InFlight) : (advance f s).mirror = s.mirror := rfl
@[simp] theorem advance_oeState (s : State) (f : InFlight) : (advance f s).oeState = s.oeState := rfl
@[simp] theorem advance_owned (s : State) (f : InFlight) : (advance f s).owned = s.owned := rfl
@[simp] theorem advance_level (s : State) (f : InFlight) : (advance f s).level = s.level := rfl
@[simp] theorem advance_life (s : State) (f : InFlight) : (advance f s).life = s.life := rfl
@[simp] theorem advance_lock (s : State) (f : InFlight) : (advance f s).lock = s.lock := rfl
@[simp] theorem advance_now (s : State) (f : InFlight) : (advance f s).now = s.now := rfl
@[simp] theorem advance_chain (s : State) (f : InFlight) : (advance f s).chain = s.chain := rfl
@[simp] theorem advance_latch (s : State) (f : InFlight) : (advance f s).latch = s.latch := rfl
@[simp] theorem advance_seqs (s : State) (f : InFlight) : (advance f s).seqs = s.seqs.set s.agent { s.seq s.agent with op := some { f with idx := f.idx + 1 } } := rfl
@[simp] theorem advance_faults (s : State) (f : InFlight) : (advance f s).faults = s.faults := rfl
@[simp] theorem advance_trace (s : State) (f : InFlight) : (advance f s).trace = s.trace := rfl
@[simp] theorem advance_schedule (s : State) (f : InFlight) : (advance f s).schedule = s.schedule := rfl
@[simp] theorem advance_turn (s : State) (f : InFlight) : (advance f s).turn = s.turn := rfl

@[simp] theorem startWrite_mirror (s : State) (v : U16) (f : InFlight) : (startWrite v f s).mirror = s.mirror := rfl
@[simp] theorem startWrite_oeState (s : State) (v : U16) (f : InFlight) : (startWrite v f s).oeState = s.oeState := rfl
@[simp] theorem startWrite_owned (s : State) (v : U16) (f : InFlight) : (startWrite v f s).owned = s.owned := rfl
@[simp] theorem startWrite_level (s : State) (v : U16) (f : InFlight) : (startWrite v f s).level = s.level := rfl
@[simp] theorem startWrite_life (s : State) (v : U16) (f : InFlight) : (startWrite v f s).life = s.life := rfl
@[simp] theorem startWrite_lock (s : State) (v : U16) (f : InFlight) : (startWrite v f s).lock = s.lock := rfl
@[simp] theorem startWrite_now (s : State) (v : U16) (f : InFlight) : (startWrite v f s).now = s.now := rfl
@[simp] theorem startWrite_chain (s : State) (v : U16) (f : InFlight) : (startWrite v f s).chain = s.chain := rfl
@[simp] theorem startWrite_latch (s : State) (v : U16) (f : InFlight) : (startWrite v f s).latch = s.latch := rfl
@[simp] theorem startWrite_seqs (s : State) (v : U16) (f : InFlight) : (startWrite v f s).seqs = s.seqs.set s.agent { s.seq s.agent with op := some { f with v := v, wpos := s.turn.wpos, idx := f.idx + 1 } } := rfl
@[simp] theorem startWrite_faults (s : State) (v : U16) (f : InFlight) : (startWrite v f s).faults = s.faults := rfl
@[simp] theorem startWrite_trace (s : State) (v : U16) (f : InFlight) : (startWrite v f s).trace = s.trace := rfl
@[simp] theorem startWrite_schedule (s : State) (v : U16) (f : InFlight) : (startWrite v f s).schedule = s.schedule := rfl
@[simp] theorem startWrite_turn (s : State) (v : U16) (f : InFlight) : (startWrite v f s).turn = s.turn := rfl

@[simp] theorem returnResult_mirror (s : State) (r : OpResult) : (returnResult r s).mirror = s.mirror := rfl
@[simp] theorem returnResult_oeState (s : State) (r : OpResult) : (returnResult r s).oeState = s.oeState := rfl
@[simp] theorem returnResult_owned (s : State) (r : OpResult) : (returnResult r s).owned = s.owned := rfl
@[simp] theorem returnResult_level (s : State) (r : OpResult) : (returnResult r s).level = s.level := rfl
@[simp] theorem returnResult_life (s : State) (r : OpResult) : (returnResult r s).life = s.life := rfl
@[simp] theorem returnResult_lock (s : State) (r : OpResult) : (returnResult r s).lock = s.lock := rfl
@[simp] theorem returnResult_now (s : State) (r : OpResult) : (returnResult r s).now = s.now := rfl
@[simp] theorem returnResult_chain (s : State) (r : OpResult) : (returnResult r s).chain = s.chain := rfl
@[simp] theorem returnResult_latch (s : State) (r : OpResult) : (returnResult r s).latch = s.latch := rfl
@[simp] theorem returnResult_seqs (s : State) (r : OpResult) : (returnResult r s).seqs = s.seqs.set s.agent { s.seq s.agent with op := none, result := some r } := rfl
@[simp] theorem returnResult_faults (s : State) (r : OpResult) : (returnResult r s).faults = s.faults := rfl
@[simp] theorem returnResult_trace (s : State) (r : OpResult) : (returnResult r s).trace = s.trace := rfl
@[simp] theorem returnResult_schedule (s : State) (r : OpResult) : (returnResult r s).schedule = s.schedule := rfl
@[simp] theorem returnResult_turn (s : State) (r : OpResult) : (returnResult r s).turn = s.turn := rfl

@[simp] theorem raiseFault_mirror (s : State) (c : FaultCode) (w : OpWord) : (raiseFault c w s).mirror = s.mirror := rfl
@[simp] theorem raiseFault_oeState (s : State) (c : FaultCode) (w : OpWord) : (raiseFault c w s).oeState = s.oeState := rfl
@[simp] theorem raiseFault_owned (s : State) (c : FaultCode) (w : OpWord) : (raiseFault c w s).owned = s.owned := rfl
@[simp] theorem raiseFault_level (s : State) (c : FaultCode) (w : OpWord) : (raiseFault c w s).level = s.level := rfl
@[simp] theorem raiseFault_life (s : State) (c : FaultCode) (w : OpWord) : (raiseFault c w s).life = s.life := rfl
@[simp] theorem raiseFault_lock (s : State) (c : FaultCode) (w : OpWord) : (raiseFault c w s).lock = s.lock := rfl
@[simp] theorem raiseFault_now (s : State) (c : FaultCode) (w : OpWord) : (raiseFault c w s).now = s.now := rfl
@[simp] theorem raiseFault_chain (s : State) (c : FaultCode) (w : OpWord) : (raiseFault c w s).chain = s.chain := rfl
@[simp] theorem raiseFault_latch (s : State) (c : FaultCode) (w : OpWord) : (raiseFault c w s).latch = s.latch := rfl
@[simp] theorem raiseFault_seqs (s : State) (c : FaultCode) (w : OpWord) : (raiseFault c w s).seqs = s.seqs.set s.agent { s.seq s.agent with op := none, stopped := true } := rfl
@[simp] theorem raiseFault_faults (s : State) (c : FaultCode) (w : OpWord) : (raiseFault c w s).faults = s.faults ++ [{ code := c, agent := s.agent, word := w }] := rfl
@[simp] theorem raiseFault_trace (s : State) (c : FaultCode) (w : OpWord) : (raiseFault c w s).trace = s.trace := rfl
@[simp] theorem raiseFault_schedule (s : State) (c : FaultCode) (w : OpWord) : (raiseFault c w s).schedule = s.schedule := rfl
@[simp] theorem raiseFault_turn (s : State) (c : FaultCode) (w : OpWord) : (raiseFault c w s).turn = s.turn := rfl

@[simp] theorem acquireLine_mirror (s : State) (l : Line) : (acquireLine l s).mirror = s.mirror := rfl
@[simp] theorem acquireLine_oeState (s : State) (l : Line) : (acquireLine l s).oeState = s.oeState := rfl
@[simp] theorem acquireLine_owned (s : State) (l : Line) : (acquireLine l s).owned = s.owned.set l true := rfl
@[simp] theorem acquireLine_level (s : State) (l : Line) : (acquireLine l s).level = s.level.set l (.driven false) := rfl
@[simp] theorem acquireLine_life (s : State) (l : Line) : (acquireLine l s).life = s.life := rfl
@[simp] theorem acquireLine_lock (s : State) (l : Line) : (acquireLine l s).lock = s.lock := rfl
@[simp] theorem acquireLine_now (s : State) (l : Line) : (acquireLine l s).now = s.now := rfl
@[simp] theorem acquireLine_chain (s : State) (l : Line) : (acquireLine l s).chain = s.chain := rfl
@[simp] theorem acquireLine_latch (s : State) (l : Line) : (acquireLine l s).latch = s.latch := rfl
@[simp] theorem acquireLine_seqs (s : State) (l : Line) : (acquireLine l s).seqs = s.seqs := rfl
@[simp] theorem acquireLine_faults (s : State) (l : Line) : (acquireLine l s).faults = s.faults := rfl
@[simp] theorem acquireLine_trace (s : State) (l : Line) : (acquireLine l s).trace = ⟨s.now, s.agent, .acquire l true⟩ :: s.trace := rfl
@[simp] theorem acquireLine_schedule (s : State) (l : Line) : (acquireLine l s).schedule = s.schedule := rfl
@[simp] theorem acquireLine_turn (s : State) (l : Line) : (acquireLine l s).turn = s.turn := rfl

/-! ### The sequencers -/

@[simp] theorem getCaller_setCaller (n m : Fin Config.nCallers) (x : Sequencer) (es : List (Fin Config.nCallers × Sequencer)) :
    getCaller m (setCaller n x es) = if n = m then x else getCaller m es := by
  induction es with
  | nil => rfl
  | cons e es ih =>
    unfold setCaller
    by_cases h : e.1 = n
    · simp only [h, if_true, getCaller]; split <;> rfl
    · simp only [h, if_false, getCaller, ih]
      split
      · rename_i hm; rw [if_neg (fun hn => h (hm.trans hn.symm))]
      · rfl

@[simp] theorem getCaller_nil (n : Fin Config.nCallers) : getCaller n [] = Sequencer.idle := rfl

theorem setCaller_getCaller {n : Fin Config.nCallers} {es : List (Fin Config.nCallers × Sequencer)}
    (h : getCaller n es ≠ Sequencer.idle) : setCaller n (getCaller n es) es = es := by
  induction es with
  | nil => exact absurd rfl h
  | cons e es ih =>
    by_cases he : e.1 = n
    · subst he; simp [setCaller, getCaller]
    · simp only [getCaller, he, if_false] at h
      simp [setCaller, getCaller, he, ih h]

@[simp] theorem setCaller_setCaller (n : Fin Config.nCallers) (x y : Sequencer) (es : List (Fin Config.nCallers × Sequencer)) :
    setCaller n y (setCaller n x es) = setCaller n y es := by
  induction es with
  | nil => simp [setCaller]
  | cons e es ih => by_cases h : e.1 = n <;> simp [setCaller, h, ih]

@[simp] theorem seqs_get_set_same (q : Sequencers) (a : Agent) (x : Sequencer) : (q.set a x).get a = x := by
  cases a <;> simp [Sequencers.set, Sequencers.get]

theorem seqs_get_set_ne (q : Sequencers) {a b : Agent} (x : Sequencer) (h : b ≠ a) : (q.set a x).get b = q.get b := by
  cases a <;> cases b <;> simp_all [Sequencers.set, Sequencers.get]
  exact fun e => absurd e.symm h

theorem seqs_get_set (q : Sequencers) (a b : Agent) (x : Sequencer) :
    (q.set a x).get b = if b = a then x else q.get b := by
  split
  · subst b; simp
  · exact seqs_get_set_ne q x ‹_›

@[simp] theorem seqs_set_set (q : Sequencers) (a : Agent) (x y : Sequencer) : (q.set a x).set a y = q.set a y := by
  cases a <;> simp [Sequencers.set]

theorem seqs_set_get {q : Sequencers} {a : Agent} (h : q.get a ≠ Sequencer.idle) : q.set a (q.get a) = q := by
  cases a with
  | host => rfl
  | caller n => exact congrArg (fun es => ({ q with callers := es } : Sequencers)) (setCaller_getCaller h)

theorem seqs_set_get_of_op {q : Sequencers} {a : Agent} {f : InFlight} (h : (q.get a).op = some f) : q.set a (q.get a) = q :=
  seqs_set_get fun e => by rw [e] at h; cases h

@[simp] theorem idle_get (a : Agent) : Sequencers.idle.get a = Sequencer.idle := by
  cases a <;> rfl

/-! ### The lines -/

@[simp] theorem perLine_get_set_same {α : Type} (x : PerLine α) (l : Line) (y : α) : (x.set l y).get l = y := by
  cases l <;> rfl

theorem perLine_get_set_ne {α : Type} (x : PerLine α) {l k : Line} (y : α) (h : k ≠ l) : (x.set l y).get k = x.get k := by
  cases l <;> cases k <;> first | rfl | exact absurd rfl h

theorem perLine_get_set {α : Type} (x : PerLine α) (l k : Line) (y : α) :
    (x.set l y).get k = if k = l then y else x.get k := by
  cases l <;> cases k <;> rfl

@[simp] theorem perLine_get_all {α : Type} (x : α) (l : Line) : (PerLine.all x).get l = x := by
  cases l <;> rfl

theorem perLine_eq_all {α : Type} {x : PerLine α} {y : α} (h : ∀ l, x.get l = y) : x = PerLine.all y := by
  obtain ⟨a, b, c, d⟩ := x
  have h1 := h .clk
  have h2 := h .data
  have h3 := h .store
  have h4 := h .oe
  simp only [PerLine.get] at h1 h2 h3 h4
  simp [PerLine.all, h1, h2, h3, h4]

/-! ### Releasing a line (R86, R90) -/

@[simp] theorem releaseLine_mirror (l : Line) (s : State) : (releaseLine l s).mirror = s.mirror := by
  unfold releaseLine; split <;> rfl
@[simp] theorem releaseLine_oeState (l : Line) (s : State) : (releaseLine l s).oeState = s.oeState := by
  unfold releaseLine; split <;> rfl
@[simp] theorem releaseLine_life (l : Line) (s : State) : (releaseLine l s).life = s.life := by
  unfold releaseLine; split <;> rfl
@[simp] theorem releaseLine_lock (l : Line) (s : State) : (releaseLine l s).lock = s.lock := by
  unfold releaseLine; split <;> rfl
@[simp] theorem releaseLine_now (l : Line) (s : State) : (releaseLine l s).now = s.now := by
  unfold releaseLine; split <;> rfl
@[simp] theorem releaseLine_chain (l : Line) (s : State) : (releaseLine l s).chain = s.chain := by
  unfold releaseLine; split <;> rfl
@[simp] theorem releaseLine_latch (l : Line) (s : State) : (releaseLine l s).latch = s.latch := by
  unfold releaseLine; split <;> rfl
@[simp] theorem releaseLine_seqs (l : Line) (s : State) : (releaseLine l s).seqs = s.seqs := by
  unfold releaseLine; split <;> rfl
@[simp] theorem releaseLine_faults (l : Line) (s : State) : (releaseLine l s).faults = s.faults := by
  unfold releaseLine; split <;> rfl
@[simp] theorem releaseLine_schedule (l : Line) (s : State) : (releaseLine l s).schedule = s.schedule := by
  unfold releaseLine; split <;> rfl
@[simp] theorem releaseLine_turn (l : Line) (s : State) : (releaseLine l s).turn = s.turn := by
  unfold releaseLine; split <;> rfl

theorem releaseLine_owned_get (l k : Line) (s : State) :
    (releaseLine l s).owned.get k = if k = l then false else s.owned.get k := by
  unfold releaseLine; split
  · simp [perLine_get_set]
  · rename_i h
    split
    · subst k; simpa using h
    · rfl

theorem releaseLine_level_get (l k : Line) (s : State) (h : s.owned.get l = true ∨ s.level.get l = .unknown) :
    (releaseLine l s).level.get k = if k = l then .unknown else s.level.get k := by
  unfold releaseLine; split
  · simp [perLine_get_set]
  · rcases h with h | h
    · contradiction
    · split
      · subst k; exact h
      · rfl

/-! ### Caller operations in flight (R123) -/

theorem getCaller_of_not_mem {n : Fin Config.nCallers} {es : List (Fin Config.nCallers × Sequencer)} (h : ∀ e ∈ es, e.1 ≠ n) :
    getCaller n es = Sequencer.idle := by
  induction es with
  | nil => rfl
  | cons e es ih => simp_all [getCaller]

theorem callerInFlight_false {s : State} : s.callerInFlight = false ↔ ∀ n, (s.seq (.caller n)).op = none := by
  simp only [State.callerInFlight, List.any_eq_false, Option.not_isSome_iff_eq_none, seq_eq, Sequencers.get]
  constructor
  · intro h n
    by_cases hn : ∃ e ∈ s.seqs.callers, e.1 = n
    · obtain ⟨e, he, rfl⟩ := hn; exact h e he
    · rw [getCaller_of_not_mem fun e he hen => hn ⟨e, he, hen⟩]; rfl
  · exact fun h e _ => h e.1

theorem callerInFlight_true {s : State} : s.callerInFlight = true ↔ ∃ n f, (s.seq (.caller n)).op = some f := by
  rw [← not_iff_not, Bool.not_eq_true, callerInFlight_false]
  simp [Option.eq_none_iff_forall_ne_some]

/-! ### The end of a run (R136) -/

theorem over_iff {q : Sequencer} : q.over = true ↔ q.stopped = true ∨ q.op = none ∧ q.program = [] := by
  simp [Sequencer.over]

theorem runOver_iff {s : State} : s.runOver = true ↔ ∀ a, (s.seq a).over = true := by
  simp only [State.runOver, Bool.and_eq_true, List.all_eq_true, seq_eq]
  constructor
  · rintro ⟨hh, hc⟩ (_ | n)
    · exact hh
    · show (getCaller n s.seqs.callers).over = true
      by_cases hn : ∃ e ∈ s.seqs.callers, e.1 = n
      · obtain ⟨e, he, rfl⟩ := hn; exact hc e he
      · rw [getCaller_of_not_mem fun e he hen => hn ⟨e, he, hen⟩]; rfl
  · exact fun h => ⟨h .host, fun e _ => h (.caller e.1)⟩

theorem finalState_of_over {s : State} (h : s.runOver = true) : s.finalState = some s.block := if_pos h

theorem finalState_of_op {s : State} {a : Agent} {f : InFlight} (h : (s.seq a).op = some f) (hs : (s.seq a).stopped = false) :
    s.finalState = none := by
  refine if_neg fun ho => ?_
  rcases over_iff.mp (runOver_iff.mp ho a) with h1 | ⟨h1, -⟩
  · rw [hs] at h1; cases h1
  · rw [h] at h1; cases h1

end Sys2Proof.Machine
end

