-- ==== Sys2Proof/Laws/Lines.lean ====
section
/-! SUPPORT. What LineSet does on an owned line, and how the line events of a WRITE sequence make their progress. -/

namespace Sys2Proof.Machine

/-- The state after a line event on an owned line (R74). -/
def lineDone (l : Line) (b : Bool) (s : State) : State :=
  let t := if risingEdge (s.level.get l) b then s.edge l else s
  { t with level := t.level.set l (.driven b) }.log (.set l b)

theorem lineSet_owned {l : Line} {b : Bool} {s : State} (h : s.owned.get l = true) :
    lineSet l b s = .next (lineDone l b s) := by
  simp [lineSet, lineDone, h]

theorem lineSet_not_owned {l : Line} {b : Bool} {s : State} (h : s.owned.get l = false) :
    lineSet l b s = .fault (.lineNotOwned l) := by
  simp [lineSet, h]

theorem risingEdge_iff (p : LineLevel) (b : Bool) : risingEdge p b = true ↔ p = .driven false ∧ b = true := by
  simp [risingEdge]

/-- Everything a line event does, field by field. -/
theorem lineDone_eq (l : Line) (b : Bool) (s : State) :
    lineDone l b s = { s with
      chain := if l = .clk ∧ s.level.clk = .driven false ∧ b = true then shiftIn s.chain s.dataBit else s.chain
      latch := if l = .store ∧ s.level.store = .driven false ∧ b = true then s.chain else s.latch
      level := s.level.set l (.driven b)
      trace := ⟨s.now, s.agent, .set l b⟩ :: s.trace } := by
  cases l
  · by_cases h : s.level.clk = .driven false ∧ b = true <;>
      simp only [lineDone, risingEdge_iff, PerLine.get, h, if_true, if_false, true_and, State.edge] <;> rfl
  · by_cases h : s.level.data = .driven false ∧ b = true <;>
      simp only [lineDone, risingEdge_iff, PerLine.get, h, if_false, State.edge] <;> rfl
  · by_cases h : s.level.store = .driven false ∧ b = true <;>
      simp only [lineDone, risingEdge_iff, PerLine.get, h, if_true, if_false, true_and, State.edge] <;> rfl
  · by_cases h : s.level.oe = .driven false ∧ b = true <;>
      simp only [lineDone, risingEdge_iff, PerLine.get, h, if_false, State.edge] <;> rfl

@[simp] theorem lineDone_mirror (l : Line) (b : Bool) (s : State) : (lineDone l b s).mirror = s.mirror := by
  rw [lineDone_eq]
@[simp] theorem lineDone_oeState (l : Line) (b : Bool) (s : State) : (lineDone l b s).oeState = s.oeState := by
  rw [lineDone_eq]
@[simp] theorem lineDone_owned (l : Line) (b : Bool) (s : State) : (lineDone l b s).owned = s.owned := by
  rw [lineDone_eq]
@[simp] theorem lineDone_life (l : Line) (b : Bool) (s : State) : (lineDone l b s).life = s.life := by
  rw [lineDone_eq]
@[simp] theorem lineDone_lock (l : Line) (b : Bool) (s : State) : (lineDone l b s).lock = s.lock := by
  rw [lineDone_eq]
@[simp] theorem lineDone_now (l : Line) (b : Bool) (s : State) : (lineDone l b s).now = s.now := by
  rw [lineDone_eq]
@[simp] theorem lineDone_seqs (l : Line) (b : Bool) (s : State) : (lineDone l b s).seqs = s.seqs := by
  rw [lineDone_eq]
@[simp] theorem lineDone_faults (l : Line) (b : Bool) (s : State) : (lineDone l b s).faults = s.faults := by
  rw [lineDone_eq]
@[simp] theorem lineDone_schedule (l : Line) (b : Bool) (s : State) : (lineDone l b s).schedule = s.schedule := by
  rw [lineDone_eq]
@[simp] theorem lineDone_turn (l : Line) (b : Bool) (s : State) : (lineDone l b s).turn = s.turn := by
  rw [lineDone_eq]
@[simp] theorem lineDone_level (l : Line) (b : Bool) (s : State) :
    (lineDone l b s).level = s.level.set l (.driven b) := by rw [lineDone_eq]
@[simp] theorem lineDone_trace (l : Line) (b : Bool) (s : State) :
    (lineDone l b s).trace = ⟨s.now, s.agent, .set l b⟩ :: s.trace := by rw [lineDone_eq]
theorem lineDone_chain (l : Line) (b : Bool) (s : State) : (lineDone l b s).chain =
    if l = .clk ∧ s.level.clk = .driven false ∧ b = true then shiftIn s.chain s.dataBit else s.chain := by rw [lineDone_eq]
theorem lineDone_latch (l : Line) (b : Bool) (s : State) : (lineDone l b s).latch =
    if l = .store ∧ s.level.store = .driven false ∧ b = true then s.chain else s.latch := by rw [lineDone_eq]

/-- A shift moves every bit one place up and takes d in at the bottom (R75). -/
theorem shiftIn_getLsbD (c : U16) (d : Bool) {i : Nat} (h : i < 16) :
    (shiftIn c d).getLsbD i = if i = 0 then d else c.getLsbD (i - 1) := by
  unfold shiftIn
  rcases i with _ | i
  · cases d <;> simp
  · cases d <;> simp [h, BitVec.getLsbD_eq_getElem (show i < 16 by omega)]

/-! ### The order of the line events (R79) -/

theorem writeEvent_zero (v : U16) : writeEvent v 0 = (.clk, false) := rfl
theorem writeEvent_one (v : U16) : writeEvent v 1 = (.store, false) := rfl
theorem writeEvent_fifty (v : U16) : writeEvent v 50 = (.store, true) := rfl
theorem writeEvent_fifty_one (v : U16) : writeEvent v 51 = (.store, false) := rfl
theorem writeEvent_data (v : U16) {j : Nat} (h : j < 16) : writeEvent v (2 + 3 * j) = (.data, v.getLsbD (15 - j)) := by
  have h0 : ¬ (2 + 3 * j = 0) := by omega
  have h1 : ¬ (2 + 3 * j = 1) := by omega
  have h2 : ¬ (2 + 3 * j = 50) := by omega
  have h3 : ¬ (50 < 2 + 3 * j) := by omega
  have h4 : (2 + 3 * j - 2) % 3 = 0 := by omega
  have h5 : (2 + 3 * j - 2) / 3 = j := by omega
  simp only [writeEvent, h0, h1, h2, h3, h4, h5, if_false, if_true]
theorem writeEvent_rise (v : U16) {j : Nat} (h : j < 16) : writeEvent v (3 + 3 * j) = (.clk, true) := by
  have h0 : ¬ (3 + 3 * j = 0) := by omega
  have h1 : ¬ (3 + 3 * j = 1) := by omega
  have h2 : ¬ (3 + 3 * j = 50) := by omega
  have h3 : ¬ (50 < 3 + 3 * j) := by omega
  have h4 : (3 + 3 * j - 2) % 3 = 1 := by omega
  have h5 : ¬ ((1 : Nat) = 0) := by omega
  simp only [writeEvent, h0, h1, h2, h3, h4, h5, if_false, if_true]
theorem writeEvent_fall (v : U16) {j : Nat} (h : j < 16) : writeEvent v (4 + 3 * j) = (.clk, false) := by
  have h0 : ¬ (4 + 3 * j = 0) := by omega
  have h1 : ¬ (4 + 3 * j = 1) := by omega
  have h2 : ¬ (4 + 3 * j = 50) := by omega
  have h3 : ¬ (50 < 4 + 3 * j) := by omega
  have h4 : (4 + 3 * j - 2) % 3 = 2 := by omega
  have h5 : ¬ ((2 : Nat) = 0) := by omega
  have h6 : ¬ ((2 : Nat) = 1) := by omega
  simp only [writeEvent, h0, h1, h2, h3, h4, h5, h6, if_false]

/-- OE is no line of a WRITE sequence. -/
theorem writeEvent_ne_oe (v : U16) (e : Nat) : (writeEvent v e).1 ≠ .oe := by
  unfold writeEvent
  repeat' split
  all_goals simp

/-- The 52 events by their kind. -/
theorem event_cases {e : Nat} (h : e < 52) :
    e = 0 ∨ e = 1 ∨ (∃ j, j < 16 ∧ e = 2 + 3 * j) ∨ (∃ j, j < 16 ∧ e = 3 + 3 * j) ∨ (∃ j, j < 16 ∧ e = 4 + 3 * j) ∨
      e = 50 ∨ e = 51 := by
  by_cases h0 : e < 2
  · omega
  by_cases h1 : 50 ≤ e
  · omega
  have : e = 2 + 3 * ((e - 2) / 3) ∨ e = 3 + 3 * ((e - 2) / 3) ∨ e = 4 + 3 * ((e - 2) / 3) := by omega
  have hj : (e - 2) / 3 < 16 := by omega
  rcases this with h | h | h
  · exact .inr (.inr (.inl ⟨_, hj, h⟩))
  · exact .inr (.inr (.inr (.inl ⟨_, hj, h⟩)))
  · exact .inr (.inr (.inr (.inr (.inl ⟨_, hj, h⟩))))

/-- The progress depends on the CLK, DATA and STORE levels, the chain and the latch only. -/
theorem ShiftProgress.congr {v : U16} {e : Nat} {s t : State} (h : ShiftProgress v e s) (hc : t.level.clk = s.level.clk)
    (hd : t.level.data = s.level.data) (hs : t.level.store = s.level.store) (hch : t.chain = s.chain)
    (hl : t.latch = s.latch) : ShiftProgress v e t :=
  ⟨by rw [hc]; exact h.clk, by rw [hs]; exact h.store, by rw [hd]; exact h.data, by rw [hch]; exact h.chain,
    by rw [hl]; exact h.latch⟩

/-- Before the first event nothing is asked of the lines. -/
theorem ShiftProgress.start (v : U16) (s : State) : ShiftProgress v 0 s :=
  ⟨by omega, by omega, by omega, fun i hi => by simp [risesIn] at hi, by omega⟩

/-- Each line event makes the next step of the progress. -/
theorem ShiftProgress.next {v : U16} {e : Nat} {s : State} (h : ShiftProgress v e s) (he : e < 52) :
    ShiftProgress v (e + 1) (lineDone (writeEvent v e).1 (writeEvent v e).2 s) := by
  rcases event_cases he with rfl | rfl | ⟨j, hj, rfl⟩ | ⟨j, hj, rfl⟩ | ⟨j, hj, rfl⟩ | rfl | rfl
  · constructor <;> simp [writeEvent_zero, PerLine.set, risesIn]
  · have h1 := h.clk (by omega)
    constructor <;> simp [writeEvent_one, PerLine.set, risesIn, h1]
  · have h1 := h.clk (by omega)
    have h2 := h.store (by omega)
    have h4 := h.chain
    rw [writeEvent_data v hj]
    constructor
    · intro _; simp [PerLine.set, h1]; omega
    · intro _; simp [PerLine.set, h2]; omega
    · intro _
      have : (min (2 + 3 * j + 1) 50 - 3) / 3 = j := by omega
      simp [PerLine.set, this]
    · have : risesIn (2 + 3 * j + 1) = risesIn (2 + 3 * j) := by simp [risesIn]; omega
      rw [this]
      simpa [lineDone_chain] using h4
    · omega
  · have h1 := h.clk (by omega)
    have h2 := h.store (by omega)
    have h3 := h.data (by omega)
    have h4 := h.chain
    have hlow : s.level.clk = .driven false := by rw [h1]; simp
    have hd : (min (3 + 3 * j) 50 - 3) / 3 = j := by omega
    have r0 : risesIn (3 + 3 * j) = j := by simp [risesIn]; omega
    have r1 : risesIn (3 + 3 * j + 1) = j + 1 := by simp [risesIn]; omega
    rw [hd] at h3
    rw [writeEvent_rise v hj]
    constructor
    · intro _; simp [PerLine.set]; omega
    · intro _; simp [PerLine.set, h2]; omega
    · intro _
      have : (min (3 + 3 * j + 1) 50 - 3) / 3 = j := by omega
      simp [PerLine.set, h3, this]
    · rw [r1]
      intro i hi
      have hb : s.dataBit = v.getLsbD (15 - j) := by simp [State.dataBit, h3]
      simp only [lineDone_chain, hlow, and_self, if_true, hb]
      rw [shiftIn_getLsbD _ _ (by omega)]
      rcases i with _ | i
      · simp
      · simp only [Nat.add_eq_zero_iff, one_ne_zero, and_false, if_false, Nat.add_sub_cancel]
        rw [h4 i (by rw [r0]; omega), r0]
        congr 1; omega
    · omega
  · have h2 := h.store (by omega)
    have h3 := h.data (by omega)
    have h4 := h.chain
    have hd : (min (4 + 3 * j) 50 - 3) / 3 = j := by omega
    rw [writeEvent_fall v hj]
    constructor
    · intro _; simp [PerLine.set]; omega
    · intro _; simp [PerLine.set, h2]; omega
    · intro _
      have : (min (4 + 3 * j + 1) 50 - 3) / 3 = j := by omega
      simp [PerLine.set, h3, hd, this]
    · have : risesIn (4 + 3 * j + 1) = risesIn (4 + 3 * j) := by simp [risesIn]; omega
      rw [this]
      simpa [lineDone_chain] using h4
    · omega
  · have h1 := h.clk (by omega)
    have h2 := h.store (by omega)
    have h3 := h.data (by omega)
    have h4 := h.chain
    have hl : s.chain = v := by
      apply BitVec.eq_of_getLsbD_eq
      intro i hi
      have := h4 i (by simpa [risesIn] using hi)
      simpa [risesIn] using this
    rw [writeEvent_fifty]
    constructor
    · intro _; simp [PerLine.set, h1]
    · intro _; simp [PerLine.set]
    · intro _; simp [PerLine.set, h3]
    · simpa [lineDone_chain, risesIn] using h4
    · intro _; simp [lineDone_latch, h2, hl]
  · have h1 := h.clk (by omega)
    have h3 := h.data (by omega)
    have h4 := h.chain
    have h5 := h.latch (by omega)
    rw [writeEvent_fifty_one]
    constructor
    · intro _; simp [PerLine.set, h1]
    · intro _; simp [PerLine.set]
    · intro _; simp [PerLine.set, h3]
    · simpa [lineDone_chain, risesIn] using h4
    · intro _; simp [lineDone_latch, h5]

/-- After all 52 events the chain holds v (R78, R81). -/
theorem ShiftProgress.chain_done {v : U16} {s : State} (h : ShiftProgress v 52 s) : s.chain = v := by
  apply BitVec.eq_of_getLsbD_eq
  intro i hi
  have := h.chain i (by simpa [risesIn] using hi)
  simpa [risesIn] using this

/-- The end of a WRITE sequence is coherent (R81). -/
theorem WritePhase.done {f : InFlight} {s : State} (h : WritePhase f 53 s) : Coherent s ∧ s.latch = f.v := by
  have hw : f.wpos.val < 53 := f.wpos.isLt
  have he : eventsBefore f.wpos.val 53 = 52 := by simp [eventsBefore]
  have hp := h.progress
  rw [he] at hp
  have hl : s.latch = f.v := hp.latch (by omega)
  have h1 := hp.clk (by omega)
  have h2 := hp.store (by omega)
  have h3 := hp.data (by omega)
  refine ⟨⟨?_, ?_, ?_, ?_, ?_⟩, hl⟩
  · rw [h.mirror hw, hl]
  · rw [hp.chain_done, hl]
  · simpa using h1
  · simpa [hl] using h3
  · simpa using h2

end Sys2Proof.Machine
end

