-- ==== Sys2Proof/Laws/WriteSeq.lean ====
section
/-! SUPPORT. A whole WRITE sequence run within one turn: its 53 micro-steps in closed form. -/

namespace Sys2Proof.Machine

theorem writeSteps_get {k : Nat} (h : k < 53) : writeSteps[k]? = some (.shiftOut k) := by
  simp [writeSteps, h]

theorem writeSteps_length : writeSteps.length = 53 := by simp [writeSteps]

/-- The state after the first e line events of a WRITE sequence of v. -/
def afterEvents (v : U16) : Nat → State → State
  | 0, s => s
  | e + 1, s => lineDone (writeEvent v e).1 (writeEvent v e).2 (afterEvents v e s)

section
variable (v : U16) (e : Nat) (s : State)

@[simp] theorem afterEvents_mirror : (afterEvents v e s).mirror = s.mirror := by induction e <;> simp_all [afterEvents]
@[simp] theorem afterEvents_oeState : (afterEvents v e s).oeState = s.oeState := by induction e <;> simp_all [afterEvents]
@[simp] theorem afterEvents_owned : (afterEvents v e s).owned = s.owned := by induction e <;> simp_all [afterEvents]
@[simp] theorem afterEvents_life : (afterEvents v e s).life = s.life := by induction e <;> simp_all [afterEvents]
@[simp] theorem afterEvents_lock : (afterEvents v e s).lock = s.lock := by induction e <;> simp_all [afterEvents]
@[simp] theorem afterEvents_now : (afterEvents v e s).now = s.now := by induction e <;> simp_all [afterEvents]
@[simp] theorem afterEvents_seqs : (afterEvents v e s).seqs = s.seqs := by induction e <;> simp_all [afterEvents]
@[simp] theorem afterEvents_faults : (afterEvents v e s).faults = s.faults := by induction e <;> simp_all [afterEvents]
@[simp] theorem afterEvents_schedule : (afterEvents v e s).schedule = s.schedule := by induction e <;> simp_all [afterEvents]
@[simp] theorem afterEvents_turn : (afterEvents v e s).turn = s.turn := by induction e <;> simp_all [afterEvents]

/-- No event of a WRITE sequence touches OE (R81). -/
theorem afterEvents_oe : (afterEvents v e s).level.oe = s.level.oe := by
  induction e with
  | zero => rfl
  | succ e ih =>
    have := perLine_get_set_ne (afterEvents v e s).level (.driven (writeEvent v e).2) (writeEvent_ne_oe v e).symm
    simpa [afterEvents, PerLine.get, ih] using this

/-- The trace holds the events in their order, newest first. -/
theorem afterEvents_trace : (afterEvents v e s).trace =
    ((List.range e).map fun e => (⟨s.now, s.agent, .set (writeEvent v e).1 (writeEvent v e).2⟩ : TraceEntry)).reverse
      ++ s.trace := by
  induction e with
  | zero => rfl
  | succ e ih => simp [afterEvents, ih, List.range_succ]

end

theorem afterEvents_progress (v : U16) {e : Nat} (s : State) (h : e ≤ 52) : ShiftProgress v e (afterEvents v e s) := by
  induction e with
  | zero => exact .start v s
  | succ e ih => exact (ih (by omega)).next (by omega)

/-- All 52 events in closed form (R81). -/
theorem afterEvents_all (v : U16) (s : State) :
    afterEvents v 52 s = { wroteState v s with mirror := s.mirror } := by
  have hp := afterEvents_progress v s (Nat.le_refl 52)
  have h1 := hp.clk (by omega)
  have h2 := hp.store (by omega)
  have h3 := hp.data (by omega)
  have hl : (afterEvents v 52 s).level =
      { s.level with clk := .driven false, data := .driven (v.getLsbD 0), store := .driven false } := by
    have h4 := afterEvents_oe v 52 s
    revert h1 h2 h3 h4
    generalize (afterEvents v 52 s).level = l
    intro h1 h2 h3 h4
    cases l
    simp_all
  have hc := hp.chain_done
  have ha := hp.latch (by omega)
  have ht := afterEvents_trace v 52 s
  have key : ∀ t : State, t = afterEvents v 52 s → t = { wroteState v s with mirror := s.mirror } := by
    intro t e
    have e1 : t.mirror = s.mirror := by rw [e]; simp
    have e2 : t.oeState = s.oeState := by rw [e]; simp
    have e3 : t.owned = s.owned := by rw [e]; simp
    have e4 : t.life = s.life := by rw [e]; simp
    have e5 : t.lock = s.lock := by rw [e]; simp
    have e6 : t.now = s.now := by rw [e]; simp
    have e7 : t.seqs = s.seqs := by rw [e]; simp
    have e8 : t.faults = s.faults := by rw [e]; simp
    have e9 : t.schedule = s.schedule := by rw [e]; simp
    have e10 : t.turn = s.turn := by rw [e]; simp
    rw [← e] at hl hc ha ht
    clear e
    cases t
    simp only [wroteState, writeTrace] at *
    simp [e1, e2, e3, e4, e5, e6, e7, e8, e9, e10, hl, hc, ha, ht]
  exact key _ rfl

/-- A line event commutes with what it does not touch. -/
theorem lineDone_comm (l : Line) (b : Bool) (s : State) (m : Option U16) (q : Sequencers) :
    lineDone l b { s with mirror := m, seqs := q } = { lineDone l b s with mirror := m, seqs := q } := by
  simp only [lineDone_eq]; rfl

/-- The state before micro-step k of the WRITE sequence of an operation that began it at index f.idx in state s. -/
def writeAt (f : InFlight) (k : Nat) (s : State) : State :=
  { afterEvents f.v (eventsBefore f.wpos.val k) s with
    mirror := if f.wpos.val < k then some f.v else s.mirror
    seqs := s.seqs.set s.agent { s.seq s.agent with op := some { f with idx := f.idx + k } } }

theorem writeAt_zero (f : InFlight) (s : State) : writeAt f 0 s = s.setOp (some f) := by
  simp [writeAt, eventsBefore, afterEvents, State.setOp, State.setSeq]

/-- The end of the WRITE sequence (R81). -/
theorem writeAt_done (f : InFlight) (s : State) :
    writeAt f 53 s = (wroteState f.v s).setOp (some { f with idx := f.idx + 53 }) := by
  have hw : f.wpos.val < 53 := f.wpos.isLt
  have he : eventsBefore f.wpos.val 53 = 52 := by simp [eventsBefore]
  rw [writeAt, he, afterEvents_all]
  simp [wroteState, State.setOp, State.setSeq]

/-- One micro-step of the WRITE sequence. -/
theorem microStep_writeAt {f : InFlight} {k : Nat} {s : State} (hs : (sequenceOf f.instr)[f.idx + k]? = some (.shiftOut k))
    (ho : AllOwned s) : microStep { f with idx := f.idx + k } (writeAt f k s) = .next (writeAt f (k + 1) s) := by
  simp only [microStep, hs, runMicro, microShift]
  by_cases hk : k = f.wpos.val
  · have h1 : eventsBefore f.wpos.val (k + 1) = eventsBefore f.wpos.val k := by simp [eventsBefore, hk]
    have h2 : f.wpos.val < k + 1 := by omega
    rw [if_pos hk]
    simp only [writeAt, h1, h2, if_true, advance, State.setOp, State.setSeq, afterEvents_turn, State.agent, State.seq,
      seqs_get_set_same, seqs_set_set, Nat.add_assoc]
  · rw [if_neg hk]
    have h1 : eventsBefore f.wpos.val (k + 1) = eventsBefore f.wpos.val k + 1 := by
      simp only [eventsBefore]; split <;> split <;> omega
    have h2 : (if k < f.wpos.val then k else k - 1) = eventsBefore f.wpos.val k := by
      simp only [eventsBefore]; split <;> split <;> omega
    have h3 : (f.wpos.val < k + 1) = (f.wpos.val < k) := by simp; omega
    have h4 : (writeAt f k s).owned.get (writeEvent f.v (eventsBefore f.wpos.val k)).1 = true := by
      simp only [writeAt, afterEvents_owned]; rw [ho]; simp
    simp only [h2]
    rw [lineSet_owned h4, thenAdvance]
    congr 1
    rw [writeAt, lineDone_comm, writeAt, h1, afterEvents]
    simp only [advance, State.setOp, State.setSeq, lineDone_turn, afterEvents_turn, State.agent, State.seq,
      seqs_get_set_same, seqs_set_set, h3, Nat.add_assoc]

/-- The rest of a WRITE sequence runs within a turn that is long enough. -/
theorem runTurn_writeAt {f : InFlight} {s : State} (hs : ∀ k, k < 53 → (sequenceOf f.instr)[f.idx + k]? = some (.shiftOut k))
    (ho : AllOwned s) (n j : Nat) : ∀ k, k + j = 53 → runTurn (n + j) (writeAt f k s) = runTurn n (writeAt f 53 s) := by
  induction j with
  | zero => intro k hk; simp [show k = 53 by omega]
  | succ j ih =>
    intro k hk
    have hop : ((writeAt f k s).seq (writeAt f k s).agent).op = some { f with idx := f.idx + k } := by
      simp [writeAt]
    rw [← Nat.add_assoc, runTurn, hop]
    simp only [microStep_writeAt (hs k (by omega)) ho]
    exact ih (k + 1) (by omega)

/-- A whole WRITE sequence within a turn (R79, R81). -/
theorem runTurn_write {f : InFlight} {s : State} (hs : ∀ k, k < 53 → (sequenceOf f.instr)[f.idx + k]? = some (.shiftOut k))
    (ho : AllOwned s) (n : Nat) :
    runTurn (n + 53) (s.setOp (some f)) = runTurn n ((wroteState f.v s).setOp (some { f with idx := f.idx + 53 })) := by
  rw [← writeAt_zero, ← writeAt_done]
  exact runTurn_writeAt hs ho n 53 0 (by omega)

end Sys2Proof.Machine
end

