-- ==== Sys2Proof/Laws/Turn.lean ====
section
/-! SUPPORT. What an issue answers, what one micro-step of a turn does, and the run of a lock-taking operation through its WRITE
sequence. -/

namespace Sys2Proof.Machine

@[simp] theorem setOp_setOp (s : State) (f g : Option InFlight) : (s.setOp f).setOp g = s.setOp g := by
  simp [State.setOp, State.setSeq]

@[simp] theorem returnResult_setOp (s : State) (f : Option InFlight) (r : OpResult) :
    returnResult r (s.setOp f) = returnResult r s := by
  simp [returnResult, State.setOp, State.setSeq]

@[simp] theorem raiseFault_setOp (s : State) (f : Option InFlight) (c : FaultCode) (w : OpWord) :
    raiseFault c w (s.setOp f) = raiseFault c w s := by
  simp [raiseFault, State.setOp, State.setSeq]

@[simp] theorem advance_setOp (s : State) (f : InFlight) (g : Option InFlight) :
    advance f (s.setOp g) = s.setOp (some { f with idx := f.idx + 1 }) := by
  simp [advance]

@[simp] theorem startWrite_setOp (s : State) (f : InFlight) (g : Option InFlight) (v : U16) :
    startWrite v f (s.setOp g) = s.setOp (some { f with v := v, wpos := s.turn.wpos, idx := f.idx + 1 }) := by
  simp [startWrite]

/-- The operation in flight is the one just put there. -/
theorem op_setOp (s : State) (f : Option InFlight) : ((s.setOp f).seq (s.setOp f).agent).op = f := by simp

/-! ### Issue -/

theorem admission_passes {i : Instr} {life : State → Option FaultCode} {s : State} (hw : i.wellFormed = true)
    (hr : hostOnly i = true → s.agent = .host) : admission i life s = life s := by
  by_cases h : hostOnly i = true
  · simp [admission, hw, show s.turn.agent = .host from hr h]
  · simp [admission, hw, h]

theorem operate_fault {i : Instr} {life : State → Option FaultCode} {atOnce : State → Option OpResult} {s : State}
    {c : FaultCode} (hi : MayIssue s) (h : admission i life s = some c) :
    operate i life atOnce s = .next (raiseFault c (encode i) s) := by
  have hi' : (s.seq s.agent).ready = true := hi
  simp only [operate, hi', if_true, h]

theorem operate_atOnce {i : Instr} {life : State → Option FaultCode} {atOnce : State → Option OpResult} {s : State}
    {r : OpResult} (hi : MayIssue s) (h : admission i life s = none) (ha : atOnce s = some r) :
    operate i life atOnce s = .next (returnResult r s) := by
  have hi' : (s.seq s.agent).ready = true := hi
  simp only [operate, hi', if_true, h, ha]

theorem operate_run {i : Instr} {life : State → Option FaultCode} {atOnce : State → Option OpResult} {s : State}
    (hi : MayIssue s) (h : admission i life s = none) (ha : atOnce s = none) :
    operate i life atOnce s = runTurn s.turn.budget (s.setOp (some (inFlightOf i))) := by
  have hi' : (s.seq s.agent).ready = true := hi
  simp only [operate, hi', if_true, h, ha]

theorem lifecycleReady_open {s : State} (h : Open s) : lifecycleReady s = none := by
  simp [lifecycleReady, h.1, h.2]

/-! ### Micro-steps within a turn -/

theorem runTurn_idle {s : State} (h : (s.seq s.agent).op = none) (n : Nat) : runTurn n s = .next s := by
  cases n <;> simp only [runTurn]
  simp only [h]

theorem runTurn_micro {s t : State} {f : InFlight} {m : Micro} (hs : (sequenceOf f.instr)[f.idx]? = some m)
    (h : runMicro f m (s.setOp (some f)) = .next t) (n : Nat) : runTurn (n + 1) (s.setOp (some f)) = runTurn n t := by
  rw [runTurn, op_setOp]
  simp only [microStep, hs, h]

/-- `LockAcquire` of a free lock (R56). -/
theorem runTurn_lock {s : State} {f : InFlight} (hs : (sequenceOf f.instr)[f.idx]? = some .lockAcquire) (hl : s.lock = .free)
    (n : Nat) : runTurn (n + 1) (s.setOp (some f)) =
      runTurn n (({ s with lock := .held s.agent } : State).setOp (some { f with idx := f.idx + 1 })) := by
  refine runTurn_micro hs ?_ n
  simp [runMicro, microLockAcquire, hl, advance, State.setOp, State.setSeq]

/-- `LockRelease` by the holder, and the return (R56). -/
theorem runTurn_unlock {s : State} {f : InFlight} {r : OpResult} (hs : (sequenceOf f.instr)[f.idx]? = some (.lockRelease r))
    (hl : s.lock = .held s.agent) (n : Nat) :
    runTurn (n + 1) (s.setOp (some f)) = .next (returnResult r { s with lock := .free }) := by
  have h : runMicro f (.lockRelease r) (s.setOp (some f)) = .next (returnResult r { s with lock := .free }) := by
    have h1 : s.lock = .held s.turn.agent := hl
    simp [runMicro, lockRelease, h1, returnResult, State.setOp, State.setSeq]
  rw [runTurn_micro hs h]
  exact runTurn_idle (by simp) n

/-- From the start of its WRITE sequence on, a lock-taking operation that returns after it ends with the register written and the
lock free (R79, R81). -/
theorem runTurn_write_unlock {s : State} {f : InFlight} {r : OpResult}
    (hs : ∀ k, k < 53 → (sequenceOf f.instr)[f.idx + k]? = some (.shiftOut k))
    (hu : (sequenceOf f.instr)[f.idx + 53]? = some (.lockRelease r)) (ho : AllOwned s) (hl : s.lock = .held s.agent) (n : Nat) :
    runTurn (n + 54) (s.setOp (some f)) = .next (returnResult r { wroteState f.v s with lock := .free }) := by
  rw [show n + 54 = (n + 1) + 53 by omega, runTurn_write hs ho]
  exact runTurn_unlock (s := wroteState f.v s) (f := { f with idx := f.idx + 53 }) hu hl n

/-- The register written under the lock, once the lock is free again, is the register written. -/
theorem wroteState_lock {s : State} (h : s.lock = .free) (l : Lock) (v : U16) :
    { wroteState v { s with lock := l } with lock := .free } = wroteState v s := by
  simp [wroteState, writeTrace, h]

/-! ### The micro-steps of INIT and TEARDOWN (R86, R90) -/

theorem runTurn_setLife {s : State} {f : InFlight} {l : Lifecycle} {n : Nat}
    (h : (sequenceOf f.instr)[f.idx]? = some (.setLife l)) : runTurn (n + 1) (s.setOp (some f)) =
      runTurn n (({ s with life := l } : State).setOp (some { f with idx := f.idx + 1 })) := by
  refine runTurn_micro h ?_ n
  simp [runMicro, advance, State.setOp, State.setSeq]

theorem runTurn_load {s : State} {f : InFlight} {v : U16} {n : Nat} (h : (sequenceOf f.instr)[f.idx]? = some (.load v)) :
    runTurn (n + 1) (s.setOp (some f)) =
      runTurn n (s.setOp (some { f with v := v, wpos := s.turn.wpos, idx := f.idx + 1 })) := by
  refine runTurn_micro h ?_ n
  simp [runMicro]

theorem runTurn_acquire {s : State} {f : InFlight} {l : Line} {n : Nat}
    (h : (sequenceOf f.instr)[f.idx]? = some (.acquire l)) (hg : s.turn.grant.get l = true) :
    runTurn (n + 1) (s.setOp (some f)) = runTurn n ((acquireLine l s).setOp (some { f with idx := f.idx + 1 })) := by
  refine runTurn_micro h ?_ n
  have hg' : (s.setOp (some f)).turn.grant.get l = true := hg
  simp only [runMicro, microAcquire, hg', if_true]
  congr 1
  simp [advance, acquireLine, State.log, State.setOp, State.setSeq]

theorem runTurn_denied {s : State} {f : InFlight} {l : Line} {n : Nat}
    (h : (sequenceOf f.instr)[f.idx]? = some (.acquire l)) (hg : s.turn.grant.get l = false) :
    runTurn (n + 1) (s.setOp (some f)) =
      runTurn n ((s.log (.acquire l false)).setOp (some { f with idx := initFailIdx })) := by
  refine runTurn_micro h ?_ n
  have hg' : (s.setOp (some f)).turn.grant.get l = false := hg
  simp only [runMicro, microAcquire, hg']
  simp [State.log, State.setOp, State.setSeq]

theorem runTurn_release {s : State} {f : InFlight} {l : Line} {n : Nat}
    (h : (sequenceOf f.instr)[f.idx]? = some (.release l)) :
    runTurn (n + 1) (s.setOp (some f)) = runTurn n ((releaseLine l s).setOp (some { f with idx := f.idx + 1 })) := by
  refine runTurn_micro h ?_ n
  simp only [runMicro]
  congr 1
  unfold releaseLine
  split
  · rename_i h1
    have h1' : s.owned.get l = true := h1
    simp [h1', advance, State.setOp, State.setSeq, State.log]
  · rename_i h1
    have h1' : ¬ s.owned.get l = true := h1
    simp [h1', advance, State.setOp, State.setSeq]

theorem runTurn_oeOn {s : State} {f : InFlight} {n : Nat} (h : (sequenceOf f.instr)[f.idx]? = some .oeOn)
    (ho : s.owned.oe = true) : runTurn (n + 1) (s.setOp (some f)) =
      runTurn n (({ lineDone .oe true s with oeState := true } : State).setOp (some { f with idx := f.idx + 1 })) := by
  refine runTurn_micro h ?_ n
  have ho' : (s.setOp (some f)).owned.get .oe = true := ho
  simp only [runMicro, driveOe, lineSet_owned ho', thenAdvance]
  congr 1
  simp [lineDone_eq, advance, State.setOp, State.setSeq]

/-! ### The sequences -/

theorem seqRaw_shift (v : U16) {k : Nat} (h : k < 53) : (seqWrite v)[2 + k]? = some (.shiftOut k) := by
  have : (seqWrite v)[2 + k]? = (writeSteps ++ [Micro.lockRelease (.ok .nothing)])[k]? := by
    simp [seqWrite, show 2 + k = k + 2 by omega]
  rw [this, List.getElem?_append_left (by rw [writeSteps_length]; exact h), writeSteps_get h]

theorem seqPort_shift {k : Nat} (h : k < 53) : seqSetport[4 + k]? = some (.shiftOut k) := by
  have : seqSetport[4 + k]? = (writeSteps ++ [Micro.lockRelease (.ok .nothing)])[k]? := by
    simp [seqSetport, show 4 + k = k + 4 by omega]
  rw [this, List.getElem?_append_left (by rw [writeSteps_length]; exact h), writeSteps_get h]

theorem seqInit_shift {k : Nat} (h : k < 53) : seqInit[7 + k]? = some (.shiftOut k) := by
  have : seqInit[7 + k]? = (writeSteps ++ ([.oeOn, .setLife .ready, .lockRelease (.ok .nothing)]
    ++ [.release .clk, .release .data, .release .store, .release .oe, .setLife .down, .lockRelease .resourceUnavailable]))[k]? := by
    simp [seqInit, show 7 + k = k + 7 by omega]
  rw [this, List.getElem?_append_left (by rw [writeSteps_length]; exact h), writeSteps_get h]

theorem seqRaw_end (v : U16) : (seqWrite v)[55]? = some (.lockRelease (.ok .nothing)) := rfl
theorem seqPort_end : seqSetport[57]? = some (.lockRelease (.ok .nothing)) := rfl
theorem seqSetraw_eq (v : U16) : seqSetraw v = seqWrite v := rfl
theorem seqCssetport_eq : seqCssetport = seqSetport := rfl

end Sys2Proof.Machine
end

