-- ==== Sys2Proof/Laws/Exec.lean ====
section
/-! SUPPORT. Each operation's meaning as its issue: admission, what it returns at once, and its micro-steps. -/

namespace Sys2Proof.Machine

theorem exec_init (s : State) : exec .init s = operate .init lifecycleInit noCheck s := rfl
theorem exec_teardown (s : State) : exec .teardown s = operate .teardown lifecycleTeardown teardownAtOnce s := rfl
theorem exec_write (v : U16) (s : State) : exec (.write v) s = operate (.write v) lifecycleReady noCheck s := rfl
theorem exec_setport (p : BitVec 4) (nb : BitVec 2) (s : State) :
    exec (.setport p nb) s = operate (.setport p nb) lifecycleReady (checkPort p) s := rfl
theorem exec_setraw (v : U16) (s : State) : exec (.setraw v) s = operate (.setraw v) lifecycleReady noCheck s := rfl
theorem exec_setoe (on : Bool) (s : State) : exec (.setoe on) s = operate (.setoe on) lifecycleReady noCheck s := rfl
theorem exec_readraw (s : State) : exec .readraw s = operate .readraw lifecycleReady noCheck s := rfl
theorem exec_readport (p : BitVec 4) (s : State) :
    exec (.readport p) s = operate (.readport p) lifecycleReady (checkPort p) s := rfl
theorem exec_readoe (s : State) : exec .readoe s = operate .readoe lifecycleReady noCheck s := rfl
theorem exec_readid (s : State) : exec .readid s = operate .readid lifecycleReady noCheck s := rfl
theorem exec_cssetport (p : BitVec 4) (n : U16) (s : State) :
    exec (.cssetport p n) s = operate (.cssetport p n) lifecycleReady (checkPort p) s := rfl

/-- The lifecycle check of each operation (R123). -/
def lifecycleOf : Instr → State → Option FaultCode
  | .init => lifecycleInit
  | .teardown => lifecycleTeardown
  | .write _ => lifecycleReady
  | .setport _ _ => lifecycleReady
  | .setraw _ => lifecycleReady
  | .setoe _ => lifecycleReady
  | .readraw => lifecycleReady
  | .readport _ => lifecycleReady
  | .readoe => lifecycleReady
  | .readid => lifecycleReady
  | .cssetport _ _ => lifecycleReady

/-- What each operation returns at once (R90, R100, R110, R113). -/
def atOnceOf : Instr → State → Option OpResult
  | .init => noCheck
  | .teardown => teardownAtOnce
  | .write _ => noCheck
  | .setport p _ => checkPort p
  | .setraw _ => noCheck
  | .setoe _ => noCheck
  | .readraw => noCheck
  | .readport p => checkPort p
  | .readoe => noCheck
  | .readid => noCheck
  | .cssetport p _ => checkPort p

/-- Every meaning is the one shared operation with its own checks. -/
theorem exec_eq (i : Instr) (s : State) : exec i s = operate i (lifecycleOf i) (atOnceOf i) s := by
  cases i <;> rfl

end Sys2Proof.Machine
end

