-- ==== Sys2Proof/Laws/Micro.lean ====
section
/-! SUPPORT. Everything one micro-step can do, said once: if it answers a next state, that state is one of these. -/

namespace Sys2Proof.Machine

/-- The line event of micro-step k of a WRITE sequence whose mirror update is not k (R79, R80). -/
def eventOf (f : InFlight) (k : Nat) : Line × Bool := writeEvent f.v (if k < f.wpos.val then k else k - 1)

theorem microShift_event {f : InFlight} {k : Nat} {s : State} (hk : k ≠ f.wpos.val) :
    microShift k f s = thenAdvance f (lineSet (eventOf f k).1 (eventOf f k).2 s) := by
  rw [microShift, if_neg hk]; rfl

/-- What each micro-step of the operation f in flight can do from s, by its kind. -/
inductive MicroEffect (f : InFlight) (s : State) : Micro → State → Prop where
  | locked (h : s.lock = .free) : MicroEffect f s .lockAcquire (advance f { s with lock := .held s.agent })
  | blocked (h : s.lock ≠ .free) : MicroEffect f s .lockAcquire s
  | lifeSet (l : Lifecycle) : MicroEffect f s (.setLife l) (advance f { s with life := l })
  | granted (l : Line) (h : s.turn.grant.get l = true) : MicroEffect f s (.acquire l) (advance f (acquireLine l s))
  | denied (l : Line) (h : s.turn.grant.get l = false) :
      MicroEffect f s (.acquire l) ((s.log (.acquire l false)).setOp (some { f with idx := initFailIdx }))
  | loaded (v : U16) : MicroEffect f s (.load v) (startWrite v f s)
  | delayed (m : U16) (hm : s.mirror = some m) (h : needDelay (field m f.p) f.nb = true) :
      MicroEffect f s .readField (s.setOp (some { f with t0 := s.now, idx := f.idx + 1 }))
  | undelayed (m : U16) (hm : s.mirror = some m) (h : needDelay (field m f.p) f.nb = false) :
      MicroEffect f s .readField (s.setOp (some { f with idx := f.idx + 2 }))
  | settled (h : f.t0 + 300 ≤ s.now + s.turn.elapse) : MicroEffect f s .waitSettled (advance f (tick s.turn.elapse s))
  | waiting (h : s.now + s.turn.elapse < f.t0 + 300) : MicroEffect f s .waitSettled (tick s.turn.elapse s)
  | merged (m : U16) (hm : s.mirror = some m) : MicroEffect f s .merge (startWrite (mergeField m f.p f.nb) f s)
  | mirrored : MicroEffect f s (.shiftOut f.wpos.val) (advance f { s with mirror := some f.v })
  | shifted (k : Nat) (hk : k ≠ f.wpos.val) (h : s.owned.get (eventOf f k).1 = true) :
      MicroEffect f s (.shiftOut k) (advance f (lineDone (eventOf f k).1 (eventOf f k).2 s))
  | oeRaised (h : s.owned.oe = true) : MicroEffect f s .oeOn (advance f { lineDone .oe true s with oeState := true })
  | oeDriven (on : Bool) (h : s.owned.oe = true) :
      MicroEffect f s (.setOe on) (returnResult (.ok .nothing) { lineDone .oe on s with oeState := on })
  | released (l : Line) : MicroEffect f s (.release l) (advance f (releaseLine l s))
  | unlocked (r : OpResult) (h : s.lock = .held s.agent) :
      MicroEffect f s (.lockRelease r) (returnResult r { s with lock := .free })
  | repliedRaw (m : U16) (hm : s.mirror = some m) : MicroEffect f s .replyRaw (returnResult (.ok (.raw m)) s)
  | repliedPort (m : U16) (c : VoltageClass) (hm : s.mirror = some m) (h : dec (field m f.p) ≠ .undefined)
      (hc : voltageOf (dec (field m f.p)) = some c) : MicroEffect f s .replyPort (returnResult (.ok (.port c)) s)
  | undefinedPort (m : U16) (hm : s.mirror = some m) (h : dec (field m f.p) = .undefined) :
      MicroEffect f s .replyPort (raiseFault .undefinedPortState (encode f.instr) s)
  | repliedOe : MicroEffect f s .replyOe (returnResult (.ok (.oe s.oeState)) s)
  | repliedId : MicroEffect f s .replyId (returnResult (.ok (.id Config.idString)) s)

theorem voltageOf_eq_none {x : PortState} : voltageOf x = none ↔ x = .undefined := by cases x <;> simp [voltageOf]

theorem runMicro_effect {f : InFlight} {m : Micro} {s t : State} (h : runMicro f m s = .next t) : MicroEffect f s m t := by
  cases m <;> simp only [runMicro] at h
  case lockAcquire =>
    by_cases hl : s.lock = .free
    · simp only [microLockAcquire, hl, if_true, Host.Outcome.next.injEq] at h
      subst h; exact .locked hl
    · simp only [microLockAcquire, hl, if_false, Host.Outcome.next.injEq] at h
      subst h; exact .blocked hl
  case setLife l => cases h; exact .lifeSet l
  case acquire l =>
    cases hg : s.turn.grant.get l <;> simp [microAcquire, hg] at h <;> subst h
    · exact .denied l hg
    · exact .granted l hg
  case load v => cases h; exact .loaded v
  case readField =>
    cases hm : s.mirror with
    | none => simp [microReadField, hm] at h
    | some m =>
      cases hd : needDelay (field m f.p) f.nb <;> simp [microReadField, hm, hd] at h <;> subst h
      · exact .undelayed m hm hd
      · exact .delayed m hm hd
  case waitSettled =>
    by_cases hc : f.t0 + 300 ≤ s.now + s.turn.elapse
    · simp only [microWait, tick_now, Config.settleDelayMs, hc, if_true, Host.Outcome.next.injEq] at h
      subst h; exact .settled hc
    · simp only [microWait, tick_now, Config.settleDelayMs, hc, if_false, Host.Outcome.next.injEq] at h
      subst h; exact .waiting (by omega)
  case merge =>
    cases hm : s.mirror with
    | none => simp [microMerge, hm] at h
    | some m => simp [microMerge, hm] at h; subst h; exact .merged m hm
  case shiftOut k =>
    by_cases hk : k = f.wpos.val
    · simp only [microShift, hk, if_true, Host.Outcome.next.injEq] at h
      subst h; subst hk; exact .mirrored
    · cases ho : s.owned.get (eventOf f k).1 with
      | false => rw [microShift_event hk, lineSet_not_owned ho] at h; cases h
      | true => rw [microShift_event hk, lineSet_owned ho] at h; cases h; exact .shifted k hk ho
  case oeOn =>
    cases ho : s.owned.get .oe with
    | false => simp [driveOe, lineSet_not_owned ho, thenAdvance] at h
    | true =>
      simp only [driveOe, lineSet_owned ho, thenAdvance, Host.Outcome.next.injEq] at h
      subst h; exact .oeRaised ho
  case setOe on =>
    cases ho : s.owned.get .oe with
    | false => simp [microSetOe, driveOe, lineSet_not_owned ho] at h
    | true =>
      simp only [microSetOe, driveOe, lineSet_owned ho, Host.Outcome.next.injEq] at h
      subst h; exact .oeDriven on ho
  case release l => cases h; exact .released l
  case lockRelease r =>
    by_cases hl : s.lock = .held s.agent
    · rw [lockRelease, if_pos hl] at h; cases h; exact .unlocked r hl
    · rw [lockRelease, if_neg hl] at h; cases h
  case replyRaw =>
    cases hm : s.mirror with
    | none => simp [microReplyRaw, hm] at h
    | some m => simp only [microReplyRaw, hm, Host.Outcome.next.injEq] at h; subst h; exact .repliedRaw m hm
  case replyPort =>
    cases hm : s.mirror with
    | none => simp [microReplyPort, hm] at h
    | some m =>
      cases hc : voltageOf (dec (field m f.p)) with
      | none =>
        simp only [microReplyPort, hm, hc, Host.Outcome.next.injEq] at h
        subst h; exact .undefinedPort m hm (voltageOf_eq_none.mp hc)
      | some c =>
        simp only [microReplyPort, hm, hc, Host.Outcome.next.injEq] at h
        subst h; exact .repliedPort m c hm (fun e => by simp [voltageOf_eq_none.mpr e] at hc) hc
  case replyOe => cases h; exact .repliedOe
  case replyId => cases h; exact .repliedId

/-- A micro-step of a turn has one of these effects. -/
theorem microStep_effect {f : InFlight} {s t : State} (h : microStep f s = .next t) :
    ∃ m, (sequenceOf f.instr)[f.idx]? = some m ∧ MicroEffect f s m t := by
  unfold microStep at h
  cases hm : (sequenceOf f.instr)[f.idx]? with
  | none => simp [hm] at h
  | some m => simp only [hm] at h; exact ⟨m, rfl, runMicro_effect h⟩

end Sys2Proof.Machine
end

