-- ==== Sys2Proof/Laws/Frame.lean ====
section
/-! SUPPORT. What a turn leaves alone, whatever the operation: the turn, the schedule, the other agents' sequencers, the records of
the fault set, and time but for what the turn lets pass. -/

namespace Sys2Proof.Machine

/-- What every micro-step, and so every turn, of the agent whose turn it is in s leaves alone in t. -/
structure Frame (s t : State) : Prop where
  turn : t.turn = s.turn
  schedule : t.schedule = s.schedule
  faults : ∀ r, r ∈ s.faults → r ∈ t.faults
  stopped : ∀ a, (s.seq a).stopped = true → (t.seq a).stopped = true
  others : ∀ a, a ≠ s.agent → t.seq a = s.seq a
  now : s.now ≤ t.now
  elapse : t.now ≠ s.now → 0 < s.turn.elapse

theorem Frame.refl (s : State) : Frame s s :=
  ⟨rfl, rfl, fun _ h => h, fun _ h => h, fun _ _ => rfl, Nat.le_refl _, fun h => absurd rfl h⟩

theorem Frame.trans {s t u : State} (h : Frame s t) (k : Frame t u) : Frame s u := by
  have ha : t.agent = s.agent := by simp [h.turn]
  refine ⟨by rw [k.turn, h.turn], by rw [k.schedule, h.schedule], fun r hr => k.faults r (h.faults r hr),
    fun a ha => k.stopped a (h.stopped a ha), fun a hn => ?_, Nat.le_trans h.now k.now, fun hn => ?_⟩
  · rw [k.others a (by rw [ha]; exact hn), h.others a hn]
  · by_cases c : t.now = s.now
    · have := k.elapse (by rw [c]; exact hn)
      rwa [h.turn] at this
    · exact h.elapse c

/-- Block state may change in any way. -/
theorem Frame.ofSeqs {s t : State} (h1 : t.turn = s.turn) (h2 : t.schedule = s.schedule) (h3 : t.faults = s.faults)
    (h4 : t.seqs = s.seqs) (h5 : t.now = s.now) : Frame s t :=
  ⟨h1, h2, fun _ h => by rwa [h3], fun a h => by simpa [h4] using h, fun a _ => by simp [h4], by omega,
    fun h => absurd h5 h⟩

/-- So may the agent's own sequencer, but for its stopped mark. -/
theorem Frame.setSeq {s t : State} {x : Sequencer} (h : Frame s t) (hx : x.stopped = (t.seq t.agent).stopped) :
    Frame s (t.setSeq t.agent x) := by
  have ha : t.turn = s.turn := h.turn
  refine ⟨h.turn, h.schedule, h.faults, fun a h1 => ?_, fun a h1 => ?_, h.now, h.elapse⟩
  · have h2 := h.stopped a h1
    simp only [setSeq_seqs, seq_eq, agent_eq, seqs_get_set] at h2 hx ⊢
    split
    · subst a; rw [hx]; exact h2
    · exact h2
  · have := h.others a h1
    simp only [setSeq_seqs, seq_eq, agent_eq, ha] at this h1 ⊢
    rw [seqs_get_set_ne _ _ h1]; exact this

theorem Frame.setOp {s t : State} (f : Option InFlight) (h : Frame s t) : Frame s (t.setOp f) :=
  h.setSeq rfl

theorem Frame.returnResult {s t : State} (r : OpResult) (h : Frame s t) : Frame s (returnResult r t) :=
  h.setSeq rfl

theorem Frame.raiseFault (c : FaultCode) (w : OpWord) (s : State) : Frame s (raiseFault c w s) := by
  refine ⟨rfl, rfl, fun r h => by simp [h], fun a h1 => ?_, fun a h1 => ?_, Nat.le_refl _, fun h => absurd rfl h⟩
  · simp only [raiseFault_seqs, seq_eq, agent_eq, seqs_get_set] at h1 ⊢
    split
    · rfl
    · exact h1
  · simp only [raiseFault_seqs, seq_eq, agent_eq] at h1 ⊢
    rw [seqs_get_set_ne _ _ h1]

theorem Frame.tick (s : State) : Frame s (tick s.turn.elapse s) :=
  ⟨rfl, rfl, fun _ h => h, fun _ h => h, fun _ _ => rfl, by simp, by intro h; simp at h; omega⟩

theorem microStep_frame {f : InFlight} {s t : State} (h : microStep f s = .next t) : Frame s t := by
  obtain ⟨m, -, hm⟩ := microStep_effect h
  cases hm with
  | locked | lifeSet | granted | mirrored | shifted | oeRaised | released | denied =>
    refine (Frame.ofSeqs ?_ ?_ ?_ ?_ ?_).setOp _ <;> simp
  | blocked => exact .refl _
  | loaded | delayed | undelayed | merged => exact (Frame.refl _).setOp _
  | settled => exact (Frame.tick _).setOp _
  | waiting => exact .tick _
  | oeDriven | unlocked => refine (Frame.ofSeqs ?_ ?_ ?_ ?_ ?_).returnResult _ <;> simp
  | undefinedPort => exact .raiseFault _ _ _
  | _ => exact (Frame.refl _).returnResult _

theorem runTurn_frame {n : Nat} {s t : State} (h : runTurn n s = .next t) : Frame s t := by
  induction n generalizing s with
  | zero => cases h; exact .refl _
  | succ n ih =>
    rw [runTurn] at h
    cases ho : (s.seq s.agent).op with
    | none => simp only [ho] at h; cases h; exact .refl _
    | some f =>
      simp only [ho] at h
      cases hm : microStep f s with
      | next u => simp only [hm] at h; exact (microStep_frame hm).trans (ih h)
      | fault r => simp [hm] at h
      | refused r => simp [hm] at h

theorem exec_frame {i : Instr} {s t : State} (h : exec i s = .next t) : Frame s t := by
  rw [exec_eq] at h
  unfold operate at h
  split at h
  · split at h
    · cases h; exact .raiseFault _ _ _
    · split at h
      · cases h; exact (Frame.refl s).returnResult _
      · exact ((Frame.refl s).setOp _).trans (runTurn_frame h)
  · cases h

/-- A request that issues an operation is that operation's meaning. -/
theorem serve_of_issues {r : Request} {i : Instr} (s : State) (h : r.issues = some i) : serve r s = exec i s := by
  cases r with
  | word w =>
    change serveWord w s = _
    unfold Request.issues at h
    unfold serveWord
    cases hd : decode w <;> simp only [hd, Option.some.injEq, reduceCtorEq] at h ⊢
    rw [h]
  | read e => cases h; rfl
  | writeRaw x =>
    change serveWriteRaw x s = _
    unfold Request.issues at h
    unfold serveWriteRaw
    cases hp : Config.rawParse x with
    | none => simp only [hp, reduceCtorEq] at h
    | some n =>
      simp only [hp] at h ⊢
      split at h
      · cases h
      · rename_i hc; rw [if_neg hc]; exact congrArg (exec · s) (Option.some.inj h)
  | writeOe x =>
    obtain ⟨b, hb, rfl⟩ := Option.map_eq_some_iff.mp h
    change serveWriteOe x s = _
    simp only [serveWriteOe, hb]
  | writePort p x => cases h; rfl

/-- A request that issues none is a word that spells none, or a text that is rejected. -/
theorem serve_of_not_issues {r : Request} (s : State) (h : r.issues = none) :
    (∃ w, r = .word w ∧ serve r s = .next (raiseFault .illegalOp w s)) ∨ serve r s = .next (returnResult .invalidArgument s) := by
  cases r with
  | word w =>
    refine .inl ⟨w, rfl, ?_⟩
    change serveWord w s = _
    unfold Request.issues at h
    unfold serveWord
    cases hd : decode w <;> simp only [hd, reduceCtorEq] at h ⊢
  | read e => cases h
  | writeRaw x =>
    refine .inr ?_
    change serveWriteRaw x s = _
    unfold Request.issues at h
    unfold serveWriteRaw
    cases hp : Config.rawParse x with
    | none => rfl
    | some n =>
      simp only [hp] at h ⊢
      split at h
      · rename_i hc; rw [if_pos hc]
      · cases h
  | writeOe x =>
    refine .inr ?_
    change serveWriteOe x s = _
    rw [serveWriteOe, Option.map_eq_none_iff.mp h]
  | writePort p x => cases h

theorem serve_frame {r : Request} {s t : State} (h : serve r s = .next t) : Frame s t := by
  cases hi : r.issues with
  | some i => rw [serve_of_issues s hi] at h; exact exec_frame h
  | none =>
    rcases serve_of_not_issues s hi with ⟨w, -, hw⟩ | hw <;> rw [hw] at h <;> cases h
    · exact .raiseFault _ _ _
    · exact (Frame.refl s).returnResult _

theorem takeTurn_frame {u : Turn} {s t : State} (h : takeTurn u s = .next t) : Frame { s with turn := u } t := by
  unfold takeTurn at h
  dsimp only at h
  split at h
  · cases h; exact .refl _
  · split at h
    · exact runTurn_frame h
    · unfold issueNext at h
      split at h
      · cases h; exact .refl _
      · refine Frame.trans ?_ (serve_frame h)
        exact (Frame.refl _).setSeq rfl

/-- One step of a run (Host/Core.lean). -/
theorem run_next (M : Host.Core) (n : Nat) (s t : M.State) (h : M.step s = .next t) : M.run (n + 1) s = M.run n t := by
  simp only [Host.Core.run, h]

end Sys2Proof.Machine
end

