-- ==== Sys2Proof/Laws/PerInstr.lean ====
section
/-! SUPPORT. Facts about every operation as syntax, one lemma per constructor of Instr. -/

namespace Sys2Proof.Laws.OpcodeField

/-- The OP field of an operation's word is the opcode its row of the table gives it (30_encoding.md R65), and the word's other
fields are zero where the row marks them so (R63). -/
def Statement (i : Instr) : Prop :=
  match i with
  | .init => (encode i).op = 0x1#4 ∧ (encode i).a = 0#4 ∧ (encode i).b = 0#8 ∧ (encode i).v = 0#16
  | .teardown => (encode i).op = 0x2#4 ∧ (encode i).a = 0#4 ∧ (encode i).b = 0#8 ∧ (encode i).v = 0#16
  | .write v => (encode i).op = 0x3#4 ∧ (encode i).a = 0#4 ∧ (encode i).b = 0#8 ∧ (encode i).v = v
  | .setport p nb => (encode i).op = 0x4#4 ∧ (encode i).a = p ∧ (encode i).b.toNat = nb.toNat ∧ (encode i).v = 0#16
  | .setraw v => (encode i).op = 0x5#4 ∧ (encode i).a = 0#4 ∧ (encode i).b = 0#8 ∧ (encode i).v = v
  | .setoe on => (encode i).op = 0x6#4 ∧ (encode i).a = 0#4 ∧ (encode i).b.toNat = on.toNat ∧ (encode i).v = 0#16
  | .readraw => (encode i).op = 0x7#4 ∧ (encode i).a = 0#4 ∧ (encode i).b = 0#8 ∧ (encode i).v = 0#16
  | .readport p => (encode i).op = 0x8#4 ∧ (encode i).a = p ∧ (encode i).b = 0#8 ∧ (encode i).v = 0#16
  | .readoe => (encode i).op = 0x9#4 ∧ (encode i).a = 0#4 ∧ (encode i).b = 0#8 ∧ (encode i).v = 0#16
  | .readid => (encode i).op = 0xA#4 ∧ (encode i).a = 0#4 ∧ (encode i).b = 0#8 ∧ (encode i).v = 0#16
  | .cssetport p n => (encode i).op = 0xB#4 ∧ (encode i).a = p ∧ (encode i).b = 0#8 ∧ (encode i).v = n

theorem init : Statement .init := by simp [Statement, encode]
theorem teardown : Statement .teardown := by simp [Statement, encode]
theorem write (v : U16) : Statement (.write v) := by simp [Statement, encode]
theorem setport (p : BitVec 4) (nb : BitVec 2) : Statement (.setport p nb) := by
  refine ⟨pack_op .., pack_a .., ?_, pack_v ..⟩
  simp only [encode, pack_b, append_toNat]; simp
theorem setraw (v : U16) : Statement (.setraw v) := by simp [Statement, encode]
theorem setoe (on : Bool) : Statement (.setoe on) := by
  refine ⟨pack_op .., pack_a .., ?_, pack_v ..⟩
  simp only [encode, pack_b, append_toNat]; cases on <;> simp
theorem readraw : Statement .readraw := by simp [Statement, encode]
theorem readport (p : BitVec 4) : Statement (.readport p) := by simp [Statement, encode]
theorem readoe : Statement .readoe := by simp [Statement, encode]
theorem readid : Statement .readid := by simp [Statement, encode]
theorem cssetport (p : BitVec 4) (n : U16) : Statement (.cssetport p n) := by simp [Statement, encode]

end Sys2Proof.Laws.OpcodeField
end

