-- ==== Sys2Proof/Laws/Phase.lean ====
section
/-! SUPPORT. How the phases of Safety.lean carry over: what they depend on, and what one micro-step of a WRITE sequence does to its
own. -/

namespace Sys2Proof.Machine

/-- All that `Coherent` and a WRITE sequence look at is the same. -/
structure RegSame (s t : State) : Prop where
  mirror : t.mirror = s.mirror
  chain : t.chain = s.chain
  latch : t.latch = s.latch
  owned : t.owned = s.owned
  clk : t.level.clk = s.level.clk
  data : t.level.data = s.level.data
  store : t.level.store = s.level.store

/-- Nothing but sequencers, the lock, time, faults and the trace may differ. -/
structure DataSame (s t : State) : Prop where
  mirror : t.mirror = s.mirror
  chain : t.chain = s.chain
  latch : t.latch = s.latch
  owned : t.owned = s.owned
  level : t.level = s.level
  oeState : t.oeState = s.oeState
  life : t.life = s.life

theorem RegSame.refl (s : State) : RegSame s s := ⟨rfl, rfl, rfl, rfl, rfl, rfl, rfl⟩

theorem DataSame.reg {s t : State} (h : DataSame s t) : RegSame s t :=
  ⟨h.mirror, h.chain, h.latch, h.owned, by rw [h.level], by rw [h.level], by rw [h.level]⟩

theorem Coherent.keep {s t : State} (h : Coherent s) (r : RegSame s t) : Coherent t :=
  ⟨by rw [r.mirror, r.latch]; exact h.latch, by rw [r.chain, r.latch]; exact h.chain, by rw [r.clk]; exact h.clk,
    by rw [r.data, r.latch]; exact h.data, by rw [r.store]; exact h.store⟩

theorem WritePhase.keep {f : InFlight} {k : Nat} {s t : State} (h : WritePhase f k s) (r : RegSame s t) : WritePhase f k t :=
  ⟨by rw [AllOwned, r.owned]; exact h.owned, h.progress.congr r.clk r.data r.store r.chain r.latch,
    by rw [r.mirror]; exact h.mirror⟩

/-- A WRITE sequence's phase depends on its value, its draw and its micro-step only. -/
theorem WritePhase.cast {f g : InFlight} {k l : Nat} {s : State} (h : WritePhase f k s) (hv : g.v = f.v) (hw : g.wpos = f.wpos)
    (hk : l = k) : WritePhase g l s := by
  subst hk
  exact ⟨h.owned, by rw [hv, hw]; exact h.progress, by rw [hv, hw]; exact h.mirror⟩

theorem WritePhase.zero {f : InFlight} {s : State} (h : AllOwned s) : WritePhase f 0 s := by
  have e : eventsBefore f.wpos.val 0 = 0 := by simp [eventsBefore]
  exact ⟨h, by rw [e]; exact .start _ _, by omega⟩

theorem acquired_congr {s t : State} (h : t.level = s.level) (ho : t.owned = s.owned) (l : Line) :
    acquired t l ↔ acquired s l := by
  unfold acquired; rw [h, ho]

/-- The phase of an operation other than INIT and TEARDOWN, when OE, the lock or another agent's sequencer changes, or, where the
operation does not hold the lock, anything in the register and on the lines (R52, R105). -/
theorem phaseOf_keep {g : InFlight} {s t : State} (hg : changesLife g.instr = false) (hlife : t.life = s.life)
    (hnow : s.now ≤ t.now) (reg : RegSame s t ∨ takesLock g.instr = false ∨ g.idx = 0) (h : phaseOf g s) : phaseOf g t := by
  have raw : ∀ v, takesLock g.instr = true → rawPhase v g s → rawPhase v g t := by
    intro v ht hr
    refine ⟨by rw [hlife]; exact hr.1, ?_⟩
    rcases reg with r | r | r
    · rcases hr.2 with h | ⟨h, k⟩ | ⟨h, k, l, w⟩
      · exact .inl h
      · exact .inr (.inl ⟨h, k.keep r⟩)
      · exact .inr (.inr ⟨h, k, l, w.keep r⟩)
    · rw [ht] at r; cases r
    · exact .inl r
  have port : takesLock g.instr = true → portPhase g s → portPhase g t := by
    intro ht hr
    refine ⟨by rw [hlife]; exact hr.1, Nat.le_trans hr.2.1 hnow, ?_⟩
    rcases reg with r | r | r
    · rcases hr.2.2 with h | ⟨h, k, l⟩ | ⟨h, k, w⟩
      · exact .inl h
      · exact .inr (.inl ⟨h, k, l.keep r⟩)
      · exact .inr (.inr ⟨h, k, w.keep r⟩)
    · rw [ht] at r; cases r
    · exact .inl r
  unfold phaseOf at h ⊢
  cases hi : g.instr <;> simp only [hi] at h ⊢
  case init => simp [hi, changesLife] at hg
  case teardown => simp [hi, changesLife] at hg
  case write => exact raw _ (by rw [hi]; rfl) h
  case setraw => exact raw _ (by rw [hi]; rfl) h
  case setport => exact ⟨port (by rw [hi]; rfl) h.1, h.2⟩
  case cssetport => exact ⟨port (by rw [hi]; rfl) h.1, h.2⟩
  all_goals rw [hlife]; exact h

/-- The phase of any operation when no data changes and time does not go back. -/
theorem phaseOf_congr {g : InFlight} {s t : State} (d : DataSame s t) (hn : s.now ≤ t.now) (h : phaseOf g s) : phaseOf g t := by
  cases hc : changesLife g.instr with
  | false => exact phaseOf_keep hc d.life hn (.inl d.reg) h
  | true =>
    have hC : Coherent s → Coherent t := fun h => h.keep d.reg
    have hW : ∀ k, WritePhase g k s → WritePhase g k t := fun k h => h.keep d.reg
    unfold phaseOf at h ⊢
    cases hi : g.instr <;> simp only [hi] at h ⊢
    case init =>
      unfold initPhase at h ⊢
      simp only [acquired_congr d.level d.owned, d.life, d.owned, d.level, d.latch, d.oeState, AllOwned] at h ⊢
      rcases h with h | h | h | h | h | h
      · exact .inl h
      · exact .inr (.inl h)
      · obtain ⟨a, b, c, e, f, g⟩ := h
        exact .inr (.inr (.inl ⟨a, b, c, e, hW _ f, g⟩))
      · obtain ⟨a, b, c, e, f, g⟩ := h
        exact .inr (.inr (.inr (.inl ⟨a, b, c, hC e, f, g⟩)))
      · obtain ⟨a, b, c, e⟩ := h
        exact .inr (.inr (.inr (.inr (.inl ⟨a, b, hC c, e⟩))))
      · exact .inr (.inr (.inr (.inr (.inr h))))
    case teardown =>
      unfold teardownPhase at h ⊢
      simp only [d.life, d.owned, d.level, d.oeState] at h ⊢
      rcases h with h | ⟨a, b, c⟩ | h
      · exact .inl h
      · exact .inr (.inl ⟨a, b, hC c⟩)
      · exact .inr (.inr h)
    all_goals simp [hi, changesLife] at hc

theorem hostOnly_of_changesLife {i : Instr} (h : changesLife i = true) : hostOnly i = true := by
  simp [changesLife] at h; rcases h with rfl | rfl <;> rfl

/-- A caller with an operation in flight sees Ready (R123). -/
theorem Inv.caller_ready {s : State} (hI : Inv s) {n : Fin Config.nCallers} {f : InFlight}
    (h : (s.seq (.caller n)).op = some f) : s.life = .ready := by
  have hf := hI.flight _ _ h
  have hr := hf.role
  have hp := hf.phase
  unfold phaseOf at hp
  cases hi : f.instr <;> simp only [hi] at hp hr
  case init => simp [hostOnly] at hr
  case teardown => simp [hostOnly] at hr
  case write => simp [hostOnly] at hr
  case setraw => exact hp.1
  case setport => exact hp.1.1
  case cssetport => exact hp.1.1
  all_goals exact hp.2

/-- Only INIT sees Initializing and only TEARDOWN sees TearingDown while in flight (R27). -/
theorem Inv.life_of_op {s : State} (hI : Inv s) {f : InFlight} (hf : (s.seq s.agent).op = some f) :
    (s.life = .initializing → f.instr = .init) ∧ (s.life = .tearingDown → f.instr = .teardown) := by
  cases ha : s.agent with
  | host =>
    rw [ha] at hf
    have hf : s.seqs.host.op = some f := hf
    constructor
    · intro h; obtain ⟨g, h1, h2⟩ := hI.initializing h; rw [h1] at hf; cases hf; exact h2
    · intro h; obtain ⟨g, h1, h2⟩ := hI.tearingDown h; rw [h1] at hf; cases hf; exact h2
  | caller n =>
    rw [ha] at hf
    rw [hI.caller_ready hf]; simp

/-! ### Line levels are known exactly while lines are owned (R25) -/

theorem known_lineDone {l : Line} {b : Bool} {s : State} (ho : s.owned.get l = true)
    (h : ∀ k, s.owned.get k = true ↔ s.level.get k ≠ .unknown) (k : Line) :
    (lineDone l b s).owned.get k = true ↔ (lineDone l b s).level.get k ≠ .unknown := by
  simp only [lineDone_owned, lineDone_level, perLine_get_set]
  split
  · subst k; simp [ho]
  · exact h k

theorem known_acquireLine {l : Line} {s : State} (h : ∀ k, s.owned.get k = true ↔ s.level.get k ≠ .unknown) (k : Line) :
    (acquireLine l s).owned.get k = true ↔ (acquireLine l s).level.get k ≠ .unknown := by
  simp only [acquireLine_owned, acquireLine_level, perLine_get_set]
  split
  · simp
  · exact h k

theorem releaseLine_level_known {l k : Line} {s : State} (h : ∀ k, s.owned.get k = true ↔ s.level.get k ≠ .unknown) :
    (releaseLine l s).level.get k = if k = l then .unknown else s.level.get k := by
  apply releaseLine_level_get
  by_cases c : s.owned.get l = true
  · exact .inl c
  · right; by_contra h2; exact c ((h l).mpr h2)

theorem known_releaseLine {l : Line} {s : State} (h : ∀ k, s.owned.get k = true ↔ s.level.get k ≠ .unknown) (k : Line) :
    (releaseLine l s).owned.get k = true ↔ (releaseLine l s).level.get k ≠ .unknown := by
  rw [releaseLine_owned_get, releaseLine_level_known h]
  split
  · simp
  · exact h k

/-! ### One micro-step of a WRITE sequence -/

theorem microStep_eq {f : InFlight} {s : State} {m : Micro} (h : (sequenceOf f.instr)[f.idx]? = some m) :
    microStep f s = runMicro f m s := by
  unfold microStep; rw [h]

/-- What a micro-step of a WRITE sequence leaves alone. -/
structure LineMove (s t : State) : Prop where
  turn : t.turn = s.turn
  schedule : t.schedule = s.schedule
  seqs : t.seqs = s.seqs
  lock : t.lock = s.lock
  life : t.life = s.life
  now : t.now = s.now
  faults : t.faults = s.faults
  owned : t.owned = s.owned
  oeState : t.oeState = s.oeState
  oe : t.level.oe = s.level.oe
  known : (∀ k, s.owned.get k = true ↔ s.level.get k ≠ .unknown) → ∀ k, t.owned.get k = true ↔ t.level.get k ≠ .unknown
  mirror : t.mirror = s.mirror ∨ t.mirror ≠ none

/-- Micro-step k takes the phase from k to k + 1 (R79, R80). -/
theorem microStep_write {f : InFlight} {s : State} {k : Nat} (hk : k < 53)
    (hs : (sequenceOf f.instr)[f.idx]? = some (.shiftOut k)) (hp : WritePhase f k s) :
    ∃ t, microStep f s = .next (advance f t) ∧ WritePhase f (k + 1) t ∧ LineMove s t := by
  rw [microStep_eq hs]
  have hw := f.wpos.isLt
  by_cases c : k = f.wpos.val
  · refine ⟨{ s with mirror := some f.v }, by simp [runMicro, microShift, c], ⟨hp.owned, ?_, fun _ => rfl⟩,
      ⟨rfl, rfl, rfl, rfl, rfl, rfl, rfl, rfl, rfl, rfl, fun h => h, .inr (by simp)⟩⟩
    have : eventsBefore f.wpos.val (k + 1) = eventsBefore f.wpos.val k := by simp [eventsBefore, c]
    rw [this]; exact hp.progress.congr rfl rfl rfl rfl rfl
  · have ho : s.owned.get (eventOf f k).1 = true := by rw [hp.owned]; simp
    have he : (if k < f.wpos.val then k else k - 1) = eventsBefore f.wpos.val k := by
      simp only [eventsBefore]; split <;> split <;> omega
    have he2 : eventsBefore f.wpos.val (k + 1) = eventsBefore f.wpos.val k + 1 := by
      simp only [eventsBefore]; split <;> split <;> omega
    refine ⟨lineDone (eventOf f k).1 (eventOf f k).2 s, ?_, ⟨by rw [AllOwned, lineDone_owned]; exact hp.owned, ?_, ?_⟩, ?_⟩
    · simp only [runMicro]; rw [microShift_event c, lineSet_owned ho]; rfl
    · rw [he2]
      have := hp.progress.next (e := eventsBefore f.wpos.val k) (by simp only [eventsBefore]; split <;> omega)
      simpa only [eventOf, he] using this
    · intro h; rw [lineDone_mirror]; exact hp.mirror (by omega)
    · refine ⟨by simp, by simp, by simp, by simp, by simp, by simp, by simp, by simp, by simp, ?_, known_lineDone ho,
        .inl (by simp)⟩
      rw [lineDone_level]
      exact perLine_get_set_ne s.level (.driven (eventOf f k).2) (writeEvent_ne_oe _ _).symm

end Sys2Proof.Machine
end

