-- ==== Sys2Proof/Tests/Slice0.lean ====
section
/-! SUPPORT. Tests, with the expected values of spec/95_test_vectors.md unless a comment names another file, and a witness for the
hypotheses of every obligation that has some. -/

namespace Sys2Proof.Tests

open Sys2Proof.Machine

/-! ### Well-formedness: the one check refuses its ill-formed term -/

theorem test_wf_setport_code_three : (Instr.setport 0 0b11).wellFormed = false := by decide
theorem test_wf_setport_codes : [0b00#2, 0b01, 0b10].all (fun nb => (Instr.setport 15 nb).wellFormed) = true := by decide

/-! ### Decoding words written out bit by bit, OP A B V (30_encoding.md R63, R65) -/

theorem test_decode_init : decode 0b0001_0000_00000000_0000000000000000 = .ok .init := by decide
theorem test_decode_teardown : decode 0b0010_0000_00000000_0000000000000000 = .ok .teardown := by decide
theorem test_decode_write : decode 0b0011_0000_00000000_1000000000000001 = .ok (.write 0x8001) := by decide
theorem test_decode_setport_v48 : decode 0b0100_0011_00000001_0000000000000000 = .ok (.setport 3 (enc .v48)) := by decide
theorem test_decode_setport_v24 : decode 0b0100_1001_00000010_0000000000000000 = .ok (.setport 9 (enc .v24)) := by decide
theorem test_decode_setraw : decode 0b0101_0000_00000000_0001001000110100 = .ok (.setraw 0x1234) := by decide
theorem test_decode_setoe : decode 0b0110_0000_00000001_0000000000000000 = .ok (.setoe true) := by decide
theorem test_decode_readraw : decode 0b0111_0000_00000000_0000000000000000 = .ok .readraw := by decide
theorem test_decode_readport : decode 0b1000_0101_00000000_0000000000000000 = .ok (.readport 5) := by decide
theorem test_decode_readoe : decode 0b1001_0000_00000000_0000000000000000 = .ok .readoe := by decide
theorem test_decode_readid : decode 0b1010_0000_00000000_0000000000000000 = .ok .readid := by decide
theorem test_decode_cssetport : decode 0b1011_0101_00000000_0000000000011110 = .ok (.cssetport 5 30) := by decide
theorem test_decode_illegal : [0x00000000#32, 0x10000001, 0x30018001, 0x43030000, 0x43050000, 0x43010001, 0x60020000, 0x61010000,
    0x85010000, 0xB5010018, 0xC0000000, 0xF0000000, 0xFFFFFFFF].all (fun w => (decode w).toOption.isNone) = true := by decide
theorem test_encode_setport : encode (.setport 3 (enc .v24)) = 0x43020000 := by decide
theorem test_table_word : decodeTableWord 32 0x50001234 = some (.setraw 0x1234) := by decide

/-! ### The assembler (30_encoding.md R71, R72) -/

theorem test_pseudo_words : encode (expand (.portoff 3)) = 0x43000000 ∧ encode (expand (.port24 3)) = 0x43020000 ∧
    encode (expand (.port48 3)) = 0x43010000 ∧ encode (expand .kill) = 0x60000000 ∧ encode (expand .restore) = 0x60010000 ∧
    encode (expand .alloff) = 0x50000000 := by decide
theorem test_assemble_line : assembleLine "c0: setport 3, v48 ; on".toList = some (some (.caller 0), some (.setport 3 0b01)) := by
  decide
theorem test_assemble_program : assembleProgram ["host: init".toList, "; then".toList, "alloff".toList] =
    some [(some .host, .init), (none, .setraw 0)] := by decide

/-! ### Code numbers (60_exceptions.md R117, R121) and line event codes (30_encoding.md R70) -/

theorem test_codes : (OpResult.ok .nothing).code = 0 ∧ OpResult.invalidArgument.code = 1 ∧ OpResult.resourceUnavailable.code = 2 ∧
    [FaultCode.illegalOp, .notReady, .alreadyReady, .undefinedPortState, .hostProtocol, .role].map FaultCode.number =
      [0x10, 0x11, 0x12, 0x13, 0x14, 0x15] := by decide
theorem test_line_event_codes : (LineEvent.set .clk true).code = some 0b001 ∧ (LineEvent.set .oe false).code = some 0b110 ∧
    (LineEvent.acquire .oe true).code = none := by decide

/-! ### Small states -/

/-- A Ready block whose register holds m, with the outputs on and the host's long turn begun. -/
def ready (m : U16) : State :=
  { State.powerUp m m with
    mirror := some m
    oeState := true
    owned := PerLine.all true
    level := ⟨.driven false, .driven (m.getLsbD 0), .driven false, .driven true⟩
    life := .ready
    turn := hostTurn }

/-- The same in the turn of caller c0. -/
def readyCaller (m : U16) : State := { ready m with turn := { hostTurn with agent := .caller Config.firstCaller } }

/-- Power-up with the given register contents, in the host's long turn. -/
def up (m : U16) : State := { State.powerUp m m with turn := hostTurn }

/-- A field of the next state, if there is one. -/
def look {α : Type} (r : Result) (f : State → α) : Option α :=
  match r with
  | .next t => some (f t)
  | .fault _ => none
  | .refused _ => none

/-! ### One step of each operation -/

theorem test_init_state : look (exec .init (up 0xBEEF)) (fun t => (t.mirror, t.latch, t.life, t.level.oe)) =
    some (some 0, 0, .ready, .driven true) := by decide
theorem test_init_denied : look (exec .init { up 0xBEEF with turn := { hostTurn with grant := ⟨true, true, true, false⟩ } })
    (fun t => (t.seqs.host.result, t.owned, t.life, t.trace.map (·.event))) =
    some (some .resourceUnavailable, PerLine.all false, .down, [.release .store, .release .data, .release .clk, .acquire .oe false,
      .acquire .store true, .acquire .data true, .acquire .clk true]) := by decide
theorem test_write_register : look (exec (.write 0x8001) { ready 0 with chain := 0xABCD, latch := 0x1111 })
    (fun t => (t.mirror, t.chain, t.latch, t.level.data)) = some (some 0x8001, 0x8001, 0x8001, .driven true) := by decide
theorem test_setport_v48 : look (exec (.setport 3 0b01) (ready 0)) (fun t => (t.mirror, t.latch, t.now)) =
    some (some 0x0040, 0x0040, 300) := by decide
theorem test_setport_off_no_delay : look (exec (.setport 3 0b00) (ready 0xFFFF)) (fun t => (t.mirror, t.now)) =
    some (some 0xFF3F, 0) := by decide
theorem test_setraw_no_delay : look (exec (.setraw 0x1234) (ready 0)) (fun t => (t.mirror, t.now)) = some (some 0x1234, 0) := by
  decide
theorem test_setoe_off : look (exec (.setoe false) (ready 0x0041)) (fun t => (t.level.oe, t.oeState, t.latch, t.out 0 true)) =
    some (.driven false, false, 0x0041, .notDriven) := by decide
theorem test_readraw : look (exec .readraw (ready 0x1234)) (·.seqs.host.result) = some (some (.ok (.raw 0x1234))) := by decide
theorem test_readport_v24 : look (exec (.readport 4) (ready 0x1234)) (·.seqs.host.result) = some (some (.ok (.port .v24))) := by
  decide
theorem test_readport_undefined : look (exec (.readport 2) (ready 0x1234)) (fun t => (t.faults, t.seqs.host.stopped)) =
    some ([⟨.undefinedPortState, .host, 0x82000000⟩], true) := by decide
theorem test_readoe : look (exec .readoe (ready 0)) (·.seqs.host.result) = some (some (.ok (.oe true))) := by decide
theorem test_readid : exec .readid (ready 0) = .next (returnResult (.ok (.id Config.idString)) (ready 0)) := by rfl
theorem test_cssetport_24 : look (exec (.cssetport 1 24) (ready 0x1234)) (fun t => (t.mirror, t.now)) = some (some 0x1238, 300) := by
  decide
theorem test_cssetport_99_off : look (exec (.cssetport 2 99) (ready 0x1238)) (fun t => (t.mirror, t.now)) = some (some 0x1208, 0) := by
  decide
theorem test_init_when_ready : look (exec .init (ready 0)) (·.faults) = some [⟨.alreadyReady, .host, 0x10000000⟩] := by decide
theorem test_readraw_before_init : look (exec .readraw (up 0)) (·.faults) = some [⟨.notReady, .host, 0x70000000⟩] := by decide
theorem test_readport_nine_before_init : look (exec (.readport 9) (up 0)) (·.faults) = some [⟨.notReady, .host, 0x89000000⟩] := by
  decide
theorem test_step_from_reset : look (step (State.reset.withFetchWord 32 0x10000000)) (fun t => (t.life, t.seqs.host.result)) =
    some (.ready, some (.ok .nothing)) := by decide

theorem test_teardown_in_ready : look (exec .teardown (ready 0x0040)) (fun t => (t.owned, t.life, t.mirror, t.trace.map (·.event))) =
    some (PerLine.all false, .down, some 0x0040, [.release .oe, .release .store, .release .data, .release .clk]) := by decide
theorem test_teardown_from_reset : look (step (State.reset.withFetchWord 32 0x20000000)) (fun t => (t.seqs.host.result, t.faults)) =
    some (some (.ok .nothing), []) := by decide

/-! ### Witnesses: for each obligation with hypotheses, a state and operands that meet them all -/

/-- The host may issue a register write. -/
theorem unhindered_ready (m : U16) : Unhindered (ready m) :=
  ⟨rfl, ⟨rfl, rfl⟩, rfl, rfl, by show 58 ≤ 100; decide⟩

theorem seq_readyCaller (m : U16) (a : Agent) : (readyCaller m).seq a = Sequencer.idle := by
  simp [readyCaller, ready, State.powerUp]

/-- So may caller c0. -/
theorem unhindered_caller (m : U16) : Unhindered (readyCaller m) :=
  ⟨by show ((readyCaller m).seq _).ready = true; rw [seq_readyCaller]; rfl, ⟨rfl, rfl⟩, rfl, rfl, by show 58 ≤ 100; decide⟩

theorem caller_ne_host (m : U16) : (readyCaller m).agent ≠ .host := by simp [readyCaller]

theorem witness_DecodeEncodeRoundTrip : (Instr.setport 15 0b10).wellFormed = true ∧ (Instr.cssetport 15 0xFFFF).wellFormed = true := by
  decide

theorem witness_EncodeDecodeRoundTrip : decode 0x43020000 = .ok (.setport 3 0b10) ∧ decode 0xBF00FFFF = .ok (.cssetport 15 0xFFFF) := by
  decide

/-- A block with one request of the host and the host's turn next. -/
def asks (m : U16) (w : OpWord) : State := (ready m).withFetchWord 32 w.toNat

theorem witness_StepRunsDecodedInstruction : (asks 0 0x50001234).schedule = .turn hostTurn :: [] ∧
    ((asks 0 0x50001234).seq hostTurn.agent).ready = true ∧
    ((asks 0 0x50001234).seq hostTurn.agent).program = .word 0x50001234 :: [] ∧ decode 0x50001234 = .ok (.setraw 0x1234) :=
  ⟨rfl, rfl, rfl, by decide⟩

theorem witness_FetchedWordRunsNext : decodeTableWord 32 0xBF00FFFF = some (.cssetport 15 0xFFFF) := by decide

theorem witness_IllegalWordIsRecorded : (asks 0 0x43030000).schedule = .turn hostTurn :: [] ∧
    ((asks 0 0x43030000).seq hostTurn.agent).ready = true ∧
    ((asks 0 0x43030000).seq hostTurn.agent).program = .word 0x43030000 :: [] ∧ decode 0x43030000 = .error .voltageCode :=
  ⟨rfl, rfl, rfl, by decide⟩

/-- A Ready block with an operation of the host in flight and the host's turn next. -/
def flying (m : U16) (f : InFlight) : State :=
  ({ ready m with schedule := [.turn hostTurn] } : State).setSeq .host { Sequencer.idle with op := some f }

theorem witness_TurnResumesOperation_resumes : (flying 0 (inFlightOf .readoe)).schedule = .turn hostTurn :: [] ∧
    ((flying 0 (inFlightOf .readoe)).seq hostTurn.agent).op = some (inFlightOf .readoe) ∧
    ((flying 0 (inFlightOf .readoe)).seq hostTurn.agent).stopped = false := ⟨rfl, rfl, rfl⟩

/-- A Ready block whose host is stopped, with the host's turn next. -/
def halted (m : U16) : State :=
  ({ ready m with schedule := [.turn hostTurn], faults := [⟨.role, .host, 0⟩] } : State).setSeq .host
    { Sequencer.idle with stopped := true }

theorem witness_TurnResumesOperation_stopped : (halted 0).schedule = .turn hostTurn :: [] ∧
    ((halted 0).seq hostTurn.agent).stopped = true := ⟨rfl, rfl⟩

theorem witness_TurnResumesOperation_idle : ({ ready 0 with schedule := [.turn hostTurn] } : State).schedule = .turn hostTurn :: [] ∧
    (({ ready 0 with schedule := [.turn hostTurn] } : State).seq hostTurn.agent).op = none ∧
    (({ ready 0 with schedule := [.turn hostTurn] } : State).seq hostTurn.agent).program = [] := ⟨rfl, rfl, rfl⟩

theorem witness_TurnSplitsAnywhere : runTurn 1 (flying 0 (inFlightOf .readoe)) =
    .next (returnResult (.ok (.oe true)) (flying 0 (inFlightOf .readoe))) := rfl

theorem witness_EnvironmentMoves :
    ({ State.reset with schedule := [.tick 0] } : State).schedule = .tick 0 :: [] ∧
    ({ State.reset with schedule := [.floatChain 0xFFFF] } : State).schedule = .floatChain 0xFFFF :: [] ∧
    ({ State.reset with schedule := [.floatChain 0xFFFF] } : State).owned.clk = false ∧
    ({ ready 0 with schedule := [.floatChain 0xFFFF] } : State).owned.clk = true ∧
    ({ State.reset with schedule := [.floatLatch 0] } : State).owned.store = false ∧
    ({ ready 0 with schedule := [.floatLatch 0] } : State).owned.store = true := ⟨rfl, rfl, rfl, rfl, rfl, rfl⟩

theorem witness_LifecycleAdmission_ready : MayIssue (ready 0) ∧ (ready 0).agent = .host ∧ (ready 0).life = .ready := ⟨rfl, rfl, rfl⟩
theorem witness_LifecycleAdmission_between : MayIssue { ready 0 with life := .initializing } ∧
    MayIssue { ready 0 with life := .tearingDown } := ⟨rfl, rfl⟩
theorem witness_LifecycleAdmission_lock : MayIssue { ready 0 with lock := .held (.caller Config.firstCaller) } ∧
    ∃ a, ({ ready 0 with lock := .held (.caller Config.firstCaller) } : State).lock = .held a ∧ a ≠ (ready 0).agent :=
  ⟨rfl, _, rfl, by simp [ready, hostTurn]⟩
theorem witness_LifecycleAdmission_caller :
    MayIssue ((ready 0).setSeq (.caller Config.firstCaller) { Sequencer.idle with op := some (inFlightOf .readraw) }) ∧
    (((ready 0).setSeq (.caller Config.firstCaller) { Sequencer.idle with op := some (inFlightOf .readraw) }).seq
      (.caller Config.firstCaller)).op = some (inFlightOf .readraw) := ⟨rfl, by simp⟩
theorem witness_LifecycleAdmission_down : MayIssue (up 0) ∧ (up 0).agent = .host ∧ (∀ n, ((up 0).seq (.caller n)).op = none) ∧
    (∀ a, (up 0).lock = .held a → a = (up 0).agent) ∧ (up 0).life = .down :=
  ⟨rfl, rfl, fun n => by simp [up, State.powerUp, Sequencer.idle], fun a h => (by cases h), rfl⟩
theorem witness_LifecycleAdmission_notReady : MayIssue (up 0) ∧ (Instr.write 0).wellFormed = true ∧ Instr.write 0 ≠ .init ∧
    Instr.write 0 ≠ .teardown ∧ (hostOnly (.write 0) = true → (up 0).agent = .host) ∧ (up 0).life ≠ .ready :=
  ⟨rfl, rfl, by decide, by decide, fun _ => rfl, by decide⟩

theorem witness_HostOperationsNeedHostRole : MayIssue (readyCaller 0) ∧ (readyCaller 0).agent ≠ .host :=
  ⟨(unhindered_caller 0).idle, caller_ne_host 0⟩

theorem witness_NoCallerOperationInTransition :
    let s := (readyCaller 0).setSeq .host { Sequencer.idle with op := some (inFlightOf .teardown) }
    MayIssue s ∧ s.agent ≠ .host ∧ hostOnly .readraw = false ∧ Instr.readraw.wellFormed = true ∧
      s.seqs.host.op = some (inFlightOf .teardown) ∧ (inFlightOf .teardown).instr = .teardown := by
  refine ⟨?_, by simp [readyCaller], rfl, rfl, rfl, rfl⟩
  simp [MayIssue, readyCaller, ready, State.powerUp, Sequencer.idle, Sequencer.ready, seqs_get_set]

theorem witness_BadPortIndexChangesNothing : MayIssue (ready 0) ∧ Open (ready 0) ∧ 7 < (8#4).toNat ∧ 7 < (15#4).toNat ∧
    0b10#2 ≠ 0b11#2 := ⟨rfl, ⟨rfl, rfl⟩, by decide, by decide, by decide⟩

theorem witness_WriteCompletes : Unhindered (ready 0x1234) ∧ (ready 0x1234).agent = .host := ⟨unhindered_ready _, rfl⟩
theorem witness_SetrawCompletes : Unhindered (readyCaller 0x1234) := unhindered_caller _
theorem witness_SetportCompletes_delay : Unhindered (ready 0x8000) ∧ (ready 0x8000).mirror = some 0x8000 ∧ (7#4).toNat < 8 ∧
    0b01#2 ≠ 0b11#2 ∧ 0b01#2 ≠ 0b00#2 ∧ field 0x8000 7 ≠ 0b01#2 ∧ 300 ≤ (ready 0x8000).turn.elapse :=
  ⟨unhindered_ready _, rfl, by decide, by decide, by decide, by decide, by decide⟩
theorem witness_SetportCompletes_noDelay : Unhindered (readyCaller 0x0002) ∧ (readyCaller 0x0002).mirror = some 0x0002 ∧
    (0#4).toNat < 8 ∧ 0b10#2 ≠ 0b11#2 ∧ field 0x0002 0 = 0b10#2 :=
  ⟨unhindered_caller _, rfl, by decide, by decide, by decide⟩
theorem witness_CssetportCompletes_delay : Unhindered (ready 0) ∧ (ready 0).mirror = some 0 ∧ (7#4).toNat < 8 ∧
    field 0 7 ≠ 0b01#2 ∧ 300 ≤ (ready 0).turn.elapse := ⟨unhindered_ready _, rfl, by decide, by decide, by decide⟩
/-- CSSETPORT to Off, and to the class already set, in a turn that lets no time pass. -/
theorem witness_CssetportCompletes_noDelay :
    look (exec (.cssetport 7 99) { ready 0x8000 with turn := { hostTurn with elapse := 0 } }) (fun t => (t.mirror, t.now)) =
      some (some 0, 0) ∧
    look (exec (.cssetport 7 24) { ready 0x8000 with turn := { hostTurn with elapse := 0 } }) (fun t => (t.mirror, t.now)) =
      some (some 0x8000, 0) := by decide
theorem witness_InitCompletes : MayIssue (up 0xBEEF) ∧ (up 0xBEEF).agent = .host ∧ (up 0xBEEF).life = .down ∧
    (up 0xBEEF).lock = .free ∧ (up 0xBEEF).turn.grant = PerLine.all true ∧ 63 ≤ (up 0xBEEF).turn.budget :=
  ⟨rfl, rfl, rfl, rfl, rfl, by decide⟩
theorem witness_InitLeavesEveryPortOff : MayIssue (up 0) ∧ (up 0).agent = .host ∧ (up 0).life = .down ∧ (up 0).lock = .free ∧
    (up 0).turn.grant = PerLine.all true ∧ 63 ≤ (up 0).turn.budget := ⟨rfl, rfl, rfl, rfl, rfl, by decide⟩
theorem witness_FailedInitHoldsNothing :
    let s : State := { up 0 with turn := { hostTurn with grant := ⟨true, true, true, false⟩ } }
    MayIssue s ∧ s.agent = .host ∧ s.life = .down ∧ s.owned = PerLine.all false ∧ s.level = PerLine.all .unknown ∧ s.lock = .free ∧
      (∃ l, s.turn.grant.get l = false) ∧ 63 ≤ s.turn.budget := ⟨rfl, rfl, rfl, rfl, rfl, rfl, ⟨.oe, rfl⟩, by decide⟩
theorem witness_TeardownCompletes : MayIssue (ready 0) ∧ (ready 0).agent = .host ∧ (ready 0).life = .ready ∧ (ready 0).lock = .free ∧
    AllOwned (ready 0) ∧ (∀ n, ((ready 0).seq (.caller n)).op = none) ∧ 8 ≤ (ready 0).turn.budget :=
  ⟨rfl, rfl, rfl, rfl, rfl, fun n => by simp [ready, State.powerUp, Sequencer.idle], by decide⟩
theorem witness_SetoeCompletes :
    let s : State := { readyCaller 0 with lock := .held .host }
    MayIssue s ∧ Open s ∧ s.owned.oe = true ∧ 1 ≤ s.turn.budget := ⟨(unhindered_caller 0).idle, ⟨rfl, rfl⟩, rfl, by decide⟩
theorem witness_ReadsComplete : MayIssue (ready 0x4000) ∧ Open (ready 0x4000) ∧ (ready 0x4000).mirror = some 0x4000 ∧
    1 ≤ (ready 0x4000).turn.budget ∧ (7#4).toNat < 8 ∧ field 0x4000 7 = enc .v48 ∧ field 0x4000 0 = enc .off :=
  ⟨rfl, ⟨rfl, rfl⟩, rfl, by decide, by decide, by decide, by decide⟩
theorem witness_ReadportOfBothFaults : MayIssue (ready 0xC003) ∧ Open (ready 0xC003) ∧ (ready 0xC003).mirror = some 0xC003 ∧
    (7#4).toNat < 8 ∧ 1 ≤ (ready 0xC003).turn.budget ∧ field 0xC003 7 = 0b11#2 ∧ field 0xC003 0 = 0b11#2 :=
  ⟨rfl, ⟨rfl, rfl⟩, rfl, by decide, by decide, by decide, by decide⟩

theorem witness_SetportChangesOnlyItsField : Unhindered (ready 0xFFFF) ∧ (ready 0xFFFF).mirror = some 0xFFFF ∧ (7#4).toNat < 8 ∧
    0b10#2 ≠ 0b11#2 ∧ 300 ≤ (ready 0xFFFF).turn.elapse := ⟨unhindered_ready _, rfl, by decide, by decide, by decide⟩
theorem witness_SetportThenReadport : Unhindered (ready 0xFFFF) ∧ (ready 0xFFFF).mirror = some 0xFFFF ∧ (7#4).toNat < 8 ∧
    300 ≤ (ready 0xFFFF).turn.elapse := ⟨unhindered_ready _, rfl, by decide, by decide⟩
theorem unhindered_still (m : U16) : Unhindered { ready m with turn := { hostTurn with elapse := 0 } } :=
  ⟨rfl, ⟨rfl, rfl⟩, rfl, rfl, by show 58 ≤ 100; decide⟩
theorem witness_DelayHoldsTheLock :
    let s : State := { ready 0x0040 with turn := { hostTurn with elapse := 0 } }
    Unhindered s ∧ s.mirror = some 0x0040 ∧ (3#4).toNat < 8 ∧ 0b10#2 ≠ 0b11#2 ∧ 0b10#2 ≠ 0b00#2 ∧ field 0x0040 3 ≠ 0b10#2 ∧
      s.turn.elapse = 0 := ⟨unhindered_still _, rfl, by decide, by decide, by decide, by decide, rfl⟩
theorem witness_WaitEndsAfter300 : (inFlightOf (.setport 0 1)).t0 + 300 ≤ (ready 0).now + (ready 0).turn.elapse ∧
    (ready 0).now + ({ ready 0 with turn := { hostTurn with elapse := 299 } } : State).turn.elapse <
      (inFlightOf (.setport 0 1)).t0 + 300 := by decide
theorem witness_EnergizingEdgeComesLater : MayIssue (ready 0) ∧ Open (ready 0) ∧ (ready 0).lock = .free ∧ AllOwned (ready 0) ∧
    (ready 0).mirror = some 0 ∧ (0#4).toNat < 8 ∧ 0b01#2 ≠ 0b11#2 ∧ 0b01#2 ≠ 0b00#2 ∧ field 0 0 ≠ 0b01#2 ∧
    58 ≤ (ready 0).turn.budget ∧ 300 ≤ (ready 0).turn.elapse :=
  ⟨rfl, ⟨rfl, rfl⟩, rfl, rfl, rfl, by decide, by decide, by decide, by decide, by decide, by decide⟩
/-- A wait that 30 pauses of 10 ms bring to its end within one turn, up to its first two line events. -/
theorem witness_EnergizingEdgeComesLater_short :
    look (exec (.setport 0 0b01) { ready 0 with turn := { hostTurn with elapse := 10, budget := 35, wpos := 52 } })
      (fun t => t.trace.map fun e => (e.time, e.event)) = some [(300, .set .store false), (300, .set .clk false)] := by decide
theorem witness_EnergizingEdgeComesLater_resumed :
    let f : InFlight := { inFlightOf (.setport 0 0b01) with idx := 2 }
    ((flying 0 f).seq (flying 0 f).agent).op = some f ∧ (sequenceOf f.instr)[f.idx]? = some .waitSettled ∧
      look (runTurn 4 (flying 0 f)) (·.trace) = some [⟨300, .host, .set .clk false⟩] := ⟨rfl, rfl, by decide⟩

theorem witness_LineSetFollowsEdges : (up 0).owned.get .clk = false ∧ (ready 0).owned.get .store = true ∧
    (ready 0).level.clk = .driven false ∧ (ready 0).level.store = .driven false ∧ (ready 0).level.data = .driven false ∧
    ¬ (Line.clk = .clk ∧ (ready 0).level.clk = .driven false ∧ false = true) := by decide
theorem witness_LineSetFollowsEdges_unknown :
    let s : State := { up 0 with owned := ⟨true, false, false, false⟩, level := ⟨.driven false, .unknown, .unknown, .unknown⟩ }
    s.owned.get .clk = true ∧ s.level.clk = .driven false ∧ s.level.data = .unknown := by decide
theorem witness_SixteenEdgesPlaceBits : AllOwned (ready 0) ∧ (List.replicate 16 true).length = 16 := ⟨rfl, rfl⟩
theorem witness_WriteTraceOrder : Unhindered (ready 0) ∧ (ready 0).agent = .host := ⟨unhindered_ready _, rfl⟩
theorem witness_WritePrefixOldOrNew : MayIssue (ready 0) ∧ Open (ready 0) ∧ (ready 0).lock = .free ∧ AllOwned (ready 0) ∧
    (ready 0).agent = .host := ⟨rfl, ⟨rfl, rfl⟩, rfl, rfl, rfl⟩
theorem test_mirror_old_until_its_position :
    look (exec (.write 5) { ready 0 with turn := { hostTurn with wpos := 0, budget := 2 } }) (·.mirror) = some (some 0) ∧
    look (exec (.write 5) { ready 0 with turn := { hostTurn with wpos := 0, budget := 3 } }) (·.mirror) = some (some 5) := by decide
theorem test_mirror_old_until_its_last_position :
    look (exec (.write 5) { ready 0 with turn := { hostTurn with wpos := 52, budget := 54 } }) (·.mirror) = some (some 0) ∧
    look (exec (.write 5) { ready 0 with turn := { hostTurn with wpos := 52, budget := 55 } }) (·.mirror) = some (some 5) := by decide
theorem witness_WriteIsIdempotent : Unhindered (ready 0xA5C3) ∧ (ready 0xA5C3).agent = .host := ⟨unhindered_ready _, rfl⟩
theorem witness_SetoeDuringWriteIsHarmless :
    let c := Config.firstCaller
    let tc : Turn := { hostTurn with agent := .caller c }
    let s := ((({ ready 0 with
      schedule := [.turn { hostTurn with budget := 55 }, .turn tc, .turn { hostTurn with budget := 56 }] } : State).setSeq .host
        { Sequencer.idle with program := [.word (encode (.write 5))] }).setSeq (.caller c)
        { Sequencer.idle with program := [.word (encode (.setoe false))] })
    Open s ∧ s.lock = .free ∧ AllOwned s ∧ s.seqs.host.ready = true ∧ (s.seq (.caller c)).ready = true ∧
      s.seqs.host.program = .word (encode (.write 5)) :: [] ∧ (s.seq (.caller c)).program = .word (encode (.setoe false)) :: [] ∧
      hostTurn.agent = .host ∧ tc.agent = .caller c ∧ 1 ≤ tc.budget ∧
      s.schedule = [.turn { hostTurn with budget := 55 }, .turn tc, .turn { hostTurn with budget := 56 }] ++ [] := by
  refine ⟨⟨rfl, rfl⟩, rfl, rfl, rfl, ?_, rfl, ?_, rfl, rfl, by decide, rfl⟩ <;> simp [Sequencer.idle, Sequencer.ready]
theorem witness_OutputsFollowLatchAndOe : (ready 0).level.oe = .driven true ∧ (up 0).level.oe = .unknown ∧
    ({ ready 0 with level := PerLine.all (.driven false) } : State).level.oe = .driven false := ⟨rfl, rfl, rfl⟩
theorem witness_MirrorWrittenOnlyByWriteSeq :
    look (runMicro { inFlightOf (.write 5) with idx := 2 } (.shiftOut 0) (ready 0)) (·.mirror) = some (some 5) ∧
      (ready 0).mirror = some 0 := by decide
theorem witness_RegisterChangesOnlyAtEdges :
    look (runMicro { inFlightOf (.write 5) with idx := 6, v := 5 } (.shiftOut 4) { ready 0 with chain := 1 }) (·.chain) = some 2 ∧
    look (runMicro { inFlightOf (.write 5) with idx := 53, v := 5 } (.shiftOut 51) { ready 0 with chain := 5 }) (·.latch) = some 5 := by
  decide
theorem witness_LockExcludesOthers :
    let s : State := { flying 0 (inFlightOf (.write 5)) with lock := .held (.caller Config.firstCaller) }
    s.lock = .held (.caller Config.firstCaller) ∧ (s.seq s.agent).op = some (inFlightOf (.write 5)) ∧
      takesLock (inFlightOf (.write 5)).instr = true ∧ (inFlightOf (.write 5)).idx = 0 := ⟨rfl, rfl, rfl, rfl⟩
theorem witness_TextWritesComplete : Unhindered (readyCaller 0) ∧ (readyCaller 0).mirror = some 0 ∧
    300 ≤ (readyCaller 0).turn.elapse := ⟨unhindered_caller _, rfl, by decide⟩
theorem witness_TextWritesComplete_noDelay : look (serve (.writePort 7 ['0']) { ready 0x8000 with turn := { hostTurn with elapse := 0 } })
    (fun t => (t.mirror, t.now)) = some (some 0, 0) := by decide
theorem witness_TextWritesComplete_port : look (serve (.writePort 7 ['4', '8']) (ready 0))
    (fun t => ((t.seq .host).result, t.mirror)) = some (some (.ok .nothing), some 0x4000) := by decide
theorem witness_TextReadsComplete : MayIssue (readyCaller 0xC002) ∧ Open (readyCaller 0xC002) ∧
    (readyCaller 0xC002).mirror = some 0xC002 ∧ 1 ≤ (readyCaller 0xC002).turn.budget ∧ field 0xC002 7 = 0b11#2 ∧
    field 0xC002 0 = 0b10#2 ∧ field 0xC002 3 = 0b00#2 := ⟨(unhindered_caller _).idle, ⟨rfl, rfl⟩, rfl, by decide, by decide, by decide, by decide⟩
theorem witness_RawRoundTrip : Unhindered (ready 0x1234) := unhindered_ready _

/-! ### States the invariant holds of -/

theorem coherent_ready (m : U16) : Coherent (ready m) := ⟨rfl, rfl, rfl, rfl, rfl⟩

/-- A block with the host's operation f in flight and everything else as in `ready m`. -/
def busy (m : U16) (life : Lifecycle) (l : Lock) (f : InFlight) : State :=
  ({ ready m with life := life, lock := l, schedule := [.turn hostTurn] } : State).setSeq .host { Sequencer.idle with op := some f }

theorem busy_seq (m : U16) (life : Lifecycle) (l : Lock) (f : InFlight) (a : Agent) : (busy m life l f).seq a =
    if a = .host then { Sequencer.idle with op := some f } else Sequencer.idle := by
  simp [busy, ready, State.powerUp, seqs_get_set]

theorem inv_busy {m : U16} {life : Lifecycle} {l : Lock} {f : InFlight} (hwf : f.instr.wellFormed = true)
    (hd : life = .ready ∨ life = .initializing ∧ f.instr = .init) (hl : l = .free ∨ l = .held .host)
    (hh : l = .held .host → takesLock f.instr = true ∧ 1 ≤ f.idx) (hk : takesLock f.instr = true → 1 ≤ f.idx → l = .held .host)
    (hp : phaseOf f (busy m life l f)) : Inv (busy m life l f) := by
  have hg := busy_seq m life l f
  have hlife : (busy m life l f).life = life := rfl
  have hlock : (busy m life l f).lock = l := rfl
  refine ⟨?_, ?_, fun _ => rfl, fun _ h => (by cases h), fun _ => rfl,
    fun _ _ => (coherent_ready m).keep ⟨rfl, rfl, rfl, rfl, rfl, rfl, rfl⟩, ?_, ?_, ?_, ?_, ?_, ?_⟩
  · intro k; cases k <;> simp [busy, ready, PerLine.all, PerLine.get]
  · intro h; rw [hlife] at h; rcases hd with hd | ⟨hd, -⟩ <;> rw [hd] at h <;> cases h
  · intro h; rw [hlife] at h
    rcases hd with hd | hd
    · rw [hd] at h; cases h
    · exact ⟨f, rfl, hd.2⟩
  · intro h; rw [hlife] at h; rcases hd with hd | ⟨hd, -⟩ <;> rw [hd] at h <;> cases h
  · intro a h
    rw [hlock] at h
    rcases hl with hl | hl
    · rw [hl] at h; cases h
    · rw [hl] at h; cases h
      exact ⟨f, rfl, hh hl⟩
  · intro a g h
    rw [hg] at h
    split at h
    · rename_i e; subst e; cases h
      refine ⟨hwf, fun _ => rfl, hk, fun _ => ?_, hp⟩
      rw [callerInFlight_false]; intro n; rw [hg]; rfl
    · cases h
  · intro a; rw [hg]
    have hf : (busy m life l f).faults = [] := rfl
    rw [hf]; split <;> simp [Sequencer.idle]
  · intro a; rw [hg]; split <;> simp [Sequencer.idle]

/-- WRITE about to ask for the lock. -/
theorem inv_write : Inv (busy 0 .ready .free (inFlightOf (.write 5))) :=
  inv_busy rfl (.inl rfl) (.inl rfl) (fun h => by cases h) (fun _ h => by cases h) ⟨rfl, .inl rfl⟩

/-- SETPORT in its settling delay, holding the lock. -/
theorem inv_delay : Inv (busy 0 .ready (.held .host) { inFlightOf (.setport 3 0b01) with idx := 2 }) :=
  inv_busy rfl (.inl rfl) (.inr rfl) (fun _ => ⟨rfl, by decide⟩) (fun _ _ => rfl)
    ⟨⟨rfl, by decide, .inr (.inl ⟨by decide, by decide, (coherent_ready 0).keep ⟨rfl, rfl, rfl, rfl, rfl, rfl, rfl⟩⟩)⟩, rfl⟩

/-- INIT with OE raised. -/
theorem inv_init : Inv (busy 0 .initializing (.held .host) { inFlightOf .init with idx := 61 }) :=
  inv_busy rfl (.inr ⟨rfl, rfl⟩) (.inr rfl) (fun _ => ⟨rfl, by decide⟩) (fun _ _ => rfl)
    (.inr (.inr (.inr (.inl ⟨rfl, rfl, rfl, (coherent_ready 0).keep ⟨rfl, rfl, rfl, rfl, rfl, rfl, rfl⟩, rfl, rfl⟩))))

theorem witness_StepKeepsInv : Inv (busy 0 .ready .free (inFlightOf (.write 5))) ∧
    (look (step (busy 0 .ready .free (inFlightOf (.write 5)))) (·.mirror)) = some (some 5) := ⟨inv_write, by decide⟩
theorem witness_StepNeverStops : Inv (busy 0 .ready (.held .host) { inFlightOf (.setport 3 0b01) with idx := 2 }) := inv_delay
theorem witness_EveryHoldEnds_free :
    let s := busy 0 .ready .free (inFlightOf (.write 5))
    Inv s ∧ (s.seq s.agent).op = some (inFlightOf (.write 5)) ∧ s.lock = .free ∧ 300 ≤ s.turn.elapse ∧ 69 ≤ s.turn.budget :=
  ⟨inv_write, rfl, rfl, by decide, by decide⟩
theorem witness_EveryHoldEnds_held :
    let s := busy 0 .ready (.held .host) { inFlightOf (.setport 3 0b01) with idx := 2 }
    Inv s ∧ (s.seq s.agent).op = some { inFlightOf (.setport 3 0b01) with idx := 2 } ∧ s.lock = .held s.agent ∧
      300 ≤ s.turn.elapse ∧ 69 ≤ s.turn.budget := ⟨inv_delay, rfl, rfl, by decide, by decide⟩
theorem witness_OeStateIsOeLevel :
    let s := busy 0 .ready .free (inFlightOf (.write 5))
    Inv s ∧ s.owned.oe = true ∧ (∀ f, s.seqs.host.op = some f → f.instr ≠ .init) :=
  ⟨inv_write, rfl, fun f h => by cases h; simp [inFlightOf]⟩
theorem witness_InitNeverDrivesStaleLatch :
    let s := busy 0 .initializing (.held .host) { inFlightOf .init with idx := 61 }
    Inv s ∧ s.life = .initializing ∧ s.owned.oe = true := ⟨inv_init, rfl, rfl⟩
theorem witness_CoherentWhenQuiet :
    let s := busy 0 .ready .free (inFlightOf .readraw)
    Inv s ∧ s.life = .ready ∧ (∀ a f, (s.seq a).op = some f → takesLock f.instr = false) := by
  refine ⟨inv_busy rfl (.inl rfl) (.inl rfl) (fun h => by cases h) (fun h => by cases h) ⟨rfl, rfl⟩, rfl, fun a f h => ?_⟩
  rw [busy_seq] at h
  split at h
  · cases h; rfl
  · cases h
theorem witness_FaultSetOnlyGrows : step (halted 0) = .next { halted 0 with schedule := [] } ∧
    (⟨.role, .host, 0⟩ : FaultRecord) ∈ (halted 0).faults ∧ ((halted 0).seq .host).stopped = true :=
  ⟨rfl, by simp [halted, State.setSeq], rfl⟩
theorem witness_TimeMovesOnlyByTickOrAtWait : step { State.reset with schedule := [.tick 7] } = .next { State.reset with now := 7 } ∧
    (look (step (busy 0 .ready (.held .host) { inFlightOf (.setport 3 0b01) with idx := 2 })) (·.now)) = some 300 ∧
    look (runMicro { inFlightOf (.setport 3 0b01) with idx := 2 } .waitSettled (ready 0)) (·.now) = some 300 :=
  ⟨rfl, by decide, by decide⟩
theorem witness_RunOverIsFinal_over :
    let s : State := { ready 5 with schedule := [.turn hostTurn] }
    s.runOver = true ∧ s.schedule = .turn hostTurn :: [] ∧ step s = .next { ready 5 with schedule := [] } := ⟨rfl, rfl, rfl⟩
theorem witness_RunOverIsFinal_stopped : (halted 0).runOver = true := rfl
theorem witness_RunOverIsFinal_waiting :
    let s := busy 0 .ready (.held .host) { inFlightOf (.setport 3 0b01) with idx := 2 }
    (s.seq .host).op = some { inFlightOf (.setport 3 0b01) with idx := 2 } ∧ (s.seq .host).stopped = false := ⟨rfl, rfl⟩

end Sys2Proof.Tests
end

section
/-! ### How turns compose (00_scope.md R14; 20_memory.md R52) -/

namespace Sys2Proof.Machine

/-- The first micro-step of a turn, whichever it is. -/
theorem runTurn_succ_of_microStep {f : InFlight} {s t : State} (ho : (s.seq s.agent).op = some f)
    (hm : microStep f s = .next t) (n : Nat) : runTurn (n + 1) s = runTurn n t := by
  simp only [runTurn, ho, hm]

/-- How a turn of at least one micro-step can answer a next state: nothing was in flight, or the first micro-step was taken and
the rest of the turn ran from there. -/
theorem runTurn_succ_cases {n : Nat} {s t : State} (h : runTurn (n + 1) s = .next t) :
    ((s.seq s.agent).op = none ∧ t = s) ∨
    ∃ f u, (s.seq s.agent).op = some f ∧ microStep f s = .next u ∧ runTurn n u = .next t := by
  cases ho : (s.seq s.agent).op with
  | none =>
    rw [runTurn_idle ho] at h
    cases h
    exact .inl ⟨rfl, rfl⟩
  | some f =>
    cases hm : microStep f s with
    | next u =>
      rw [runTurn_succ_of_microStep ho hm] at h
      exact .inr ⟨f, u, rfl, hm, h⟩
    | fault r => simp only [runTurn, ho, hm, reduceCtorEq] at h
    | refused r => simp only [runTurn, ho, hm, reduceCtorEq] at h

theorem runTurn_add {m : Nat} {s t : State} (h : runTurn m s = .next t) (n : Nat) : runTurn (m + n) s = runTurn n t := by
  induction m generalizing s with
  | zero =>
    cases h
    rw [Nat.zero_add]
  | succ m ih =>
    obtain ⟨ho, rfl⟩ | ⟨f, u, ho, hm, hu⟩ := runTurn_succ_cases h
    · rw [runTurn_idle ho, runTurn_idle ho]
    · calc runTurn (m + 1 + n) s = runTurn (m + n + 1) s := by rw [Nat.add_right_comm]
        _ = runTurn (m + n) u := runTurn_succ_of_microStep ho hm _
        _ = runTurn n t := ih hu

/-- Settles O9, by induction on the length of the first turn. -/
theorem turnSplitsAnywhere : Obligations.TurnSplitsAnywhere :=
  fun _ n _ _ h => runTurn_add h n

end Sys2Proof.Machine
end

section
/-! ### What a turn and a step do (10_state.md R36; 20_memory.md R52; 60_exceptions.md R121) -/

namespace Sys2Proof.Machine

theorem step_cons {s : State} {m : Move} {ms : List Move} (h : s.schedule = m :: ms) :
    step s = runMove m { s with schedule := ms } := by
  simp only [step, h]

theorem floatChain_eq (v : U16) (s : State) : ∃ c, floatChain v s = { s with chain := c } := by
  unfold floatChain
  split
  · exact ⟨s.chain, rfl⟩
  · exact ⟨v, rfl⟩

theorem floatLatch_eq (v : U16) (s : State) : ∃ l, floatLatch v s = { s with latch := l } := by
  unfold floatLatch
  split
  · exact ⟨s.latch, rfl⟩
  · exact ⟨v, rfl⟩

/-- What a step can be: a turn, a Tick, or neither, in which case only the schedule, the chain and the latch may change. -/
theorem step_cases {s t : State} (h : step s = .next t) :
    (∃ u ms, s.schedule = .turn u :: ms ∧ takeTurn u { s with schedule := ms } = .next t) ∨
    (∃ k ms, s.schedule = .tick k :: ms ∧ t = tick k { s with schedule := ms }) ∨
    ∃ ms c l, t = { s with schedule := ms, chain := c, latch := l } := by
  cases hs : s.schedule with
  | nil =>
    simp only [step, hs, Host.Outcome.next.injEq] at h
    exact .inr (.inr ⟨s.schedule, s.chain, s.latch, h.symm⟩)
  | cons m ms =>
    rw [step_cons hs] at h
    cases m with
    | turn u => exact .inl ⟨u, ms, rfl, h⟩
    | tick k => cases h; exact .inr (.inl ⟨k, ms, rfl, rfl⟩)
    | floatChain v =>
      obtain ⟨c, hc⟩ := floatChain_eq v { s with schedule := ms }
      rw [runMove, hc] at h
      cases h; exact .inr (.inr ⟨ms, c, s.latch, rfl⟩)
    | floatLatch v =>
      obtain ⟨l, hl⟩ := floatLatch_eq v { s with schedule := ms }
      rw [runMove, hl] at h
      cases h; exact .inr (.inr ⟨ms, s.chain, l, rfl⟩)

theorem takeTurn_stopped {u : Turn} {s : State} (h : (s.seq u.agent).stopped = true) :
    takeTurn u s = .next { s with turn := u } := by
  have h' : (s.seqs.get u.agent).stopped = true := h
  simp only [takeTurn, seq_eq, agent_eq, h', if_true]

theorem takeTurn_busy {u : Turn} {s : State} {f : InFlight} (hs : (s.seq u.agent).stopped = false)
    (hf : (s.seq u.agent).op = some f) : takeTurn u s = runTurn u.budget { s with turn := u } := by
  have hs' : (s.seqs.get u.agent).stopped = false := hs
  have hf' : (s.seqs.get u.agent).op = some f := hf
  simp only [takeTurn, seq_eq, agent_eq, hs', hf', Option.isSome_some, Bool.false_eq_true, if_false, if_true]

theorem takeTurn_idle {u : Turn} {s : State} (hs : (s.seq u.agent).stopped = false) (hf : (s.seq u.agent).op = none) :
    takeTurn u s = issueNext { s with turn := u } := by
  have hs' : (s.seqs.get u.agent).stopped = false := hs
  have hf' : (s.seqs.get u.agent).op = none := hf
  simp only [takeTurn, seq_eq, agent_eq, hs', hf', Option.isSome_none, Bool.false_eq_true, if_false]

theorem issueNext_nil {s : State} (h : (s.seq s.agent).program = []) : issueNext s = .next s := by
  simp only [issueNext, h]

theorem issueNext_cons {s : State} {r : Request} {rs : List Request} (h : (s.seq s.agent).program = r :: rs) :
    issueNext s = serve r (s.setSeq s.agent { s.seq s.agent with program := rs }) := by
  simp only [issueNext, h]

theorem ready_iff {q : Sequencer} : q.ready = true ↔ q.op = none ∧ q.stopped = false := by
  simp [Sequencer.ready]

theorem serveWord_ok {w : OpWord} {i : Instr} (h : decode w = .ok i) (s : State) : serve (.word w) s = exec i s := by
  change serveWord w s = _
  rw [serveWord, h]

/-- Settles O5: the turn of an idle agent takes its request off, and serving a word that decodes is its operation. -/
theorem stepRunsDecodedInstruction : Obligations.StepRunsDecodedInstruction := by
  intro s t ms w rs i hsched hready hprog hdec
  obtain ⟨hop, hstop⟩ := ready_iff.mp hready
  calc step s = takeTurn t { s with schedule := ms } := step_cons hsched
    _ = issueNext { s with schedule := ms, turn := t } := takeTurn_idle (s := { s with schedule := ms }) hstop hop
    _ = _ := issueNext_cons (s := { s with schedule := ms, turn := t }) hprog
    _ = _ := serveWord_ok hdec _

/-- Settles O8, one lemma about `takeTurn` for each kind of agent. -/
theorem turnResumesOperation : Obligations.TurnResumesOperation := by
  intro s t ms hsched
  have hstep : step s = takeTurn t { s with schedule := ms } := step_cons hsched
  refine ⟨fun f hop hstop => ?_, fun hstop => ?_, fun hop hprog => ?_⟩
  · exact hstep.trans (takeTurn_busy (s := { s with schedule := ms }) hstop hop)
  · exact hstep.trans (takeTurn_stopped (s := { s with schedule := ms }) hstop)
  · cases hstop : (s.seq t.agent).stopped with
    | true => exact hstep.trans (takeTurn_stopped (s := { s with schedule := ms }) hstop)
    | false =>
      rw [hstep, takeTurn_idle (s := { s with schedule := ms }) hstop hop]
      exact issueNext_nil (s := { s with schedule := ms, turn := t }) hprog

/-- Settles O42, by the level of OE. -/
theorem outputsFollowLatchAndOe : Obligations.OutputsFollowLatchAndOe := by
  intro s k
  refine ⟨fun h d => ?_, fun h d => ?_, fun h o => ?_⟩ <;> simp only [State.out, h]
  constructor
  · rintro ⟨d, rfl⟩
    cases d
    · exact .inr rfl
    · exact .inl rfl
  · rintro (rfl | rfl)
    · exact ⟨true, rfl⟩
    · exact ⟨false, rfl⟩

/-! ### What single micro-steps may write (R20, R29, R30, R31) -/

/-- Settles O43, by the effects a micro-step can have: all but the mirror update keep the mirror. -/
theorem mirrorWrittenOnlyByWriteSeq : Obligations.MirrorWrittenOnlyByWriteSeq := by
  intro f m s t h hne
  cases runMicro_effect h with
  | mirrored => exact ⟨rfl, rfl⟩
  | _ => exact absurd (by simp) hne

/-- A line event that changes the chain is a rising CLK edge, and one that changes the latch a rising STORE edge. -/
theorem lineDone_edges (l : Line) (b : Bool) (s : State) :
    ((lineDone l b s).chain ≠ s.chain → s.level.clk = .driven false ∧ (lineDone l b s).level.clk = .driven true) ∧
    ((lineDone l b s).latch ≠ s.latch →
      s.level.store = .driven false ∧ (lineDone l b s).level.store = .driven true ∧ (lineDone l b s).latch = s.chain) := by
  rw [lineDone_chain, lineDone_latch, lineDone_level]
  constructor
  · split
    · rename_i hc
      obtain ⟨rfl, hlow, rfl⟩ := hc
      exact fun _ => ⟨hlow, rfl⟩
    · exact fun hne => absurd rfl hne
  · split
    · rename_i hc
      obtain ⟨rfl, hlow, rfl⟩ := hc
      exact fun _ => ⟨hlow, rfl, rfl⟩
    · exact fun hne => absurd rfl hne

/-- Settles O44: of all effects only a line event of a WRITE sequence can change the chain or the latch. -/
theorem registerChangesOnlyAtEdges : Obligations.RegisterChangesOnlyAtEdges := by
  intro f m s t h
  cases runMicro_effect h with
  | shifted k => exact lineDone_edges _ _ s
  | oeRaised => exact lineDone_edges .oe true s
  | oeDriven on => exact lineDone_edges .oe on s
  | _ => exact ⟨fun hne => absurd (by simp) hne, fun hne => absurd (by simp) hne⟩

theorem runMicro_now {f : InFlight} {m : Micro} {s t : State} (h : runMicro f m s = .next t) (hne : t.now ≠ s.now) :
    m = .waitSettled ∧ t.now = s.now + s.turn.elapse := by
  cases runMicro_effect h with
  | settled | waiting => exact ⟨rfl, rfl⟩
  | _ => exact absurd (by simp) hne

/-! ### Faults and time over a step (R29, R37, R121, R129) -/

/-- Settles O57: a turn keeps records and stopped marks by its frame, and the other moves touch neither. -/
theorem faultSetOnlyGrows : Obligations.FaultSetOnlyGrows := by
  refine ⟨fun _ _ => rfl, fun s t h => ?_⟩
  obtain ⟨u, ms, -, hturn⟩ | ⟨k, ms, -, rfl⟩ | ⟨ms, c, l, rfl⟩ := step_cases h
  · have hframe := takeTurn_frame hturn
    exact ⟨hframe.faults, hframe.stopped⟩
  · exact ⟨fun _ hr => hr, fun _ ha => ha⟩
  · exact ⟨fun _ hr => hr, fun _ ha => ha⟩

/-- Where a turn's micro-steps change the time, they come to a wait. -/
theorem runTurn_reaches_wait {n : Nat} {b t : State} (h : runTurn n b = .next t) (hne : t.now ≠ b.now) :
    ∃ k v, k < n ∧ runTurn k b = .next v ∧ AtWait v := by
  induction n generalizing b with
  | zero => cases h; exact absurd rfl hne
  | succ n ih =>
    obtain ⟨-, rfl⟩ | ⟨f, u, hf, hmicro, hrest⟩ := runTurn_succ_cases h
    · exact absurd rfl hne
    by_cases hu : u.now = b.now
    · obtain ⟨k, v, hk, hv, hwait⟩ := ih hrest (by rwa [hu])
      exact ⟨k + 1, v, by omega, by rw [runTurn_succ_of_microStep hf hmicro, hv], hwait⟩
    · unfold microStep at hmicro
      split at hmicro
      · cases hmicro
      · next m hm =>
        obtain ⟨rfl, -⟩ := runMicro_now hmicro hu
        exact ⟨0, b, by omega, rfl, f, hf, hm⟩

/-- An issue that changes the time does so in the micro-steps of its operation. -/
theorem exec_now {i : Instr} {s t : State} (h : exec i s = .next t) (hne : t.now ≠ s.now) :
    runTurn s.turn.budget (s.setOp (some (inFlightOf i))) = .next t := by
  rw [exec_eq, operate] at h
  split at h
  · split at h
    · cases h; exact absurd rfl hne
    · split at h
      · cases h; exact absurd rfl hne
      · exact h
  · cases h

/-- A request that changes the time issues an operation. -/
theorem serve_now {r : Request} {s t : State} (h : serve r s = .next t) (hne : t.now ≠ s.now) :
    ∃ i, r.issues = some i ∧ runTurn s.turn.budget (s.setOp (some (inFlightOf i))) = .next t := by
  cases hi : r.issues with
  | some i =>
    rw [serve_of_issues s hi] at h
    exact ⟨i, rfl, exec_now h hne⟩
  | none =>
    obtain ⟨w, -, hw⟩ | hw := serve_of_not_issues s hi <;> rw [hw] at h <;> cases h <;> exact absurd rfl hne

/-- A turn that changes the time runs micro-steps from the state in which it starts. -/
theorem takeTurn_now {u : Turn} {s t : State} (h : takeTurn u s = .next t) (hne : t.now ≠ s.now) :
    ∃ b, StartsTurn u s b ∧ b.now = s.now ∧ runTurn u.budget b = .next t := by
  cases hstop : (s.seq u.agent).stopped with
  | true =>
    rw [takeTurn_stopped hstop] at h
    cases h; exact absurd rfl hne
  | false =>
    cases hop : (s.seq u.agent).op with
    | some f =>
      rw [takeTurn_busy hstop hop] at h
      exact ⟨{ s with turn := u }, .inl ⟨by simp [hop], rfl⟩, rfl, h⟩
    | none =>
      rw [takeTurn_idle hstop hop] at h
      cases hprog : (s.seq u.agent).program with
      | nil =>
        rw [issueNext_nil (s := { s with turn := u }) hprog] at h
        cases h; exact absurd rfl hne
      | cons r rs =>
        rw [issueNext_cons (s := { s with turn := u }) hprog] at h
        obtain ⟨i, hi, hrun⟩ := serve_now h hne
        exact ⟨_, .inr ⟨r, rs, i, hprog, hi, rfl⟩, rfl, hrun⟩

/-- Settles O58: a Tick adds its amount, the floating-line steps add none, and a turn's frame and its first wait give the rest. -/
theorem timeMovesOnlyByTickOrAtWait : Obligations.TimeMovesOnlyByTickOrAtWait := by
  refine ⟨fun s t h => ?_, fun _ _ _ _ => runMicro_now⟩
  obtain ⟨u, ms, hsched, hturn⟩ | ⟨k, ms, hsched, rfl⟩ | ⟨ms, c, l, rfl⟩ := step_cases h
  · have hframe := takeTurn_frame hturn
    refine ⟨hframe.now, fun hne => .inr ?_⟩
    obtain ⟨b, hstart, hnow, hrun⟩ := takeTurn_now hturn hne
    obtain ⟨k, v, hk, hv, hwait⟩ := runTurn_reaches_wait hrun (by rw [hnow]; exact hne)
    exact ⟨u, ms, b, v, k, hsched, hframe.elapse hne, hstart, hk, hv, hwait⟩
  · exact ⟨Nat.le_add_right _ _, fun _ => .inl ⟨k, ms, hsched, rfl⟩⟩
  · exact ⟨le_rfl, fun hne => absurd rfl hne⟩

end Sys2Proof.Machine
end

section
/-! ### The invariant taken apart: the shared state, the lifecycle's owner, and each agent's part -/

namespace Sys2Proof.Machine

/-- What the invariant says of the shared state alone (R19, R25, R26, R59, R74). -/
structure BlockOk (s : State) : Prop where
  known : ∀ l, s.owned.get l = true ↔ s.level.get l ≠ .unknown
  down : s.life = .down → s.owned = PerLine.all false
  ready : s.life = .ready → AllOwned s
  present : s.life = .ready → s.mirror ≠ none
  oe : s.life = .ready → s.level.oe = .driven s.oeState
  coherent : s.life = .ready → s.lock = .free → Coherent s

/-- A lifecycle in transition is the host's INIT or TEARDOWN in flight (R27). -/
structure TransitOk (s : State) : Prop where
  initializing : s.life = .initializing → ∃ f, s.seqs.host.op = some f ∧ f.instr = .init
  tearingDown : s.life = .tearingDown → ∃ f, s.seqs.host.op = some f ∧ f.instr = .teardown

/-- What the invariant says of one agent (R28, R36, R37, R121). -/
structure AgentOk (s : State) (a : Agent) : Prop where
  holder : s.lock = .held a → ∃ f, (s.seq a).op = some f ∧ takesLock f.instr = true ∧ 1 ≤ f.idx
  flight : ∀ f, (s.seq a).op = some f → FlightOk s a f
  stopped : (s.seq a).stopped = true ↔ ∃ r ∈ s.faults, r.agent = a
  halted : (s.seq a).stopped = true → (s.seq a).op = none

theorem inv_iff {s : State} : Inv s ↔ BlockOk s ∧ TransitOk s ∧ ∀ a, AgentOk s a := by
  constructor
  · intro h
    exact ⟨⟨h.known, h.down, h.ready, h.present, h.oe, h.coherent⟩, ⟨h.initializing, h.tearingDown⟩,
      fun a => ⟨h.holder a, h.flight a, h.stopped a, h.halted a⟩⟩
  · rintro ⟨hb, ht, ha⟩
    exact ⟨hb.known, hb.down, hb.ready, hb.present, hb.oe, hb.coherent, ht.initializing, ht.tearingDown,
      fun a => (ha a).holder, fun a => (ha a).flight, fun a => (ha a).stopped, fun a => (ha a).halted⟩

theorem Inv.block {s : State} (h : Inv s) : BlockOk s := (inv_iff.mp h).1
theorem Inv.agentOk {s : State} (h : Inv s) (a : Agent) : AgentOk s a := (inv_iff.mp h).2.2 a

/-! ### The shared state -/

theorem DataSame.refl (s : State) : DataSame s s := ⟨rfl, rfl, rfl, rfl, rfl, rfl, rfl⟩

theorem DataSame.setSeq {s t : State} (h : DataSame s t) (a : Agent) (x : Sequencer) : DataSame s (t.setSeq a x) :=
  ⟨h.mirror, h.chain, h.latch, h.owned, h.level, h.oeState, h.life⟩

/-- With the same data the shared state is as it was; where the lock has come free in Ready, the register is coherent. -/
theorem BlockOk.congr {s t : State} (h : BlockOk s) (d : DataSame s t)
    (hfree : s.life = .ready → t.lock = .free → Coherent s) : BlockOk t where
  known := by rw [d.owned, d.level]; exact h.known
  down := by rw [d.owned, d.life]; exact h.down
  ready := by rw [AllOwned, d.owned, d.life]; exact h.ready
  present := by rw [d.mirror, d.life]; exact h.present
  oe := by rw [d.level, d.oeState, d.life]; exact h.oe
  coherent := by rw [d.life]; exact fun hr hl => (hfree hr hl).keep d.reg

/-- In transition only the lines' levels are asked about. -/
theorem BlockOk.ofTransit {s : State} (hk : ∀ l, s.owned.get l = true ↔ s.level.get l ≠ .unknown)
    (hl : s.life = .initializing ∨ s.life = .tearingDown) : BlockOk s := by
  constructor
  case known => exact hk
  all_goals intro h; rw [h] at hl; simp at hl

/-- A micro-step of a WRITE sequence under the lock keeps the shared state. -/
theorem BlockOk.lineMove {s t : State} (h : BlockOk s) (m : LineMove s t) (hl : s.lock ≠ .free) : BlockOk t where
  known := m.known h.known
  down := by rw [m.owned, m.life]; exact h.down
  ready := by rw [AllOwned, m.owned, m.life]; exact h.ready
  present := by
    rw [m.life]
    intro hr
    rcases m.mirror with hm | hm
    · rw [hm]; exact h.present hr
    · exact hm
  oe := by rw [m.oe, m.oeState, m.life]; exact h.oe
  coherent := fun _ hf => absurd (m.lock.symm.trans hf) hl

/-! ### The agents -/

/-- An agent whose sequencer and whose hold of the lock stay keeps its part, when its operation's phase carries over. -/
theorem AgentOk.keep {s t : State} {b : Agent} (h : AgentOk s b) (hop : (t.seq b).op = (s.seq b).op)
    (hstop : (t.seq b).stopped = (s.seq b).stopped) (hlock : t.lock = .held b ↔ s.lock = .held b)
    (hfaults : (∃ r ∈ t.faults, r.agent = b) ↔ ∃ r ∈ s.faults, r.agent = b)
    (hflight : ∀ f, (s.seq b).op = some f → phaseOf f t ∧ (changesLife f.instr = true → t.callerInFlight = false)) :
    AgentOk t b where
  holder := by rw [hop, hlock]; exact h.holder
  flight := by
    intro f hf
    rw [hop] at hf
    obtain ⟨hphase, halone⟩ := hflight f hf
    have hok := h.flight f hf
    exact ⟨hok.wf, hok.role, fun ht hi => hlock.mpr (hok.lock ht hi), halone, hphase⟩
  stopped := by rw [hstop, hfaults]; exact h.stopped
  halted := by rw [hstop, hop]; exact h.halted

/-- An agent with nothing in flight that does not hold the lock. -/
theorem AgentOk.ofIdle {t : State} {a : Agent} (hop : (t.seq a).op = none) (hlock : t.lock ≠ .held a)
    (hstop : (t.seq a).stopped = true ↔ ∃ r ∈ t.faults, r.agent = a) : AgentOk t a :=
  ⟨fun h => absurd h hlock, fun _ hf => absurd (hop.symm.trans hf) nofun, hstop, fun _ => hop⟩

/-- The lock is an agent's exactly while its lock-taking operation is past its `LockAcquire` (R28, R56). -/
theorem AgentOk.lock_iff {s : State} {a : Agent} (h : AgentOk s a) {f : InFlight} (hf : (s.seq a).op = some f) :
    s.lock = .held a ↔ takesLock f.instr = true ∧ 1 ≤ f.idx := by
  constructor
  · intro hl
    obtain ⟨g, hg, hg2⟩ := h.holder hl
    rw [hf] at hg
    cases hg
    exact hg2
  · exact fun ⟨ht, hi⟩ => (h.flight f hf).lock ht hi

theorem takesLock_of_changesLife {i : Instr} (h : changesLife i = true) : takesLock i = true := by
  cases i <;> first | rfl | simp [changesLife] at h

/-- Callers that had nothing in flight still have nothing. -/
theorem callerInFlight_mono {s t : State} (h : s.callerInFlight = false)
    (hops : ∀ n, (s.seq (.caller n)).op = none → (t.seq (.caller n)).op = none) : t.callerInFlight = false :=
  callerInFlight_false.mpr fun n => hops n (callerInFlight_false.mp h n)

/-- An INIT or TEARDOWN in flight is the host's (R128). -/
theorem Inv.host_of_changesLife {s : State} (hI : Inv s) {b : Agent} {f : InFlight} (hf : (s.seq b).op = some f)
    (hc : changesLife f.instr = true) : b = .host :=
  (hI.flight b f hf).role (hostOnly_of_changesLife hc)

/-- Beside an INIT or TEARDOWN in flight no other agent has anything in flight (R123, R135). -/
theorem Inv.alone_of_changesLife {s : State} (hI : Inv s) {a b : Agent} {f : InFlight} (hf : (s.seq a).op = some f)
    (hc : changesLife f.instr = true) (hb : b ≠ a) : (s.seq b).op = none := by
  cases hI.host_of_changesLife hf hc
  cases b with
  | host => exact absurd rfl hb
  | caller n => exact callerInFlight_false.mp ((hI.flight _ f hf).alone hc) n

/-- So no other agent's operation beside one in flight is an INIT or TEARDOWN. -/
theorem Inv.others_keepLife {s : State} (hI : Inv s) {a b : Agent} {f g : InFlight} (hf : (s.seq a).op = some f) (hb : b ≠ a)
    (hg : (s.seq b).op = some g) : changesLife g.instr = false := by
  cases hc : changesLife g.instr with
  | false => rfl
  | true =>
    rw [hI.alone_of_changesLife hg hc hb.symm] at hf
    cases hf

/-- Only INIT's phases are in Initializing and only TEARDOWN's in TearingDown (R27). -/
theorem phaseOf_life {g : InFlight} {s : State} (h : phaseOf g s) :
    (s.life = .initializing → g.instr = .init) ∧ (s.life = .tearingDown → g.instr = .teardown) := by
  unfold phaseOf at h
  cases hi : g.instr <;> simp only [hi] at h
  case init => exact ⟨fun _ => rfl, fun hl => by simp [initPhase, hl] at h⟩
  case teardown => exact ⟨fun hl => by simp [teardownPhase, hl] at h, fun _ => rfl⟩
  case write | setraw => simp [h.1]
  case setport | cssetport => simp [h.1.1]
  all_goals simp [h.2]

theorem TransitOk.ofFlight {t : State} {a : Agent} {g : InFlight} (hop : (t.seq a).op = some g) (h : FlightOk t a g) :
    TransitOk t := by
  have hhost : changesLife g.instr = true → t.seqs.host.op = some g := fun hc => by
    cases h.role (hostOnly_of_changesLife hc)
    exact hop
  obtain ⟨h1, h2⟩ := phaseOf_life h.phase
  exact ⟨fun hl => ⟨g, hhost (by rw [h1 hl]; rfl), h1 hl⟩, fun hl => ⟨g, hhost (by rw [h2 hl]; rfl), h2 hl⟩⟩

/-! ### Updates that keep the invariant -/

/-- Only data, the lock, each agent's operation and stopped mark, the fault set and time count; time may go on. -/
theorem Inv.congr {s t : State} (hI : Inv s) (d : DataSame s t) (hlock : t.lock = s.lock) (hfaults : t.faults = s.faults)
    (hnow : s.now ≤ t.now) (hop : ∀ a, (t.seq a).op = (s.seq a).op) (hstop : ∀ a, (t.seq a).stopped = (s.seq a).stopped) :
    Inv t := by
  have hcallers : s.callerInFlight = false → t.callerInFlight = false := fun h =>
    callerInFlight_mono h fun n hn => by rw [hop, hn]
  refine inv_iff.mpr ⟨hI.block.congr d fun hr hf => hI.coherent hr (by rw [← hlock, hf]), ⟨?_, ?_⟩, fun a => ?_⟩
  · rw [d.life]
    intro hl
    obtain ⟨f, hf, hi⟩ := hI.initializing hl
    exact ⟨f, (hop .host).trans hf, hi⟩
  · rw [d.life]
    intro hl
    obtain ⟨f, hf, hi⟩ := hI.tearingDown hl
    exact ⟨f, (hop .host).trans hf, hi⟩
  · refine (hI.agentOk a).keep (hop a) (hstop a) (by rw [hlock]) (by rw [hfaults]) fun f hf => ⟨?_, fun hc => ?_⟩
    · exact phaseOf_congr d hnow (hI.flight a f hf).phase
    · exact hcallers ((hI.flight a f hf).alone hc)

theorem Inv.afterTick {s : State} (hI : Inv s) (k : Nat) : Inv (tick k s) :=
  hI.congr ⟨rfl, rfl, rfl, rfl, rfl, rfl, rfl⟩ rfl rfl (Nat.le_add_right _ _) (fun _ => rfl) fun _ => rfl

/-- The schedule and the turn are no part of it. -/
theorem Inv.setTurn {s : State} (hI : Inv s) (ms : List Move) (u : Turn) : Inv { s with schedule := ms, turn := u } :=
  hI.congr ⟨rfl, rfl, rfl, rfl, rfl, rfl, rfl⟩ rfl rfl le_rfl (fun _ => rfl) fun _ => rfl

/-- Neither is what an agent will still ask. -/
theorem Inv.setProgram {s : State} (hI : Inv s) (a : Agent) (rs : List Request) :
    Inv (s.setSeq a { s.seq a with program := rs }) := by
  refine hI.congr ((DataSame.refl s).setSeq _ _) rfl rfl le_rfl (fun b => ?_) fun b => ?_ <;>
    simp only [setSeq_seqs, seq_eq, seqs_get_set] <;> split <;> simp_all

/-! ### The other agents -/

/-- What the acting agent's update leaves alone for the others: their sequencers and their records. Time does not go back. -/
structure Apart (s t : State) : Prop where
  seq : ∀ b, b ≠ s.agent → t.seq b = s.seq b
  faults : ∀ b, b ≠ s.agent → ((∃ r ∈ t.faults, r.agent = b) ↔ ∃ r ∈ s.faults, r.agent = b)
  now : s.now ≤ t.now

/-- A frame is all of it but the records. -/
theorem Apart.ofFrame {s t : State} (h : Frame s t)
    (hf : ∀ b, b ≠ s.agent → ((∃ r ∈ t.faults, r.agent = b) ↔ ∃ r ∈ s.faults, r.agent = b)) : Apart s t :=
  ⟨h.others, hf, h.now⟩

/-- While no other agent holds the lock, whatever the acting operation does to the register and the lines leaves the others their
parts, since theirs are lock-free or stand at their `LockAcquire` (R52). -/
theorem Apart.others_of_lock {s t : State} (h : Apart s t) (hI : Inv s) {f : InFlight} (hf : (s.seq s.agent).op = some f)
    (hs : ∀ b, b ≠ s.agent → s.lock ≠ .held b) (ht : ∀ b, b ≠ s.agent → t.lock ≠ .held b)
    (hlife : changesLife f.instr = true ∨ t.life = s.life) (b : Agent) (hb : b ≠ s.agent) : AgentOk t b := by
  refine (hI.agentOk b).keep (by rw [h.seq b hb]) (by rw [h.seq b hb]) (iff_of_false (ht b hb) (hs b hb)) (h.faults b hb)
    fun g hg => ?_
  have hg' : changesLife g.instr = false := hI.others_keepLife hf hb hg
  refine ⟨?_, fun hc => by rw [hg'] at hc; cases hc⟩
  have hok := hI.flight b g hg
  rcases hlife with hc | hlife
  · rw [hI.alone_of_changesLife hf hc hb] at hg
    cases hg
  · refine phaseOf_keep hg' hlife h.now (.inr ?_) hok.phase
    by_cases hi : g.idx = 0
    · exact .inr hi
    · refine .inl (Bool.eq_false_iff.mpr fun htl => ?_)
      exact hs b hb (hok.lock htl (Nat.one_le_iff_ne_zero.mpr hi))

/-- An update of the acting agent's sequencer alone leaves the others their parts, unless it puts an operation in flight beside an
INIT or TEARDOWN. -/
theorem Apart.others_of_data {s t : State} (h : Apart s t) (hI : Inv s) (d : DataSame s t) (hlock : t.lock = s.lock)
    (halone : ∀ b g, b ≠ s.agent → (s.seq b).op = some g → changesLife g.instr = true → (t.seq s.agent).op = none)
    (b : Agent) (hb : b ≠ s.agent) : AgentOk t b := by
  refine (hI.agentOk b).keep (by rw [h.seq b hb]) (by rw [h.seq b hb]) (by rw [hlock]) (h.faults b hb) fun g hg =>
    ⟨phaseOf_congr d h.now (hI.flight b g hg).phase, fun hc => ?_⟩
  refine callerInFlight_mono ((hI.flight b g hg).alone hc) fun n hn => ?_
  by_cases hna : Agent.caller n = s.agent
  · rw [hna]; exact halone b g hb hg hc
  · rw [h.seq _ hna, hn]

/-! ### How an operation in flight goes on, ends and begins -/

/-- u is s with a micro-step of the operation f in flight done under the lock, but for the step on to the next micro-step. -/
structure UnderLock (f : InFlight) (s u : State) : Prop where
  flight : (s.seq s.agent).op = some f
  takes : takesLock f.instr = true
  others : ∀ b, b ≠ s.agent → s.lock ≠ .held b
  lock : u.lock = .held s.agent
  turn : u.turn = s.turn
  schedule : u.schedule = s.schedule
  seqs : u.seqs = s.seqs
  faults : u.faults = s.faults
  now : u.now = s.now
  life : changesLife f.instr = true ∨ u.life = s.life

theorem UnderLock.apart {f : InFlight} {s u : State} (h : UnderLock f s u) (g : InFlight) : Apart s (u.setOp (some g)) :=
  .ofFrame ((Frame.ofSeqs h.turn h.schedule h.faults h.seqs h.now).setOp _) fun b _ => by rw [setOp_faults, h.faults]

theorem UnderLock.seq {f : InFlight} {s u : State} (h : UnderLock f s u) (g : InFlight) :
    (u.setOp (some g)).seq s.agent = { s.seq s.agent with op := some g } := by
  simp [h.turn, h.seqs]

/-- What is in flight after it keeps what an operation in flight keeps (R36). -/
theorem UnderLock.flightOk {f g : InFlight} {s u : State} (h : UnderLock f s u) (hI : Inv s) (hinstr : g.instr = f.instr)
    (hphase : phaseOf g u) : FlightOk (u.setOp (some g)) s.agent g := by
  obtain ⟨hwf, hrole, -, halone, -⟩ := hI.flight _ f h.flight
  refine ⟨hinstr ▸ hwf, hinstr ▸ hrole, fun _ _ => h.lock, fun hc => ?_,
    phaseOf_congr ((DataSame.refl u).setSeq _ _) le_rfl hphase⟩
  refine callerInFlight_mono (halone (hinstr ▸ hc)) fun n hn => ?_
  by_cases hna : Agent.caller n = s.agent
  · rw [hna, h.flight] at hn
    cases hn
  · rw [(h.apart g).seq _ hna, hn]

/-- The operation goes on, holding the lock, to its next phase. -/
theorem UnderLock.goOn {f g : InFlight} {s u : State} (h : UnderLock f s u) (hI : Inv s) (hblock : BlockOk u)
    (hinstr : g.instr = f.instr) (hidx : 1 ≤ g.idx) (hphase : phaseOf g u) : Inv (u.setOp (some g)) := by
  have hseq := h.seq g
  have hop : ((u.setOp (some g)).seq s.agent).op = some g := by rw [hseq]
  have hok := h.flightOk hI hinstr hphase
  have hown : AgentOk (u.setOp (some g)) s.agent := by
    refine ⟨fun _ => ⟨g, hop, hinstr ▸ h.takes, hidx⟩, fun k hk => ?_, ?_, fun hst => ?_⟩
    · cases hop.symm.trans hk
      exact hok
    · rw [hseq, setOp_faults, h.faults]
      exact hI.stopped s.agent
    · rw [hseq] at hst
      cases (hI.halted _ hst).symm.trans h.flight
  have hheld : (u.setOp (some g)).lock = .held s.agent := h.lock
  refine inv_iff.mpr ⟨hblock.congr ((DataSame.refl u).setSeq _ _) fun _ hfree => ?_, .ofFlight hop hok, fun b => ?_⟩
  · cases hheld.symm.trans hfree
  · by_cases hb : b = s.agent
    · rw [hb]; exact hown
    · refine (h.apart g).others_of_lock hI h.flight h.others (fun c hc => ?_) h.life b hb
      rw [hheld]
      exact fun heq => hc (Lock.held.inj heq).symm

/-- The operation returns with its `LockRelease`: in Ready with the register coherent, or in Down (R56, R59). -/
theorem Inv.unlocked {f : InFlight} {s : State} (hI : Inv s) (hf : (s.seq s.agent).op = some f) (hl : s.lock = .held s.agent)
    (hend : s.life = .ready ∧ Coherent s ∨ s.life = .down) (r : OpResult) :
    Inv (returnResult r { s with lock := .free }) := by
  have hd : DataSame s (returnResult r { s with lock := .free }) := ⟨rfl, rfl, rfl, rfl, rfl, rfl, rfl⟩
  have hapart : Apart s (returnResult r { s with lock := .free }) :=
    .ofFrame ((Frame.ofSeqs (s := s) (t := { s with lock := .free }) rfl rfl rfl rfl rfl).returnResult r) fun _ _ => .rfl
  have hseq : (returnResult r { s with lock := .free }).seq s.agent = { s.seq s.agent with op := none, result := some r } :=
    seqs_get_set_same _ _ _
  refine inv_iff.mpr ⟨hI.block.congr hd fun hr _ => ?_, ⟨fun hl => ?_, fun hl => ?_⟩, fun b => ?_⟩
  · obtain ⟨-, hc⟩ | hdown := hend
    · exact hc
    · cases hdown.symm.trans hr
  · rw [hd.life] at hl
    simp [hl] at hend
  · rw [hd.life] at hl
    simp [hl] at hend
  · by_cases hb : b = s.agent
    · rw [hb]
      exact .ofIdle (by rw [hseq]) nofun (by rw [hseq]; exact hI.stopped s.agent)
    · refine hapart.others_of_lock hI hf (fun c hc => ?_) (fun c _ => nofun) (.inr rfl) b hb
      rw [hl]
      exact fun heq => hc (Lock.held.inj heq).symm

/-- The acting agent has nothing in flight, or an operation that needs no lock. -/
def LockFree (s : State) : Prop := ∀ f, (s.seq s.agent).op = some f → takesLock f.instr = false

theorem LockFree.ofIdle {s : State} (h : (s.seq s.agent).op = none) : LockFree s :=
  fun _ hf => absurd (h.symm.trans hf) nofun

theorem LockFree.lock_ne {s : State} (h : LockFree s) (hI : Inv s) : s.lock ≠ .held s.agent := fun hl => by
  obtain ⟨f, hf, htakes, -⟩ := hI.holder _ hl
  cases (h f hf).symm.trans htakes

/-- An INIT or TEARDOWN in flight is then another agent's. -/
theorem LockFree.host_ne {s : State} (h : LockFree s) {f : InFlight} (hf : s.seqs.host.op = some f)
    (hc : changesLife f.instr = true) : Agent.host ≠ s.agent := fun ha => by
  have hfree : takesLock f.instr = false := h f (by rw [← ha]; exact hf)
  cases hfree.symm.trans (takesLock_of_changesLife hc)

/-- Such an agent may be left with nothing in flight. -/
theorem LockFree.ends {s t : State} (h : LockFree s) (hI : Inv s) (hd : DataSame s t) (hlock : t.lock = s.lock)
    (hapart : Apart s t) (hop : (t.seq s.agent).op = none)
    (hstop : (t.seq s.agent).stopped = true ↔ ∃ r ∈ t.faults, r.agent = s.agent) : Inv t := by
  have hhost : ∀ f, s.seqs.host.op = some f → changesLife f.instr = true → t.seqs.host.op = some f := fun f hf hc => by
    rw [← hf]
    exact congrArg Sequencer.op (hapart.seq .host (h.host_ne hf hc))
  refine inv_iff.mpr ⟨hI.block.congr hd fun hr hl => hI.coherent hr (hlock.symm.trans hl), ⟨fun hl => ?_, fun hl => ?_⟩,
    fun b => ?_⟩
  · obtain ⟨f, hf, hi⟩ := hI.initializing (hd.life.symm.trans hl)
    exact ⟨f, hhost f hf (by rw [hi]; rfl), hi⟩
  · obtain ⟨f, hf, hi⟩ := hI.tearingDown (hd.life.symm.trans hl)
    exact ⟨f, hhost f hf (by rw [hi]; rfl), hi⟩
  · by_cases hb : b = s.agent
    · rw [hb]
      exact .ofIdle hop (by rw [hlock]; exact h.lock_ne hI) hstop
    · exact hapart.others_of_data hI hd hlock (fun _ _ _ _ _ => hop) b hb

theorem LockFree.afterReturn {s : State} (h : LockFree s) (hI : Inv s) (r : OpResult) : Inv (returnResult r s) := by
  refine h.ends hI ((DataSame.refl s).setSeq _ _) rfl (.ofFrame ((Frame.refl s).returnResult r) fun _ _ => .rfl) ?_ ?_
  · simp
  · simpa using hI.stopped s.agent

theorem LockFree.afterFault {s : State} (h : LockFree s) (hI : Inv s) (c : FaultCode) (w : OpWord) :
    Inv (raiseFault c w s) := by
  refine h.ends hI ⟨rfl, rfl, rfl, rfl, rfl, rfl, rfl⟩ rfl (.ofFrame (.raiseFault c w s) fun b hb => ?_) (by simp) (by simp)
  have hne : s.turn.agent ≠ b := Ne.symm hb
  simp [or_and_right, exists_or, hne]

theorem hostInTransition_eq_false {s : State} :
    s.hostInTransition = false ↔ ∀ f, s.seqs.host.op = some f → changesLife f.instr = false := by
  cases h : s.seqs.host.op <;> simp [State.hostInTransition, changesLife, h]

/-! ### Issue (R36, R122, R123) -/

@[simp] theorem inFlightOf_instr (i : Instr) : (inFlightOf i).instr = i := by cases i <;> rfl
@[simp] theorem inFlightOf_idx (i : Instr) : (inFlightOf i).idx = 0 := by cases i <;> rfl

theorem admission_eq_none {i : Instr} {life : State → Option FaultCode} {s : State} :
    admission i life s = none ↔ i.wellFormed = true ∧ (hostOnly i = true → s.agent = .host) ∧ life s = none := by
  unfold admission
  split
  · next hw => simp [hw]
  · next hw =>
    split
    · next hr => exact ⟨nofun, fun h => absurd (h.2.1 hr.1) hr.2⟩
    · next hr =>
      have hrole : hostOnly i = true → s.agent = .host := fun h => not_not.mp fun hne => hr ⟨h, hne⟩
      exact ⟨fun h => ⟨by simpa using hw, hrole, h⟩, fun h => h.2.2⟩

theorem lifecycleReady_eq_none {s : State} : lifecycleReady s = none ↔ Open s := by
  by_cases h : Open s
  · exact iff_of_true (lifecycleReady_open h) h
  · rw [lifecycleReady, if_neg h]
    simp [h]

/-- An operation other than INIT and TEARDOWN has passed the check of Ready (R123). -/
theorem open_of_lifecycleOf {i : Instr} {s : State} (hc : changesLife i = false) (h : lifecycleOf i s = none) : Open s := by
  refine lifecycleReady_eq_none.mp ?_
  cases i
  case init | teardown => simp [changesLife] at hc
  all_goals exact h

/-- No caller has anything in flight where INIT or TEARDOWN is admitted (R123). -/
theorem Inv.alone_of_lifecycleOf {i : Instr} {s : State} (hI : Inv s) (hc : changesLife i = true)
    (h : lifecycleOf i s = none) : s.callerInFlight = false := by
  cases i
  case init =>
    refine callerInFlight_false.mpr fun n => Option.eq_none_iff_forall_ne_some.mpr fun f hf => ?_
    have hready : s.life = .ready := hI.caller_ready hf
    simp [lifecycleOf, lifecycleInit, hready] at h
  case teardown =>
    have h' : lifecycleTeardown s = none := h
    simp only [lifecycleTeardown, ite_eq_right_iff, reduceCtorEq, imp_false, Bool.or_eq_true, not_or, Bool.not_eq_true] at h'
    exact h'.1
  all_goals simp [changesLife] at hc

/-- An idle agent's operation that is admitted and not returned at once is in its first phase. -/
theorem Inv.phaseOf_inFlightOf {i : Instr} {s : State} (hI : Inv s) (hidle : (s.seq s.agent).op = none)
    (hrole : hostOnly i = true → s.agent = .host) (h : lifecycleOf i s = none) (honce : atOnceOf i s = none) :
    phaseOf (inFlightOf i) s := by
  cases i
  case init =>
    have hdown : s.life = .down := by
      have h' : lifecycleInit s = none := h
      unfold lifecycleInit at h'
      cases hl : s.life <;> simp [hl] at h' ⊢
    exact .inl ⟨Nat.zero_le _, hdown⟩
  case teardown =>
    have hhost : s.seqs.host.op = none := by
      have ha : s.agent = .host := hrole rfl
      rw [ha] at hidle
      exact hidle
    have hready : s.life = .ready := by
      cases hl : s.life with
      | ready => rfl
      | down => simp [atOnceOf, teardownAtOnce, hl] at honce
      | initializing =>
        obtain ⟨f, hf, -⟩ := hI.initializing hl
        cases hhost.symm.trans hf
      | tearingDown =>
        obtain ⟨f, hf, -⟩ := hI.tearingDown hl
        cases hhost.symm.trans hf
    exact .inl ⟨rfl, hready⟩
  case write | setraw => exact ⟨(open_of_lifecycleOf rfl h).1, .inl rfl⟩
  case setport | cssetport => exact ⟨⟨(open_of_lifecycleOf rfl h).1, Nat.zero_le _, .inl rfl⟩, rfl⟩
  all_goals exact ⟨rfl, (open_of_lifecycleOf rfl h).1⟩

/-- An idle agent's operation is put in flight once it is admitted and not returned at once. -/
theorem Inv.issued {i : Instr} {s : State} (hI : Inv s) (hready : (s.seq s.agent).ready = true)
    (hadm : admission i (lifecycleOf i) s = none) (honce : atOnceOf i s = none) : Inv (s.setOp (some (inFlightOf i))) := by
  obtain ⟨hidle, hrunning⟩ := ready_iff.mp hready
  obtain ⟨hwf, hrole, hlife⟩ := admission_eq_none.mp hadm
  have hd : DataSame s (s.setOp (some (inFlightOf i))) := (DataSame.refl s).setSeq _ _
  have hapart : Apart s (s.setOp (some (inFlightOf i))) := .ofFrame ((Frame.refl s).setOp _) fun _ _ => .rfl
  have hop : ((s.setOp (some (inFlightOf i))).seq s.agent).op = some (inFlightOf i) := op_setOp s _
  have hok : FlightOk (s.setOp (some (inFlightOf i))) s.agent (inFlightOf i) := by
    refine ⟨by rwa [inFlightOf_instr], by rwa [inFlightOf_instr], fun _ hi => by simp at hi, fun hc => ?_,
      phaseOf_congr hd le_rfl (hI.phaseOf_inFlightOf hidle hrole hlife honce)⟩
    rw [inFlightOf_instr] at hc
    refine callerInFlight_mono (hI.alone_of_lifecycleOf hc hlife) fun n hn => ?_
    have hna : Agent.caller n ≠ s.agent := by rw [hrole (hostOnly_of_changesLife hc)]; nofun
    rw [hapart.seq _ hna, hn]
  refine inv_iff.mpr ⟨hI.block.congr hd hI.coherent, .ofFlight hop hok, fun b => ?_⟩
  by_cases hb : b = s.agent
  · rw [hb]
    refine ⟨fun hl => absurd hl ((LockFree.ofIdle hidle).lock_ne hI), fun k hk => ?_, ?_, fun hst => ?_⟩
    · cases hop.symm.trans hk
      exact hok
    · simpa using hI.stopped s.agent
    · have hst' : (s.seq s.agent).stopped = true := by simpa using hst
      cases hrunning.symm.trans hst'
  · refine hapart.others_of_data hI hd rfl (fun c k hc hk hchange => ?_) b hb
    have hhost : c = .host := hI.host_of_changesLife hk hchange
    subst hhost
    cases hi : changesLife i with
    | true => exact absurd (hrole (hostOnly_of_changesLife hi)).symm hc
    | false =>
      have hquiet := hostInTransition_eq_false.mp (open_of_lifecycleOf hi hlife).2 k hk
      cases hquiet.symm.trans hchange

end Sys2Proof.Machine
end

section
/-! ### Each micro-step of an operation in flight, from the phase before it to the phase after it -/

namespace Sys2Proof.Machine

/-- The next micro-step of f happens, and keeps the invariant. -/
def StepsOn (f : InFlight) (s : State) : Prop := ∃ t, microStep f s = .next t ∧ Inv t

theorem StepsOn.of {f : InFlight} {s t : State} {m : Micro} (hm : (sequenceOf f.instr)[f.idx]? = some m)
    (hr : runMicro f m s = .next t) (ht : Inv t) : StepsOn f s :=
  ⟨t, (microStep_eq hm).trans hr, ht⟩

theorem UnderLock.ofHeld {f : InFlight} {s u : State} (hI : Inv s) (hf : (s.seq s.agent).op = some f)
    (hl : s.lock = .held s.agent) (hlock : u.lock = s.lock) (hturn : u.turn = s.turn) (hschedule : u.schedule = s.schedule)
    (hseqs : u.seqs = s.seqs) (hfaults : u.faults = s.faults) (hnow : u.now = s.now)
    (hlife : changesLife f.instr = true ∨ u.life = s.life) : UnderLock f s u where
  flight := hf
  takes := (((hI.agentOk _).lock_iff hf).mp hl).1
  others := fun _ hb hlb => hb (Lock.held.inj (hlb.symm.trans hl))
  lock := hlock.trans hl
  turn := hturn
  schedule := hschedule
  seqs := hseqs
  faults := hfaults
  now := hnow
  life := hlife

theorem LineMove.underLock {f : InFlight} {s u : State} (m : LineMove s u) (hI : Inv s) (hf : (s.seq s.agent).op = some f)
    (hl : s.lock = .held s.agent) : UnderLock f s u :=
  .ofHeld hI hf hl m.lock m.turn m.schedule m.seqs m.faults m.now (.inr m.life)

section
variable {f : InFlight} {s : State}

/-- `LockAcquire`: blocked, or the operation comes to its first phase under the lock (R56). -/
theorem Inv.steps_lockAcquire (hI : Inv s) (hf : (s.seq s.agent).op = some f)
    (hm : (sequenceOf f.instr)[f.idx]? = some .lockAcquire) (htakes : takesLock f.instr = true)
    (hphase : s.lock = .free → phaseOf { f with idx := f.idx + 1 } s) : StepsOn f s := by
  by_cases hfree : s.lock = .free
  · have hd : DataSame s { s with lock := .held s.agent } := ⟨rfl, rfl, rfl, rfl, rfl, rfl, rfl⟩
    have hu : UnderLock f s { s with lock := .held s.agent } :=
      ⟨hf, htakes, fun _ _ hb => absurd (hfree.symm.trans hb) nofun, rfl, rfl, rfl, rfl, rfl, rfl, .inr rfl⟩
    refine .of hm (by rw [runMicro, microLockAcquire, if_pos hfree]) ?_
    exact hu.goOn hI (hI.block.congr hd fun _ hl => absurd hl nofun) rfl (Nat.le_add_left 1 _)
      (phaseOf_congr hd le_rfl (hphase hfree))
  · exact .of hm (by rw [runMicro, microLockAcquire, if_neg hfree]) hI

/-- `LockRelease` and the return (R56). -/
theorem Inv.steps_lockRelease (hI : Inv s) (hf : (s.seq s.agent).op = some f) (hl : s.lock = .held s.agent) {r : OpResult}
    (hm : (sequenceOf f.instr)[f.idx]? = some (.lockRelease r)) (hend : s.life = .ready ∧ Coherent s ∨ s.life = .down) :
    StepsOn f s :=
  .of hm (by rw [runMicro, lockRelease, if_pos hl]) (hI.unlocked hf hl hend r)

/-- A step on to a phase that the data of the state are in already. -/
theorem Inv.goOn_same (hI : Inv s) (hf : (s.seq s.agent).op = some f) (hl : s.lock = .held s.agent) {g : InFlight}
    (hinstr : g.instr = f.instr) (hidx : 1 ≤ g.idx) (hphase : phaseOf g s) : Inv (s.setOp (some g)) :=
  (UnderLock.ofHeld hI hf hl rfl rfl rfl rfl rfl rfl (.inr rfl)).goOn hI hI.block hinstr hidx hphase

/-- The value of a WRITE sequence (R79). -/
theorem Inv.steps_load (hI : Inv s) (hf : (s.seq s.agent).op = some f) (hl : s.lock = .held s.agent) {v : U16}
    (hm : (sequenceOf f.instr)[f.idx]? = some (.load v))
    (hphase : phaseOf { f with v := v, wpos := s.turn.wpos, idx := f.idx + 1 } s) : StepsOn f s :=
  .of hm rfl (hI.goOn_same hf hl rfl (Nat.le_add_left 1 _) hphase)

/-- A micro-step of a WRITE sequence (R79, R80). -/
theorem Inv.steps_shiftOut (hI : Inv s) (hf : (s.seq s.agent).op = some f) (hl : s.lock = .held s.agent) {k : Nat} (hk : k < 53)
    (hm : (sequenceOf f.instr)[f.idx]? = some (.shiftOut k)) (hw : WritePhase f k s)
    (hphase : ∀ u, LineMove s u → WritePhase { f with idx := f.idx + 1 } (k + 1) u →
      phaseOf { f with idx := f.idx + 1 } u) :
    StepsOn f s := by
  obtain ⟨u, hu, hw', hmove⟩ := microStep_write hk hm hw
  refine ⟨_, hu, (hmove.underLock hI hf hl).goOn hI ?_ rfl (Nat.le_add_left 1 _) (hphase u hmove (hw'.cast rfl rfl rfl))⟩
  exact hI.block.lineMove hmove (by rw [hl]; nofun)

/-- A write of `life` by INIT or TEARDOWN (R86, R90). -/
theorem Inv.steps_setLife (hI : Inv s) (hf : (s.seq s.agent).op = some f) (hl : s.lock = .held s.agent) {l : Lifecycle}
    (hc : changesLife f.instr = true) (hm : (sequenceOf f.instr)[f.idx]? = some (.setLife l))
    (hblock : BlockOk { s with life := l }) (hphase : phaseOf { f with idx := f.idx + 1 } { s with life := l }) :
    StepsOn f s :=
  .of hm rfl ((UnderLock.ofHeld hI hf hl (u := { s with life := l }) rfl rfl rfl rfl rfl rfl (.inl hc)).goOn hI hblock rfl
    (Nat.le_add_left 1 _) hphase)

/-- A release by INIT or TEARDOWN (R86, R90). -/
theorem Inv.steps_release (hI : Inv s) (hf : (s.seq s.agent).op = some f) (hl : s.lock = .held s.agent) {l : Line}
    (hm : (sequenceOf f.instr)[f.idx]? = some (.release l)) (hlife : s.life = .initializing ∨ s.life = .tearingDown)
    (hphase : phaseOf { f with idx := f.idx + 1 } (releaseLine l s)) : StepsOn f s := by
  have hu : UnderLock f s (releaseLine l s) := by apply UnderLock.ofHeld hI hf hl <;> simp
  exact .of hm rfl (hu.goOn hI (.ofTransit (known_releaseLine hI.known) (by simpa using hlife)) rfl (Nat.le_add_left 1 _) hphase)

/-- The delay condition on the current field (R97, R100). -/
theorem Inv.steps_readField (hI : Inv s) (hf : (s.seq s.agent).op = some f) (hl : s.lock = .held s.agent)
    (hm : (sequenceOf f.instr)[f.idx]? = some .readField) (hmirror : s.mirror ≠ none)
    (hdelayed : phaseOf { f with t0 := s.now, idx := f.idx + 1 } s) (hundelayed : phaseOf { f with idx := f.idx + 2 } s) :
    StepsOn f s := by
  obtain ⟨m, hmirror⟩ := Option.ne_none_iff_exists'.mp hmirror
  cases hneed : needDelay (field m f.p) f.nb with
  | true =>
    exact .of (t := s.setOp (some { f with t0 := s.now, idx := f.idx + 1 })) hm
      (by simp only [runMicro, microReadField, hmirror, hneed, if_true])
      (hI.goOn_same hf hl rfl (Nat.le_add_left 1 _) hdelayed)
  | false =>
    exact .of (t := s.setOp (some { f with idx := f.idx + 2 })) hm
      (by simp only [runMicro, microReadField, hmirror, hneed, Bool.false_eq_true, if_false])
      (hI.goOn_same hf hl rfl (Nat.le_add_left 1 _) hundelayed)

/-- The settling delay: over, or still on after the time that the turn lets pass (R98, R129). -/
theorem Inv.steps_waitSettled (hI : Inv s) (hf : (s.seq s.agent).op = some f) (hl : s.lock = .held s.agent)
    (hm : (sequenceOf f.instr)[f.idx]? = some .waitSettled)
    (hphase : phaseOf { f with idx := f.idx + 1 } (tick s.turn.elapse s)) : StepsOn f s := by
  have hlater : Inv (tick s.turn.elapse s) := hI.afterTick _
  by_cases hover : f.t0 + Config.settleDelayMs ≤ (tick s.turn.elapse s).now
  · exact .of (t := advance f (tick s.turn.elapse s)) hm (by simp only [runMicro, microWait, hover, if_true])
      (hlater.goOn_same hf hl rfl (Nat.le_add_left 1 _) hphase)
  · exact .of (t := tick s.turn.elapse s) hm (by simp only [runMicro, microWait, hover, if_false]) hlater

/-- The merged value of SETPORT (R100). -/
theorem Inv.steps_merge (hI : Inv s) (hf : (s.seq s.agent).op = some f) (hl : s.lock = .held s.agent)
    (hm : (sequenceOf f.instr)[f.idx]? = some .merge) (hmirror : s.mirror ≠ none)
    (hphase : ∀ v, phaseOf { f with v := v, wpos := s.turn.wpos, idx := f.idx + 1 } s) : StepsOn f s := by
  obtain ⟨m, hmirror⟩ := Option.ne_none_iff_exists'.mp hmirror
  exact .of (t := startWrite (mergeField m f.p f.nb) f s) hm (by simp only [runMicro, microMerge, hmirror])
    (hI.goOn_same hf hl rfl (Nat.le_add_left 1 _) (hphase _))

/-! ### WRITE and SETRAW (R85, R106) -/

theorem AllOwned.writePhase_cast (h : AllOwned s) {k : Nat} (hk : k = 0) : WritePhase f k s := by
  subst hk
  exact .zero h

theorem Inv.steps_raw {v : U16} (hI : Inv s) (hf : (s.seq s.agent).op = some f) (hseq : sequenceOf f.instr = seqWrite v)
    (htakes : takesLock f.instr = true) (hphases : ∀ g u, g.instr = f.instr → rawPhase v g u → phaseOf g u)
    (h : rawPhase v f s) : StepsOn f s := by
  obtain ⟨hready, h0 | ⟨h1, -⟩ | ⟨hlo, hhi, hv, hw⟩⟩ := h
  · refine hI.steps_lockAcquire hf (by rw [hseq, h0]; rfl) htakes fun hfree => ?_
    exact hphases _ _ rfl ⟨hready, .inr (.inl ⟨by simp [h0], hI.coherent hready hfree⟩)⟩
  · have hl := (hI.flight _ f hf).lock htakes (by omega)
    refine hI.steps_load hf hl (v := v) (by rw [hseq, h1]; rfl) (hphases _ _ rfl ⟨hready, .inr (.inr ?_)⟩)
    exact ⟨by simp [h1], by simp [h1], rfl, (hI.ready hready).writePhase_cast (by simp [h1])⟩
  have hl := (hI.flight _ f hf).lock htakes (by omega)
  by_cases hend : f.idx = 55
  · rw [hend] at hw
    exact hI.steps_lockRelease hf hl (by rw [hseq, hend]; exact seqRaw_end v) (.inl ⟨hready, hw.done.1⟩)
  · have hm : (sequenceOf f.instr)[f.idx]? = some (.shiftOut (f.idx - 2)) := by
      rw [hseq, ← seqRaw_shift v (k := f.idx - 2) (by omega), show 2 + (f.idx - 2) = f.idx by omega]
    refine hI.steps_shiftOut hf hl (by omega) hm hw fun u hmove hw' => hphases _ _ rfl ?_
    exact ⟨hmove.life.trans hready, .inr (.inr ⟨by simp; omega, by simp; omega, hv, hw'.cast rfl rfl (by simp; omega)⟩)⟩

/-! ### SETPORT and CSSETPORT (R100, R113) -/

theorem Inv.steps_port {nb : BitVec 2} (hI : Inv s) (hf : (s.seq s.agent).op = some f) (hseq : sequenceOf f.instr = seqSetport)
    (htakes : takesLock f.instr = true) (hnb : f.nb = nb)
    (hphases : ∀ g u, g.instr = f.instr → portPhase g u → g.nb = nb → phaseOf g u) (h : portPhase f s) : StepsOn f s := by
  obtain ⟨hready, ht0, h0 | ⟨hlo, hhi, hcoh⟩ | ⟨hlo, hhi, hw⟩⟩ := h
  · refine hI.steps_lockAcquire hf (by rw [hseq, h0]; rfl) htakes fun hfree => ?_
    exact hphases _ _ rfl ⟨hready, ht0, .inr (.inl ⟨by simp, by simp [h0], hI.coherent hready hfree⟩)⟩ hnb
  · have hl := (hI.flight _ f hf).lock htakes hlo
    have hmirror := hI.present hready
    have hidx : f.idx = 1 ∨ f.idx = 2 ∨ f.idx = 3 := by omega
    obtain h1 | h2 | h3 := hidx
    · refine hI.steps_readField hf hl (by rw [hseq, h1]; rfl) hmirror (hphases _ _ rfl ⟨hready, le_rfl, .inr (.inl ?_)⟩ hnb)
        (hphases _ _ rfl ⟨hready, ht0, .inr (.inl ?_)⟩ hnb)
      · exact ⟨by simp, by simp [h1], hcoh⟩
      · exact ⟨by simp, by simp [h1], hcoh⟩
    · refine hI.steps_waitSettled hf hl (by rw [hseq, h2]; rfl) (hphases _ _ rfl ⟨hready, ?_, .inr (.inl ?_)⟩ hnb)
      · exact le_trans ht0 (Nat.le_add_right _ _)
      · exact ⟨by simp, by simp [h2], hcoh.keep ⟨rfl, rfl, rfl, rfl, rfl, rfl, rfl⟩⟩
    · refine hI.steps_merge hf hl (by rw [hseq, h3]; rfl) hmirror fun v => hphases _ _ rfl ⟨hready, ht0, .inr (.inr ?_)⟩ hnb
      exact ⟨by simp [h3], by simp [h3], (hI.ready hready).writePhase_cast (by simp [h3])⟩
  have hl := (hI.flight _ f hf).lock htakes (by omega)
  by_cases hend : f.idx = 57
  · rw [hend] at hw
    exact hI.steps_lockRelease hf hl (by rw [hseq, hend]; exact seqPort_end) (.inl ⟨hready, hw.done.1⟩)
  · have hm : (sequenceOf f.instr)[f.idx]? = some (.shiftOut (f.idx - 4)) := by
      rw [hseq, ← seqPort_shift (k := f.idx - 4) (by omega), show 4 + (f.idx - 4) = f.idx by omega]
    refine hI.steps_shiftOut hf hl (by omega) hm hw fun u hmove hw' => hphases _ _ rfl ?_ hnb
    exact ⟨hmove.life.trans hready, by rw [hmove.now]; exact ht0,
      .inr (.inr ⟨by simp; omega, by simp; omega, hw'.cast rfl rfl (by simp; omega)⟩)⟩

end

end Sys2Proof.Machine
end

section
/-! ### INIT and TEARDOWN, phase by phase (R86, R90) -/

namespace Sys2Proof.Machine

theorem perLine_set_get {α : Type} {x : PerLine α} {l : Line} {y : α} (h : x.get l = y) : x.set l y = x := by
  subst h
  cases l <;> rfl

theorem perLine_eq_all_of {α : Type} {x : PerLine α} {y : α} (hclk : x.clk = y) (hdata : x.data = y) (hstore : x.store = y)
    (hoe : x.oe = y) : x = PerLine.all y :=
  perLine_eq_all fun l => by cases l <;> assumption

theorem releaseLine_owned (l : Line) (s : State) : (releaseLine l s).owned = s.owned.set l false := by
  unfold releaseLine
  split
  · rfl
  · next ho => exact (perLine_set_get (by simpa using ho)).symm

theorem BlockOk.releaseLine_level {s : State} (h : BlockOk s) (l : Line) :
    (releaseLine l s).level = s.level.set l .unknown := by
  unfold releaseLine
  split
  · rfl
  · next ho => exact (perLine_set_get (not_not.mp fun hne => ho ((h.known l).mpr hne))).symm

theorem BlockOk.oe_unknown {s : State} (h : BlockOk s) (ho : s.owned.oe = false) : s.level.oe = .unknown := by
  by_contra hne
  exact absurd ((h.known .oe).mpr hne) (by simp [PerLine.get, ho])

/-- Down with nothing owned (R89, R90). -/
theorem BlockOk.ofDown {s : State} (hk : ∀ l, s.owned.get l = true ↔ s.level.get l ≠ .unknown) (hlife : s.life = .down)
    (hnone : s.owned = PerLine.all false) : BlockOk s := by
  constructor
  case known => exact hk
  case down => exact fun _ => hnone
  all_goals intro h; cases hlife.symm.trans h

/-- Driving OE leaves the register and the other lines (R104). -/
theorem regSame_driveOe (on : Bool) (s : State) : RegSame s { lineDone .oe on s with oeState := on } := by
  constructor <;> simp [lineDone_chain, lineDone_latch, PerLine.set]

/-- The order in which INIT acquires the lines and INIT and TEARDOWN release them (R86, R90). -/
def lineAt : Nat → Line
  | 0 => .clk
  | 1 => .data
  | 2 => .store
  | _ => .oe

theorem seqInit_acquire {n : Nat} (h : n < 4) : seqInit[2 + n]? = some (.acquire (lineAt n)) := by
  interval_cases n <;> rfl

theorem seqInit_release {n : Nat} (h : n < 4) : seqInit[63 + n]? = some (.release (lineAt n)) := by
  interval_cases n <;> rfl

theorem seqTeardown_release {n : Nat} (h : n < 4) : seqTeardown[2 + n]? = some (.release (lineAt n)) := by
  interval_cases n <;> rfl

section
variable {f : InFlight} {s : State}

theorem phaseOf_init (h : f.instr = .init) : phaseOf f s = initPhase f s := by
  unfold phaseOf
  rw [h]

theorem phaseOf_teardown (h : f.instr = .teardown) : phaseOf f s = teardownPhase f s := by
  unfold phaseOf
  rw [h]

theorem phaseOf_of_init (h : f.instr = .init) (hp : initPhase f s) : phaseOf f s := by
  rwa [phaseOf_init h]

theorem phaseOf_of_teardown (h : f.instr = .teardown) (hp : teardownPhase f s) : phaseOf f s := by
  rwa [phaseOf_teardown h]

theorem Inv.lock_of_changesLife (hI : Inv s) (hf : (s.seq s.agent).op = some f) (hc : changesLife f.instr = true)
    (hidx : 1 ≤ f.idx) : s.lock = .held s.agent :=
  (hI.flight _ f hf).lock (takesLock_of_changesLife hc) hidx

/-- An acquisition of INIT: the next one follows, or the release part does, with OE not driven (R86). -/
theorem Inv.steps_acquire (hI : Inv s) (hf : (s.seq s.agent).op = some f) (hl : s.lock = .held s.agent) {l : Line}
    (hi : f.instr = .init) (hm : (sequenceOf f.instr)[f.idx]? = some (.acquire l)) (hlife : s.life = .initializing)
    (hoe : s.owned.oe = false) (hphase : initPhase { f with idx := f.idx + 1 } (acquireLine l s)) : StepsOn f s := by
  cases hg : s.turn.grant.get l with
  | true =>
    have hu : UnderLock f s (acquireLine l s) := .ofHeld hI hf hl rfl rfl rfl rfl rfl rfl (.inr rfl)
    refine .of (t := advance f (acquireLine l s)) hm (by rw [runMicro, microAcquire, if_pos hg])
      (hu.goOn hI ?_ rfl (Nat.le_add_left 1 _) (phaseOf_of_init hi hphase))
    exact .ofTransit (known_acquireLine hI.known) (.inl hlife)
  | false =>
    have hu : UnderLock f s (s.log (.acquire l false)) := .ofHeld hI hf hl rfl rfl rfl rfl rfl rfl (.inr rfl)
    refine .of (t := (s.log (.acquire l false)).setOp (some { f with idx := initFailIdx })) hm
      (by simp only [runMicro, microAcquire, hg, Bool.false_eq_true, if_false])
      (hu.goOn hI (.ofTransit hI.known (.inl hlife)) rfl (show 1 ≤ initFailIdx by decide) (phaseOf_of_init hi ?_))
    refine .inr (.inr (.inr (.inr (.inr (.inl ?_)))))
    simp [initFailIdx, hlife, hI.block.oe_unknown hoe]

/-- INIT raises OE once 0x0000 has been written (R88). -/
theorem Inv.steps_oeOn (hI : Inv s) (hf : (s.seq s.agent).op = some f) (hl : s.lock = .held s.agent)
    (hm : (sequenceOf f.instr)[f.idx]? = some .oeOn) (hlife : s.life = .initializing) (ho : s.owned.oe = true)
    (hphase : phaseOf { f with idx := f.idx + 1 } { lineDone .oe true s with oeState := true }) : StepsOn f s := by
  have hu : UnderLock f s { lineDone .oe true s with oeState := true } := by
    apply UnderLock.ofHeld hI hf hl <;> simp
  refine .of (t := advance f { lineDone .oe true s with oeState := true }) hm ?_
    (hu.goOn hI (.ofTransit (known_lineDone ho hI.known) (.inl (by simpa using hlife))) rfl (Nat.le_add_left 1 _) hphase)
  simp only [runMicro, driveOe, lineSet_owned (show s.owned.get .oe = true from ho), thenAdvance]

/-! ### INIT -/

/-- INIT while it acquires the lines, up to the load of 0x0000. -/
theorem Inv.steps_init_acquiring (hI : Inv s) (hf : (s.seq s.agent).op = some f) (hi : f.instr = .init) (h : initPhase f s)
    (hlo : 2 ≤ f.idx) (hhi : f.idx ≤ 6) : StepsOn f s := by
  have hseq : sequenceOf f.instr = seqInit := by rw [hi]; rfl
  have hl := hI.lock_of_changesLife hf (by rw [hi]; rfl) (by omega)
  rcases h with h | ⟨-, -, hlife, hclk, hdata, hstore, hoe, hnclk, hndata, hnstore, hnoe⟩ | h | h | h | h | h
  case inr.inl =>
    by_cases hend : f.idx = 6
    · have hall : AllOwned s :=
        perLine_eq_all_of (hclk (by omega)).1 (hdata (by omega)).1 (hstore (by omega)).1 (hoe (by omega)).1
      refine hI.steps_load hf hl (v := 0) (by rw [hseq, hend]; rfl) (phaseOf_of_init hi (.inr (.inr (.inl ?_))))
      exact ⟨by simp [hend], by simp [hend], hlife, rfl, hall.writePhase_cast (by simp [hend]), (hoe (by omega)).2⟩
    · obtain ⟨n, hn, hidx⟩ : ∃ n, n < 4 ∧ f.idx = 2 + n := ⟨f.idx - 2, by omega, by omega⟩
      have hm : (sequenceOf f.instr)[f.idx]? = some (.acquire (lineAt n)) := by rw [hseq, hidx, seqInit_acquire hn]
      refine hI.steps_acquire hf hl hi hm hlife (hnoe (by omega)) (.inr (.inl ?_))
      interval_cases n <;> simp_all [lineAt, acquired, PerLine.get, PerLine.set]
  all_goals omega

/-- INIT while it writes 0x0000, up to the raising of OE. -/
theorem Inv.steps_init_writing (hI : Inv s) (hf : (s.seq s.agent).op = some f) (hi : f.instr = .init) (h : initPhase f s)
    (hlo : 7 ≤ f.idx) (hhi : f.idx ≤ 60) : StepsOn f s := by
  have hseq : sequenceOf f.instr = seqInit := by rw [hi]; rfl
  have hl := hI.lock_of_changesLife hf (by rw [hi]; rfl) (by omega)
  rcases h with h | h | ⟨-, -, hlife, hv, hw, hoe⟩ | h | h | h | h
  case inr.inr.inl =>
    by_cases hend : f.idx = 60
    · rw [hend] at hw
      obtain ⟨hcoh, hlatch⟩ := hw.done
      have hreg := regSame_driveOe true s
      refine hI.steps_oeOn hf hl (by rw [hseq, hend]; rfl) hlife (by rw [hw.owned]; rfl)
        (phaseOf_of_init hi (.inr (.inr (.inr (.inl ?_)))))
      exact ⟨by simp [hend], by simpa using hlife, hreg.owned.trans hw.owned, hcoh.keep hreg,
        hreg.latch.trans (hlatch.trans hv), by simp [PerLine.set]⟩
    · have hm : (sequenceOf f.instr)[f.idx]? = some (.shiftOut (f.idx - 7)) := by
        rw [hseq, ← seqInit_shift (k := f.idx - 7) (by omega), show 7 + (f.idx - 7) = f.idx by omega]
      refine hI.steps_shiftOut hf hl (by omega) hm hw fun u hmove hw' => phaseOf_of_init hi (.inr (.inr (.inl ?_)))
      exact ⟨by simp; omega, by simp; omega, hmove.life.trans hlife, hv, hw'.cast rfl rfl (by simp; omega),
        hmove.oe.trans hoe⟩
  all_goals omega

/-- INIT while it gives back the lines after a refused acquisition, up to its return to Down. -/
theorem Inv.steps_init_releasing (hI : Inv s) (hf : (s.seq s.agent).op = some f) (hi : f.instr = .init) (h : initPhase f s)
    (hlo : 63 ≤ f.idx) (hhi : f.idx ≤ 67) : StepsOn f s := by
  have hseq : sequenceOf f.instr = seqInit := by rw [hi]; rfl
  have hl := hI.lock_of_changesLife hf (by rw [hi]; rfl) (by omega)
  rcases h with h | h | h | h | h | ⟨-, -, hlife, hoe, hnclk, hndata, hnstore, hnoe⟩ | h
  case inr.inr.inr.inr.inr.inl =>
    by_cases hend : f.idx = 67
    · have hnone : s.owned = PerLine.all false :=
        perLine_eq_all_of (hnclk (by omega)) (hndata (by omega)) (hnstore (by omega)) (hnoe (by omega))
      refine hI.steps_setLife hf hl (l := .down) (by rw [hi]; rfl) (by rw [hseq, hend]; rfl) (.ofDown hI.known rfl hnone)
        (phaseOf_of_init hi (.inr (.inr (.inr (.inr (.inr (.inr ⟨?_, rfl⟩)))))))
      simp [hend]
    · obtain ⟨n, hn, hidx⟩ : ∃ n, n < 4 ∧ f.idx = 63 + n := ⟨f.idx - 63, by omega, by omega⟩
      have hm : (sequenceOf f.instr)[f.idx]? = some (.release (lineAt n)) := by rw [hseq, hidx, seqInit_release hn]
      refine hI.steps_release hf hl hm (.inl hlife) (phaseOf_of_init hi (.inr (.inr (.inr (.inr (.inr (.inl ?_)))))))
      interval_cases n <;> simp_all [lineAt, releaseLine_owned, hI.block.releaseLine_level, PerLine.set]
  all_goals omega

theorem Inv.steps_init (hI : Inv s) (hf : (s.seq s.agent).op = some f) (hi : f.instr = .init) : StepsOn f s := by
  have hseq : sequenceOf f.instr = seqInit := by rw [hi]; rfl
  have hc : changesLife f.instr = true := by rw [hi]; rfl
  have hheld := hI.lock_of_changesLife hf hc
  have hphase : initPhase f s := phaseOf_init hi ▸ (hI.flight _ f hf).phase
  rcases id hphase with ⟨hle, hdown⟩ | ⟨hlo, hhi, -⟩ | ⟨hlo, hhi, -⟩ | ⟨hidx, hlife, hall, hcoh, hlatch, hoe⟩ |
    ⟨hidx, hready, hcoh, -⟩ | ⟨hlo, hhi, -⟩ | ⟨hidx, hdown⟩
  · have hidx : f.idx = 0 ∨ f.idx = 1 := by omega
    rcases hidx with hidx | hidx
    · refine hI.steps_lockAcquire hf (by rw [hseq, hidx]; rfl) (takesLock_of_changesLife hc) fun _ => phaseOf_of_init hi ?_
      exact .inl ⟨by simp [hidx], hdown⟩
    · refine hI.steps_setLife hf (hheld (by omega)) (l := .initializing) hc (by rw [hseq, hidx]; rfl)
        (.ofTransit hI.known (.inl rfl)) (phaseOf_of_init hi (.inr (.inl ?_)))
      simp [hidx, hI.down hdown, PerLine.all]
  · exact hI.steps_init_acquiring hf hi hphase hlo hhi
  · exact hI.steps_init_writing hf hi hphase hlo hhi
  · have hl := hheld (by omega)
    have hmirror : s.mirror ≠ none := by rw [hcoh.latch]; nofun
    refine hI.steps_setLife hf hl (l := .ready) hc (by rw [hseq, hidx]; rfl) ?_
      (phaseOf_of_init hi (.inr (.inr (.inr (.inr (.inl ?_))))))
    · exact ⟨hI.known, nofun, fun _ => hall, fun _ => hmirror, fun _ => hoe, fun _ hfree => by cases hl.symm.trans hfree⟩
    · exact ⟨by simp [hidx], rfl, hcoh.keep ⟨rfl, rfl, rfl, rfl, rfl, rfl, rfl⟩, hlatch⟩
  · exact hI.steps_lockRelease hf (hheld (by omega)) (by rw [hseq, hidx]; rfl) (.inl ⟨hready, hcoh⟩)
  · exact hI.steps_init_releasing hf hi hphase hlo hhi
  · exact hI.steps_lockRelease hf (hheld (by omega)) (by rw [hseq, hidx]; rfl) (.inr hdown)

/-! ### TEARDOWN -/

/-- TEARDOWN while it releases the lines, up to its entry into Down. -/
theorem Inv.steps_teardown_releasing (hI : Inv s) (hf : (s.seq s.agent).op = some f) (hi : f.instr = .teardown)
    (h : teardownPhase f s) (hlo : 2 ≤ f.idx) (hhi : f.idx ≤ 6) : StepsOn f s := by
  have hseq : sequenceOf f.instr = seqTeardown := by rw [hi]; rfl
  have hl := hI.lock_of_changesLife hf (by rw [hi]; rfl) (by omega)
  rcases h with h | h | ⟨-, -, hlife, hnclk, hndata, hnstore, hnoe, hoe⟩ | h
  case inr.inr.inl =>
    by_cases hend : f.idx = 6
    · have hnone : s.owned = PerLine.all false :=
        perLine_eq_all_of (hnclk (by omega)) (hndata (by omega)) (hnstore (by omega)) (hnoe (by omega))
      refine hI.steps_setLife hf hl (l := .down) (by rw [hi]; rfl) (by rw [hseq, hend]; rfl) (.ofDown hI.known rfl hnone)
        (phaseOf_of_teardown hi (.inr (.inr (.inr ⟨?_, rfl⟩))))
      simp [hend]
    · obtain ⟨n, hn, hidx⟩ : ∃ n, n < 4 ∧ f.idx = 2 + n := ⟨f.idx - 2, by omega, by omega⟩
      have hm : (sequenceOf f.instr)[f.idx]? = some (.release (lineAt n)) := by rw [hseq, hidx, seqTeardown_release hn]
      refine hI.steps_release hf hl hm (.inr hlife) (phaseOf_of_teardown hi (.inr (.inr (.inl ?_))))
      interval_cases n <;> simp_all [lineAt, releaseLine_owned, hI.block.releaseLine_level, PerLine.set]
  all_goals omega

theorem Inv.steps_teardown (hI : Inv s) (hf : (s.seq s.agent).op = some f) (hi : f.instr = .teardown) : StepsOn f s := by
  have hseq : sequenceOf f.instr = seqTeardown := by rw [hi]; rfl
  have hc : changesLife f.instr = true := by rw [hi]; rfl
  have hheld := hI.lock_of_changesLife hf hc
  have hphase : teardownPhase f s := phaseOf_teardown hi ▸ (hI.flight _ f hf).phase
  rcases id hphase with ⟨hidx, hready⟩ | ⟨hidx, hready, -⟩ | ⟨hlo, hhi, -⟩ | ⟨hidx, hdown⟩
  · refine hI.steps_lockAcquire hf (by rw [hseq, hidx]; rfl) (takesLock_of_changesLife hc) fun hfree => ?_
    exact phaseOf_of_teardown hi (.inr (.inl ⟨by simp [hidx], hready, hI.coherent hready hfree⟩))
  · refine hI.steps_setLife hf (hheld (by omega)) (l := .tearingDown) hc (by rw [hseq, hidx]; rfl)
      (.ofTransit hI.known (.inr rfl)) (phaseOf_of_teardown hi (.inr (.inr (.inl ?_))))
    simp [hidx, hI.oe hready]
  · exact hI.steps_teardown_releasing hf hi hphase hlo hhi
  · exact hI.steps_lockRelease hf (hheld (by omega)) (by rw [hseq, hidx]; rfl) (.inr hdown)

end

end Sys2Proof.Machine
end

section
/-! ### SETOE and the reads, which need no lock (R104, R108, R110, R114, R116) -/

namespace Sys2Proof.Machine

section
variable {f : InFlight} {s : State}

/-- An operation that needs no lock has its one micro-step before it, in Ready. -/
theorem phaseOf_lockFree (h : phaseOf f s) (hfree : takesLock f.instr = false) : f.idx = 0 ∧ s.life = .ready := by
  unfold phaseOf at h
  cases hi : f.instr <;> simp only [hi] at h hfree
  case setoe | readraw | readport | readoe | readid => exact h
  all_goals cases hfree

theorem changesLife_of_lockFree {i : Instr} (h : takesLock i = false) : changesLife i = false := by
  cases hc : changesLife i with
  | false => rfl
  | true => cases h.symm.trans (takesLock_of_changesLife hc)

/-- Driving OE in Ready keeps the invariant, while neither INIT nor TEARDOWN is in flight (R26, R105). -/
theorem Inv.afterDriveOe (hI : Inv s) (hready : s.life = .ready)
    (hquiet : ∀ b g, (s.seq b).op = some g → changesLife g.instr = false) (on : Bool) :
    Inv { lineDone .oe on s with oeState := on } := by
  have hreg := regSame_driveOe on s
  have hall := hI.ready hready
  have howned : s.owned.get .oe = true := by rw [hall]; rfl
  have hlife : (lineDone .oe on s).life = .ready := (lineDone_life .oe on s).trans hready
  refine inv_iff.mpr ⟨⟨known_lineDone howned hI.known, fun hd => ?_, fun _ => hreg.owned.trans hall, fun _ => ?_, fun _ => ?_,
    fun _ hfree => ?_⟩, ⟨fun hl => ?_, fun hl => ?_⟩, fun b => ?_⟩
  · cases hlife.symm.trans hd
  · rw [hreg.mirror]
    exact hI.present hready
  · simp [PerLine.set]
  · exact (hI.coherent hready (by simpa using hfree)).keep hreg
  · cases hlife.symm.trans hl
  · cases hlife.symm.trans hl
  · refine (hI.agentOk b).keep (by simp) (by simp) (by simp) (by simp) fun g hg => ?_
    have hg' := hquiet b g hg
    exact ⟨phaseOf_keep hg' (by simp) (by simp) (.inl hreg) (hI.flight b g hg).phase, fun hc => by cases hg'.symm.trans hc⟩

theorem Inv.steps_setOe {on : Bool} (hI : Inv s) (hf : (s.seq s.agent).op = some f) (hready : s.life = .ready)
    (hm : (sequenceOf f.instr)[f.idx]? = some (.setOe on)) (hfree : takesLock f.instr = false) : StepsOn f s := by
  have hquiet : ∀ b g, (s.seq b).op = some g → changesLife g.instr = false := fun b g hg => by
    by_cases hb : b = s.agent
    · subst hb
      cases hf.symm.trans hg
      exact changesLife_of_lockFree hfree
    · exact hI.others_keepLife hf hb hg
  have howned : s.owned.get .oe = true := by rw [hI.ready hready]; rfl
  have hlockFree : LockFree { lineDone .oe on s with oeState := on } := fun g hg => by
    have hg' : (s.seq s.agent).op = some g := by simpa using hg
    cases hf.symm.trans hg'
    exact hfree
  refine .of hm ?_ (hlockFree.afterReturn (hI.afterDriveOe hready hquiet on) (.ok .nothing))
  simp only [runMicro, microSetOe, driveOe, lineSet_owned howned]

/-- READPORT: the class of the field, or the model fault of a field of 0b11 (R110). -/
theorem Inv.steps_replyPort (hI : Inv s) (hready : s.life = .ready) (hlockFree : LockFree s)
    (hm : (sequenceOf f.instr)[f.idx]? = some .replyPort) : StepsOn f s := by
  obtain ⟨m, hmirror⟩ := Option.ne_none_iff_exists'.mp (hI.present hready)
  cases hc : voltageOf (dec (field m f.p)) with
  | some c => exact .of hm (by simp only [runMicro, microReplyPort, hmirror, hc]) (hlockFree.afterReturn hI (.ok (.port c)))
  | none =>
    exact .of hm (by simp only [runMicro, microReplyPort, hmirror, hc])
      (hlockFree.afterFault hI .undefinedPortState (encode f.instr))

theorem Inv.steps_replyRaw (hI : Inv s) (hready : s.life = .ready) (hlockFree : LockFree s)
    (hm : (sequenceOf f.instr)[f.idx]? = some .replyRaw) : StepsOn f s := by
  obtain ⟨m, hmirror⟩ := Option.ne_none_iff_exists'.mp (hI.present hready)
  exact .of hm (by simp only [runMicro, microReplyRaw, hmirror]) (hlockFree.afterReturn hI (.ok (.raw m)))

/-! ### Every micro-step, turn and move -/

theorem Inv.steps_lockFree (hI : Inv s) (hf : (s.seq s.agent).op = some f) (hfree : takesLock f.instr = false) :
    StepsOn f s := by
  obtain ⟨hidx, hready⟩ := phaseOf_lockFree (hI.flight _ f hf).phase hfree
  have hlockFree : LockFree s := fun g hg => by
    cases hf.symm.trans hg
    exact hfree
  have hseq : (sequenceOf f.instr)[f.idx]? = (sequenceOf f.instr)[0]? := by rw [hidx]
  cases hi : f.instr <;> rw [hi] at hseq hfree
  case setoe on => exact hI.steps_setOe (on := on) hf hready (by rw [hi, hseq]; rfl) (by rw [hi]; rfl)
  case readraw => exact hI.steps_replyRaw hready hlockFree (by rw [hi, hseq]; rfl)
  case readport => exact hI.steps_replyPort hready hlockFree (by rw [hi, hseq]; rfl)
  case readoe => exact .of (m := .replyOe) (by rw [hi, hseq]; rfl) rfl (hlockFree.afterReturn hI (.ok (.oe s.oeState)))
  case readid => exact .of (m := .replyId) (by rw [hi, hseq]; rfl) rfl (hlockFree.afterReturn hI (.ok (.id Config.idString)))
  all_goals cases hfree

/-- The next micro-step of any operation in flight happens, and keeps the invariant. -/
theorem Inv.stepsOn (hI : Inv s) (hf : (s.seq s.agent).op = some f) : StepsOn f s := by
  have hphase := (hI.flight _ f hf).phase
  unfold phaseOf at hphase
  cases hi : f.instr <;> simp only [hi] at hphase
  case init => exact hI.steps_init hf hi
  case teardown => exact hI.steps_teardown hf hi
  case write v | setraw v =>
    refine hI.steps_raw hf (by rw [hi]; rfl) (by rw [hi]; rfl) (fun g u hg hp => ?_) hphase
    rw [phaseOf, hg, hi]
    exact hp
  case setport _ nb | cssetport _ n =>
    refine hI.steps_port hf (by rw [hi]; rfl) (by rw [hi]; rfl) hphase.2 (fun g u hg hp hnb => ?_) hphase.1
    rw [phaseOf, hg, hi]
    exact ⟨hp, hnb⟩
  all_goals exact hI.steps_lockFree hf (by rw [hi]; rfl)

end

theorem Inv.runTurn_next {s : State} (hI : Inv s) (n : Nat) : ∃ t, runTurn n s = .next t ∧ Inv t := by
  induction n generalizing s with
  | zero => exact ⟨s, rfl, hI⟩
  | succ n ih =>
    cases hf : (s.seq s.agent).op with
    | none => exact ⟨s, runTurn_idle hf _, hI⟩
    | some f =>
      obtain ⟨u, hu, hI'⟩ := hI.stepsOn hf
      rw [runTurn_succ_of_microStep hf hu]
      exact ih hI'

/-- An idle agent's issue happens, and keeps the invariant. -/
theorem Inv.exec_next {s : State} (hI : Inv s) (hready : (s.seq s.agent).ready = true) (i : Instr) :
    ∃ t, exec i s = .next t ∧ Inv t := by
  have hlockFree : LockFree s := .ofIdle (ready_iff.mp hready).1
  rw [exec_eq]
  cases hadm : admission i (lifecycleOf i) s with
  | some c => exact ⟨_, operate_fault hready hadm, hlockFree.afterFault hI _ _⟩
  | none =>
    cases honce : atOnceOf i s with
    | some r => exact ⟨_, operate_atOnce hready hadm honce, hlockFree.afterReturn hI r⟩
    | none =>
      rw [operate_run hready hadm honce]
      exact (hI.issued hready hadm honce).runTurn_next _

theorem Inv.serve_next {s : State} (hI : Inv s) (hready : (s.seq s.agent).ready = true) (r : Request) :
    ∃ t, serve r s = .next t ∧ Inv t := by
  have hlockFree : LockFree s := .ofIdle (ready_iff.mp hready).1
  cases hi : r.issues with
  | some i =>
    rw [serve_of_issues s hi]
    exact hI.exec_next hready i
  | none =>
    obtain ⟨w, -, hw⟩ | hw := serve_of_not_issues s hi
    · exact ⟨_, hw, hlockFree.afterFault hI _ w⟩
    · exact ⟨_, hw, hlockFree.afterReturn hI _⟩

theorem Inv.takeTurn_next {s : State} (hI : Inv s) (u : Turn) : ∃ t, takeTurn u s = .next t ∧ Inv t := by
  have hI' : Inv { s with turn := u } := hI.setTurn s.schedule u
  cases hstop : (s.seq u.agent).stopped with
  | true => exact ⟨_, takeTurn_stopped hstop, hI'⟩
  | false =>
    cases hop : (s.seq u.agent).op with
    | some f =>
      rw [takeTurn_busy hstop hop]
      exact hI'.runTurn_next _
    | none =>
      rw [takeTurn_idle hstop hop]
      cases hprog : (s.seq u.agent).program with
      | nil => exact ⟨_, issueNext_nil (s := { s with turn := u }) hprog, hI'⟩
      | cons r rs =>
        rw [issueNext_cons (s := { s with turn := u }) hprog]
        refine (hI'.setProgram u.agent rs).serve_next (ready_iff.mpr ?_) r
        simpa using And.intro hop hstop

/-- While some line is not owned, no phase asks about the chain or the latch. -/
theorem phaseOf_float {f : InFlight} {s : State} (h : phaseOf f s) (hready : s.life ≠ .ready) (hsome : ¬ AllOwned s)
    (c l : U16) : phaseOf f { s with chain := c, latch := l } := by
  unfold phaseOf at h ⊢
  cases hi : f.instr <;> simp only [hi] at h ⊢
  case init =>
    rcases h with h | h | ⟨-, -, -, -, hw, -⟩ | ⟨-, -, hall, -⟩ | ⟨-, hr, -⟩ | h | h
    · exact .inl h
    · exact .inr (.inl h)
    · exact absurd hw.owned hsome
    · exact absurd hall hsome
    · exact absurd hr hready
    · exact .inr (.inr (.inr (.inr (.inr (.inl h)))))
    · exact .inr (.inr (.inr (.inr (.inr (.inr h)))))
  case teardown =>
    rcases h with ⟨-, hr⟩ | ⟨-, hr, -⟩ | h | h
    · exact absurd hr hready
    · exact absurd hr hready
    · exact .inr (.inr (.inl h))
    · exact .inr (.inr (.inr h))
  case write | setraw => exact absurd h.1 hready
  case setport | cssetport => exact absurd h.1.1 hready
  all_goals exact absurd h.2 hready

/-- The register may take any value while some line is not owned (R77). -/
theorem Inv.afterFloat {s : State} (hI : Inv s) (hsome : ¬ AllOwned s) (c l : U16) : Inv { s with chain := c, latch := l } := by
  have hready : s.life ≠ .ready := fun h => hsome (hI.ready h)
  refine inv_iff.mpr ⟨⟨hI.known, hI.down, hI.ready, hI.present, hI.oe, fun h => absurd h hready⟩,
    ⟨hI.initializing, hI.tearingDown⟩, fun a => ?_⟩
  exact (hI.agentOk a).keep rfl rfl .rfl .rfl fun f hf =>
    ⟨phaseOf_float (hI.flight a f hf).phase hready hsome c l, (hI.flight a f hf).alone⟩

theorem Inv.afterFloatChain {s : State} (hI : Inv s) (v : U16) : Inv (floatChain v s) := by
  unfold floatChain
  split
  · exact hI
  · next hclk => exact hI.afterFloat (fun hall => hclk (by rw [hall]; rfl)) v s.latch

theorem Inv.afterFloatLatch {s : State} (hI : Inv s) (v : U16) : Inv (floatLatch v s) := by
  unfold floatLatch
  split
  · exact hI
  · next hstore => exact hI.afterFloat (fun hall => hstore (by rw [hall]; rfl)) s.chain v

/-- Every step happens, and keeps the invariant. -/
theorem Inv.step_next {s : State} (hI : Inv s) : ∃ t, step s = .next t ∧ Inv t := by
  cases hs : s.schedule with
  | nil => exact ⟨s, by simp only [step, hs], hI⟩
  | cons m ms =>
    have hI' : Inv { s with schedule := ms } := hI.setTurn ms s.turn
    rw [step_cons hs]
    cases m with
    | turn u => exact hI'.takeTurn_next u
    | tick k => exact ⟨_, rfl, hI'.afterTick k⟩
    | floatChain v => exact ⟨_, rfl, hI'.afterFloatChain v⟩
    | floatLatch v => exact ⟨_, rfl, hI'.afterFloatLatch v⟩

/-- Settles O52: each operation's micro-steps lead from phase to phase, and the other moves touch no phase. -/
theorem stepKeepsInv : Obligations.StepKeepsInv := by
  intro s t hI h
  obtain ⟨u, hu, hI'⟩ := hI.step_next
  cases hu.symm.trans h
  exact hI'

/-- Settles O53: in every phase the next micro-step's precondition holds. -/
theorem stepNeverStops : Obligations.StepNeverStops := fun _ hI =>
  let ⟨t, ht, _⟩ := hI.step_next
  ⟨t, ht⟩

/-- Settles O54: OE is owned in Ready, in which the invariant says it, and in TEARDOWN before OE is released. -/
theorem oeStateIsOeLevel : Obligations.OeStateIsOeLevel := by
  intro s hI howned hnoInit
  have hlevel : s.level.oe = .driven s.oeState := by
    cases hlife : s.life with
    | down => simp [hI.down hlife, PerLine.all] at howned
    | initializing =>
      obtain ⟨f, hf, hi⟩ := hI.initializing hlife
      exact absurd hi (hnoInit f hf)
    | ready => exact hI.oe hlife
    | tearingDown =>
      obtain ⟨f, hf, hi⟩ := hI.tearingDown hlife
      have hphase := (hI.flight .host f hf).phase
      rw [phaseOf_teardown hi] at hphase
      rcases hphase with ⟨-, hr⟩ | ⟨-, hr, -⟩ | ⟨-, -, -, -, -, -, hnoe, hoe⟩ | ⟨-, hd⟩
      · cases hlife.symm.trans hr
      · cases hlife.symm.trans hr
      · refine hoe (not_lt.mp fun hlt => ?_)
        cases howned.symm.trans (hnoe hlt)
      · cases hlife.symm.trans hd
  rw [hlevel]
  cases s.oeState <;> rfl

end Sys2Proof.Machine
end

section
/-! ### Who holds the lock, and what it protects (20_memory.md R52, R56, R59) -/

namespace Sys2Proof.Machine

theorem sequenceOf_zero {i : Instr} (h : takesLock i = true) : (sequenceOf i)[0]? = some .lockAcquire := by
  cases i
  case setoe | readraw | readport | readoe | readid => cases h
  all_goals rfl

/-- `LockAcquire` of a lock that is not free leaves the state as it is (R56). -/
theorem microStep_blocked {f : InFlight} {s : State} (hm : (sequenceOf f.instr)[f.idx]? = some .lockAcquire)
    (hl : s.lock ≠ .free) : microStep f s = .next s := by
  rw [microStep_eq hm, runMicro, microLockAcquire, if_neg hl]

/-- Settles O45, by induction on the length of the turn: each of its micro-steps is the same blocked `LockAcquire`. -/
theorem lockExcludesOthers : Obligations.LockExcludesOthers := by
  intro s a f n hl hf htakes hidx
  have hblocked : microStep f s = .next s :=
    microStep_blocked (by rw [hidx]; exact sequenceOf_zero htakes) (by rw [hl]; nofun)
  induction n with
  | zero => rfl
  | succ n ih => rw [runTurn_succ_of_microStep hf hblocked, ih]

/-- Settles O56: the lock is free, since its holder would have a lock-taking operation in flight. -/
theorem coherentWhenQuiet : Obligations.CoherentWhenQuiet := by
  intro s hI hready hquiet
  cases hl : s.lock with
  | free => exact ⟨(hI.coherent hready hl).latch, (hI.coherent hready hl).chain⟩
  | held a =>
    obtain ⟨f, hf, htakes, -⟩ := hI.holder a hl
    cases htakes.symm.trans (hquiet a f hf)

end Sys2Proof.Machine
end

section
/-! ### A whole WRITE or SETRAW within one turn (R81, R85, R106), and two in succession (R50) -/

namespace Sys2Proof.Machine

/-- An operation with WRITE's sequence, admitted and unhindered, writes the register and returns OK. -/
theorem Unhindered.operate_raw {s : State} {i : Instr} {v : U16} (h : Unhindered s) (hwf : i.wellFormed = true)
    (hrole : hostOnly i = true → s.agent = .host) (hseq : sequenceOf i = seqWrite v) :
    operate i lifecycleReady noCheck s = .next (returnResult (.ok .nothing) (wroteState v s)) := by
  obtain ⟨hidle, hopen, hfree, howned, hbudget⟩ := h
  obtain ⟨n, hn⟩ : ∃ n, s.turn.budget = n + 54 + 1 + 1 := ⟨s.turn.budget - 56, by omega⟩
  have hadm : admission i lifecycleReady s = none := admission_eq_none.mpr ⟨hwf, hrole, lifecycleReady_open hopen⟩
  have hmicro : ∀ k, (sequenceOf (inFlightOf i).instr)[(inFlightOf i).idx + k]? = (seqWrite v)[k]? := fun k => by
    rw [inFlightOf_instr, inFlightOf_idx, hseq, Nat.zero_add]
  rw [operate_run hidle hadm rfl, hn, runTurn_lock (hmicro 0) hfree, runTurn_load (v := v) (hmicro 1),
    runTurn_write_unlock (s := { s with lock := .held s.agent }) ?shift (hmicro 55) howned rfl, wroteState_lock hfree]
  case shift =>
    intro k hk
    exact (congrArg _ (Nat.add_assoc _ 2 k)).trans ((hmicro (2 + k)).trans (seqRaw_shift v hk))

theorem Unhindered.exec_write {s : State} (h : Unhindered s) (hhost : s.agent = .host) (v : U16) :
    exec (.write v) s = .next (returnResult (.ok .nothing) (wroteState v s)) :=
  h.operate_raw rfl (fun _ => hhost) rfl

/-- A return puts no operation in flight. -/
theorem op_of_returnResult {s : State} {r : OpResult} {a : Agent} {f : InFlight}
    (h : ((returnResult r s).seq a).op = some f) : (s.seq a).op = some f := by
  simp only [returnResult_seqs, seq_eq, seqs_get_set] at h
  split at h
  · cases h
  · exact h

/-- After a register write nothing hinders the next one. -/
theorem Unhindered.afterWrite {s : State} (h : Unhindered s) (v : U16) (r : OpResult) :
    Unhindered (returnResult r (wroteState v s)) := by
  obtain ⟨hidle, ⟨hready, hquiet⟩, hfree, howned, hbudget⟩ := h
  obtain ⟨-, hstop⟩ := ready_iff.mp hidle
  refine ⟨ready_iff.mpr ⟨by simp, ?_⟩, ⟨hready, hostInTransition_eq_false.mpr fun f hf => ?_⟩, hfree, howned, hbudget⟩
  · simpa [wroteState] using hstop
  · exact hostInTransition_eq_false.mp hquiet f (op_of_returnResult (a := .host) hf)

/-- The events of a WRITE sequence depend on its value, its agent and the time alone (R79). -/
theorem writeTrace_congr {s t : State} (hnow : t.now = s.now) (hagent : t.agent = s.agent) (v : U16) :
    writeTrace v t = writeTrace v s := by
  rw [writeTrace, writeTrace, hnow, hagent]

/-- Settles O40: both WRITEs complete in `wroteState`, the second from a state in which nothing hinders it. -/
theorem writeIsIdempotent : Obligations.WriteIsIdempotent := by
  intro s v h hhost
  have hsecond := (h.afterWrite v (.ok .nothing)).exec_write hhost v
  refine ⟨_, _, h.exec_write hhost v, hsecond, rfl, rfl, rfl, rfl, rfl, rfl, rfl, rfl, rfl, rfl, writeTrace v s, ?_, rfl, ?_⟩
  · simp [writeTrace]
  · exact congrArg (· ++ _) (writeTrace_congr rfl rfl v)

end Sys2Proof.Machine
end

section
/-! ### Every hold of the lock ends (20_memory.md R57; 41_port_controller.md R98) -/

namespace Sys2Proof.Machine

/-! ### What the place of a micro-step in its sequence says -/

theorem sequenceOf_length_le (i : Instr) : (sequenceOf i).length ≤ 69 := by
  cases i <;> exact Nat.le_of_ble_eq_true rfl

/-- A micro-step at index k belongs to what is left of its sequence from any earlier index on. -/
theorem mem_drop_of_sequenceOf {i : Instr} {k n : Nat} {m : Micro} (h : (sequenceOf i)[k]? = some m) (hk : n ≤ k) :
    m ∈ (sequenceOf i).drop n := by
  refine List.mem_of_getElem? (i := k - n) ?_
  rw [List.getElem?_drop, Nat.add_sub_cancel' hk, h]

/-- `LockAcquire` comes first (R52). -/
theorem idx_of_lockAcquire {i : Instr} {k : Nat} (h : (sequenceOf i)[k]? = some .lockAcquire) : k = 0 := by
  by_contra hk
  have hrest : .lockAcquire ∉ (sequenceOf i).drop 1 := by cases i <;> exact of_decide_eq_true rfl
  exact hrest (mem_drop_of_sequenceOf h (Nat.one_le_iff_ne_zero.mpr hk))

/-- Every acquisition comes before the part with which a refused one goes on (R86). -/
theorem idx_of_acquire {i : Instr} {k : Nat} {l : Line} (h : (sequenceOf i)[k]? = some (.acquire l)) : k < initFailIdx := by
  by_contra hk
  have hrest : .acquire l ∉ (sequenceOf i).drop initFailIdx := by cases i <;> cases l <;> exact of_decide_eq_true rfl
  exact hrest (mem_drop_of_sequenceOf h (not_lt.mp hk))

/-- Only SETPORT and CSSETPORT wait, and their delay began no later than now (R98). -/
theorem phaseOf_waiting {f : InFlight} {s : State} (h : phaseOf f s) (hm : (sequenceOf f.instr)[f.idx]? = some .waitSettled) :
    f.t0 ≤ s.now := by
  have hmem := List.mem_of_getElem? hm
  unfold phaseOf at h
  cases hi : f.instr <;> simp only [hi] at h hmem
  case setport | cssetport =>
    obtain ⟨⟨-, hbegan, -⟩, -⟩ := h
    exact hbegan
  all_goals exact absurd hmem (of_decide_eq_true rfl)

/-! ### The lock along a turn -/

/-- The lock is free or is the agent's whose turn it is: no other operation is waited for. -/
def LockOpen (s : State) : Prop := s.lock = .free ∨ s.lock = .held s.agent

/-- The turn of one agent gives the lock to no other. -/
theorem LockOpen.of_frame {s t : State} (h : LockOpen s) (hs : Inv s) (ht : Inv t) (hframe : Frame s t) : LockOpen t := by
  have hagent : t.agent = s.agent := congrArg Turn.agent hframe.turn
  cases hl : t.lock with
  | free => exact .inl hl
  | held a =>
    refine .inr (hl.trans (congrArg _ ?_))
    by_contra hne
    rw [hagent] at hne
    obtain ⟨f, hf, hpast⟩ := ht.holder a hl
    rw [hframe.others a hne] at hf
    have hheld : s.lock = .held a := ((hs.agentOk a).lock_iff hf).mpr hpast
    rcases h with hfree | hself
    · cases hheld.symm.trans hfree
    · cases hheld.symm.trans hself
      exact hne rfl

/-- With its operation ended the agent does not hold the lock, so nobody does (R28). -/
theorem LockOpen.free_of_idle {s : State} (h : LockOpen s) (hI : Inv s) (hidle : (s.seq s.agent).op = none) : s.lock = .free :=
  h.resolve_right fun hl => by
    obtain ⟨f, hf, -⟩ := hI.holder _ hl
    cases hidle.symm.trans hf

/-- Where the lock is open and the turn lets 300 ms pass at the delay, a micro-step that does not end its operation takes it on to
a later index: neither `LockAcquire` nor the delay keeps it where it is, and a refused acquisition goes on further down. -/
theorem Inv.idx_lt_of_microStep {f g : InFlight} {s t : State} (hI : Inv s) (hf : (s.seq s.agent).op = some f) (hopen : LockOpen s)
    (helapse : 300 ≤ s.turn.elapse) (h : microStep f s = .next t) (hg : (t.seq t.agent).op = some g) : f.idx < g.idx := by
  obtain ⟨m, hm, heffect⟩ := microStep_effect h
  cases heffect with
  | blocked hlock =>
    have hidx := (((hI.agentOk _).lock_iff hf).mp (hopen.resolve_left hlock)).2
    have := idx_of_lockAcquire hm
    omega
  | waiting hlate =>
    have := phaseOf_waiting (hI.flight _ f hf).phase hm
    omega
  | denied l =>
    cases (op_setOp _ _).symm.trans hg
    exact idx_of_acquire hm
  | undelayed =>
    cases (op_setOp _ _).symm.trans hg
    exact Nat.lt_add_of_pos_right Nat.two_pos
  | oeDriven | unlocked | repliedRaw | repliedPort | undefinedPort | repliedOe | repliedId => simp at hg
  | _ =>
    cases (op_setOp _ _).symm.trans hg
    exact Nat.lt_succ_self _

/-- The index of an operation in flight lies within its sequence (R36). -/
theorem Inv.idx_lt {f : InFlight} {s : State} (hI : Inv s) (hf : (s.seq s.agent).op = some f) : f.idx < 69 := by
  obtain ⟨t, ht, -⟩ := hI.stepsOn hf
  obtain ⟨m, hm, -⟩ := microStep_effect ht
  exact (List.getElem?_eq_some_iff.mp hm).1.trans_le (sequenceOf_length_le _)

/-- A turn as long as what is left of the longest sequence ends the operation. -/
theorem Inv.runTurn_ends {n : Nat} {s : State} (hI : Inv s) (hopen : LockOpen s) (helapse : 300 ≤ s.turn.elapse)
    (hn : ∀ f, (s.seq s.agent).op = some f → 69 ≤ f.idx + n) :
    ∃ t, runTurn n s = .next t ∧ Inv t ∧ LockOpen t ∧ (t.seq t.agent).op = none := by
  induction n generalizing s with
  | zero =>
    refine ⟨s, rfl, hI, hopen, Option.eq_none_iff_forall_ne_some.mpr fun f hf => ?_⟩
    exact absurd (hI.idx_lt hf) (not_lt.mpr (hn f hf))
  | succ n ih =>
    cases hf : (s.seq s.agent).op with
    | none => exact ⟨s, runTurn_idle hf _, hI, hopen, hf⟩
    | some f =>
      obtain ⟨u, hu, hI'⟩ := hI.stepsOn hf
      have hframe := microStep_frame hu
      rw [runTurn_succ_of_microStep hf hu]
      refine ih hI' (hopen.of_frame hI hI' hframe) (by rw [hframe.turn]; exact helapse) fun g hg => ?_
      have := hI.idx_lt_of_microStep hf hopen helapse hu hg
      have := hn f hf
      omega

/-- Settles O46: each micro-step of the turn takes the operation to a later index, and no sequence is longer than 69. -/
theorem everyHoldEnds : Obligations.EveryHoldEnds := by
  intro s f hI hf hopen helapse hbudget
  obtain ⟨t, ht, hI', hopen', hidle⟩ := hI.runTurn_ends hopen helapse fun g _ => hbudget.trans (Nat.le_add_left _ _)
  have hagent : t.agent = s.agent := congrArg Turn.agent (runTurn_frame ht).turn
  exact ⟨t, ht, hagent ▸ hidle, hopen'.free_of_idle hI' hidle⟩

end Sys2Proof.Machine
end

section
/-! ### Decoder and encoder are inverse to each other (30_encoding.md R63 to R67) -/

namespace Sys2Proof

/-! #### The fields of a word -/

theorem append_eq_iff {m n : Nat} {x : BitVec m} {y : BitVec n} {b : BitVec (m + n)} :
    x ++ y = b ↔ b.extractLsb' n m = x ∧ b.extractLsb' 0 n = y := by
  constructor
  · rintro rfl
    exact ⟨BitVec.extractLsb'_append_eq_left, BitVec.extractLsb'_append_eq_right⟩
  · rintro ⟨rfl, rfl⟩
    rw [BitVec.extractLsb'_append_extractLsb'_eq_extractLsb' (Nat.zero_add n).symm, BitVec.extractLsb'_eq_self]

theorem append_ofBool_eq_iff {m : Nat} {x : BitVec m} {on : Bool} {b : BitVec (m + 1)} :
    x ++ BitVec.ofBool on = b ↔ b.extractLsb' 1 m = x ∧ b.getLsbD 0 = on := by
  have hbit : b.extractLsb' 0 1 = BitVec.ofBool (b.getLsbD 0) := by
    ext i hi
    obtain rfl : i = 0 := Nat.lt_one_iff.mp hi
    simp
  rw [append_eq_iff, hbit, BitVec.ofBool_eq_iff_eq]

theorem zero_append_toNat {m n : Nat} (x : BitVec n) : (0#m ++ x).toNat = x.toNat := by
  simp

theorem pack_eq_of_fields {w : OpWord} {op a : BitVec 4} {b : BitVec 8} {v : U16} (hop : w.op.toNat = op.toNat) (ha : w.a = a)
    (hb : w.b = b) (hv : w.v = v) : OpWord.pack op a b v = w := by
  rw [← BitVec.eq_of_toNat_eq hop, ← ha, ← hb, ← hv, pack_fields]

/-! #### Both directions -/

theorem decodeSetport_eq_ok {a : BitVec 4} {b : BitVec 8} {v : U16} {i : Instr} :
    decodeSetport a b v = .ok i ↔ ∃ nb, nb ≠ 0b11#2 ∧ 0#6 ++ nb = b ∧ v = 0#16 ∧ i = .setport a nb := by
  unfold decodeSetport
  constructor
  · intro h
    split at h
    next hzero =>
      split at h
      next => cases h
      next hcode =>
        cases h
        exact ⟨_, hcode, append_eq_iff.mpr ⟨hzero.1, rfl⟩, hzero.2, rfl⟩
    next => cases h
  · rintro ⟨nb, hcode, hb, rfl, rfl⟩
    obtain ⟨hhigh, hlow⟩ := append_eq_iff.mp hb
    rw [if_pos ⟨hhigh, rfl⟩, hlow, if_neg hcode]

theorem setport_wellFormed {p : BitVec 4} {nb : BitVec 2} : (Instr.setport p nb).wellFormed = true ↔ nb ≠ 0b11#2 :=
  bne_iff_ne

/-- Settles O1: each field of a packed word is the field packed, and the parted fields B come apart again. -/
theorem decodeEncodeRoundTrip : Obligations.DecodeEncodeRoundTrip := by
  intro i hwf
  cases i with
  | setport p nb =>
    have hport : decodeSetport p (0#6 ++ nb) 0#16 = .ok (.setport p nb) :=
      decodeSetport_eq_ok.mpr ⟨nb, setport_wellFormed.mp hwf, rfl, rfl, rfl⟩
    simpa [encode, decode] using hport
  | setoe on =>
    obtain ⟨hzero, hbit⟩ := append_ofBool_eq_iff.mp (rfl : 0#7 ++ BitVec.ofBool on = 0#7 ++ BitVec.ofBool on)
    simp [encode, decode, whenZero, hzero, hbit, -BitVec.getLsbD_eq_getElem]
  | _ => simp [encode, decode, whenZero]

/-- A row without a voltage code, backwards: the zero fields it checks and the operands it takes are all the fields there are. -/
theorem encode_of_whenZero {w : OpWord} {zero : Bool} {i j : Instr} {op a : BitVec 4} {b : BitVec 8} {v : U16}
    (h : whenZero zero i = .ok j) (hi : encode i = OpWord.pack op a b v) (hwf : i.wellFormed = true)
    (hop : w.op.toNat = op.toNat) (hzero : zero = true → w.a = a ∧ w.b = b ∧ w.v = v) :
    encode j = w ∧ j.wellFormed = true := by
  obtain ⟨hz, rfl⟩ := whenZero_ok h
  obtain ⟨ha, hb, hv⟩ := hzero hz
  exact ⟨hi.trans (pack_eq_of_fields hop ha hb hv), hwf⟩

/-- Settles O2, by the decoder's cases: in each, the word's fields are the ones that the operation's encoding packs. -/
theorem encodeDecodeRoundTrip : Obligations.EncodeDecodeRoundTrip := by
  intro w i h
  unfold decode at h
  split at h
  case h_1 | h_13 => cases h
  case h_5 hop =>
    obtain ⟨nb, hcode, hb, hv, rfl⟩ := decodeSetport_eq_ok.mp h
    exact ⟨pack_eq_of_fields hop rfl hb.symm hv, setport_wellFormed.mpr hcode⟩
  case h_7 hop =>
    refine encode_of_whenZero h rfl rfl hop fun hzero => ?_
    simp only [Bool.and_eq_true, beq_iff_eq] at hzero
    obtain ⟨⟨ha, hhigh⟩, hv⟩ := hzero
    exact ⟨ha, (append_ofBool_eq_iff.mpr ⟨hhigh, rfl⟩).symm, hv⟩
  all_goals
    next hop => exact encode_of_whenZero h rfl rfl hop (by simp +contextual)

/-! #### The decoder's cases as numbers (R66) -/

theorem decode_eq_ok_iff {w : OpWord} {i : Instr} : decode w = .ok i ↔ w = encode i ∧ i.wellFormed = true := by
  constructor
  · intro h
    obtain ⟨hw, hwf⟩ := encodeDecodeRoundTrip w i h
    exact ⟨hw.symm, hwf⟩
  · rintro ⟨rfl, hwf⟩
    exact decodeEncodeRoundTrip i hwf

theorem decode_eq_ok_iff_encode {w : OpWord} {i : Instr} (hwf : i.wellFormed = true) : decode w = .ok i ↔ w = encode i := by
  rw [decode_eq_ok_iff, and_iff_left hwf]

theorem decode_eq_ok_iff_toNat {w : OpWord} {i : Instr} {n : Nat} (hwf : i.wellFormed = true) (hn : (encode i).toNat = n) :
    decode w = .ok i ↔ w.toNat = n := by
  rw [decode_eq_ok_iff_encode hwf, ← BitVec.toNat_inj, hn]

/-- Settles O3: a word decodes to an operation exactly when it is its encoding, whose number is that of its fields. -/
theorem decoderFollowsItsCases : Obligations.DecoderFollowsItsCases := by
  intro w
  refine ⟨decode_eq_ok_iff_encode rfl, decode_eq_ok_iff_encode rfl, fun v => ?_, fun p nb => ?_, fun v => ?_, fun on => ?_,
    decode_eq_ok_iff_encode rfl, fun p => ?_, decode_eq_ok_iff_encode rfl, decode_eq_ok_iff_encode rfl, fun p n => ?_, ?_⟩
  · exact decode_eq_ok_iff_toNat rfl (by simp [encode, pack_toNat])
  · rw [decode_eq_ok_iff, ← BitVec.toNat_inj, setport_wellFormed]
    have hb : (0#6 ++ nb : BitVec 8).toNat = nb.toNat := zero_append_toNat nb
    simp [encode, pack_toNat, hb]
  · exact decode_eq_ok_iff_toNat rfl (by simp [encode, pack_toNat])
  · have hb : (0#7 ++ BitVec.ofBool on : BitVec 8).toNat = on.toNat := (zero_append_toNat _).trans (BitVec.toNat_ofBool on)
    exact decode_eq_ok_iff_toNat rfl (by simp [encode, pack_toNat, hb])
  · exact decode_eq_ok_iff_toNat rfl (by simp [encode, pack_toNat])
  · exact decode_eq_ok_iff_toNat rfl (by simp [encode, pack_toNat])
  · cases decode w <;> simp

/-- Settles O4, by running the decoder on the twelve words. -/
theorem vectorWordsDecode : Obligations.VectorWordsDecode := by
  unfold Obligations.VectorWordsDecode
  decide

end Sys2Proof
end

section
/-! ### The words an agent issues: placed by `withFetchWord` (30_encoding.md R62), and illegal (R67) -/

namespace Sys2Proof.Machine

theorem decode_of_decodeTableWord {nbits w : Nat} {i : Instr} (h : decodeTableWord nbits w = some i) :
    decode (BitVec.ofNat 32 (w % 2 ^ nbits)) = .ok i := by
  unfold decodeTableWord at h
  split at h
  next hdec => exact hdec.trans (congrArg _ (Option.some.inj h))
  next => cases h

/-- Settles O6: `withFetchWord` makes the host idle and the word its next request, so that the step is O5's. -/
theorem fetchedWordRunsNext : Obligations.FetchedWordRunsNext := fun s _ _ h =>
  stepRunsDecodedInstruction (s.withFetchWord 32 _) hostTurn s.schedule _ s.seqs.host.program _ rfl rfl rfl
    (decode_of_decodeTableWord h)

theorem serveWord_error {w : OpWord} {e : Illegal} (h : decode w = .error e) (s : State) :
    serve (.word w) s = .next (raiseFault .illegalOp w s) := by
  change serveWord w s = _
  rw [serveWord, h]

theorem step_serves {s : State} {t : Turn} {ms : List Move} {r : Request} {rs : List Request} (hsched : s.schedule = .turn t :: ms)
    (hready : (s.seq t.agent).ready = true) (hprog : (s.seq t.agent).program = r :: rs) :
    step s = serve r (({ s with schedule := ms, turn := t } : State).setSeq t.agent { s.seq t.agent with program := rs }) := by
  obtain ⟨hop, hstop⟩ := ready_iff.mp hready
  calc step s = takeTurn t { s with schedule := ms } := step_cons hsched
    _ = issueNext { s with schedule := ms, turn := t } := takeTurn_idle (s := { s with schedule := ms }) hstop hop
    _ = _ := issueNext_cons (s := { s with schedule := ms, turn := t }) hprog

/-- A fault right after a request was taken off replaces the agent's sequencer once. -/
theorem raiseFault_setSeq (c : FaultCode) (w : OpWord) (s : State) (x : Sequencer) :
    raiseFault c w (s.setSeq s.agent x) =
      { s with
        faults := s.faults ++ [⟨c, s.agent, w⟩]
        seqs := s.seqs.set s.agent { x with op := none, stopped := true } } := by
  simp [raiseFault, State.setSeq]

/-- Settles O7: the idle agent's request is taken off and served, and serving a word that spells no operation raises the fault. -/
theorem illegalWordIsRecorded : Obligations.IllegalWordIsRecorded := by
  intro s t ms w rs e hsched hready hprog hdec
  rw [step_serves hsched hready hprog, serveWord_error hdec]
  exact congrArg _ (raiseFault_setSeq .illegalOp w { s with schedule := ms, turn := t } { s.seq t.agent with program := rs })

end Sys2Proof.Machine
end

section
/-! ### Moves of the environment (20_memory.md R129; 40_shift_register_driver.md R77) -/

namespace Sys2Proof.Machine

theorem floatChain_unowned {s : State} (h : s.owned.clk = false) (v : U16) : floatChain v s = { s with chain := v } := by
  rw [floatChain, h]
  rfl

theorem floatChain_owned {s : State} (h : s.owned.clk = true) (v : U16) : floatChain v s = s := if_pos h

theorem floatLatch_unowned {s : State} (h : s.owned.store = false) (v : U16) : floatLatch v s = { s with latch := v } := by
  rw [floatLatch, h]
  rfl

theorem floatLatch_owned {s : State} (h : s.owned.store = true) (v : U16) : floatLatch v s = s := if_pos h

/-- Settles O10: the move is taken off the schedule, and its own lemma says what it does from there. -/
theorem environmentMoves : Obligations.EnvironmentMoves := by
  intro s ms k v
  refine ⟨step_cons, fun hsched ho => ?_, fun hsched ho => ?_, fun hsched ho => ?_, fun hsched ho => ?_⟩
  · exact (step_cons hsched).trans (congrArg _ (floatChain_unowned (s := { s with schedule := ms }) ho v))
  · exact (step_cons hsched).trans (congrArg _ (floatChain_owned (s := { s with schedule := ms }) ho v))
  · exact (step_cons hsched).trans (congrArg _ (floatLatch_unowned (s := { s with schedule := ms }) ho v))
  · exact (step_cons hsched).trans (congrArg _ (floatLatch_owned (s := { s with schedule := ms }) ho v))

end Sys2Proof.Machine
end

section
/-! ### Single line events, and the bits they clock in (40_shift_register_driver.md R74 to R78) -/

namespace Sys2Proof.Machine

theorem dataBit_driven {s : State} {b : Bool} (h : s.level.data = .driven b) : s.dataBit = b := by
  simp only [State.dataBit, h]

theorem dataBit_unknown {s : State} (h : s.level.data = .unknown) : s.dataBit = s.turn.sample := by
  simp only [State.dataBit, h]

/-- Settles O36: on an owned line the next state is `lineDone`, whose chain and latch change at their rising edges alone. -/
theorem lineSetFollowsEdges : Obligations.LineSetFollowsEdges := by
  intro s l b
  refine ⟨lineSet_not_owned, fun ho => ⟨lineDone l b s, lineSet_owned ho, lineDone_level l b s, ?_, ?_, ?_, ?_, ?_⟩⟩
  · intro hl hlow hb
    have hchain : (lineDone l b s).chain = shiftIn s.chain s.dataBit := by rw [lineDone_chain, if_pos ⟨hl, hlow, hb⟩]
    have hbottom : (lineDone l b s).chain.getLsbD 0 = s.dataBit := by rw [hchain, shiftIn_getLsbD _ _ (by omega), if_pos rfl]
    refine ⟨fun x hx => hbottom.trans (dataBit_driven hx), fun hx => hbottom.trans (dataBit_unknown hx), fun i hi => ?_⟩
    rw [hchain, shiftIn_getLsbD _ _ (by omega), if_neg (by omega), Nat.add_sub_cancel]
  · exact fun hno => by rw [lineDone_chain, if_neg hno]
  · exact fun hl hlow hb => by rw [lineDone_latch, if_pos ⟨hl, hlow, hb⟩]
  · exact fun hno => by rw [lineDone_latch, if_neg hno]
  · rw [lineDone_eq]

/-- The events that clock in one bit: DATA, CLK low and CLK high (R78). -/
def clockBit (d : Bool) (s : State) : State := lineDone .clk true (lineDone .clk false (lineDone .data d s))

theorem clockBit_owned (d : Bool) (s : State) : (clockBit d s).owned = s.owned := by
  simp only [clockBit, lineDone_owned]

/-- DATA makes no edge, CLK low no rising one, and so CLK high shifts the bit on DATA into the chain as it was. -/
theorem clockBit_chain (d : Bool) (s : State) : (clockBit d s).chain = shiftIn s.chain d := by
  simp [clockBit, lineDone_chain, PerLine.set, State.dataBit]

theorem clockIn_cons {s : State} (h : AllOwned s) (d : Bool) (ds : List Bool) : clockIn (d :: ds) s = clockIn ds (clockBit d s) := by
  have howned : ∀ l, s.owned.get l = true := fun l => by rw [h, perLine_get_all]
  have hdata : lineSet .data d s = .next (lineDone .data d s) := lineSet_owned (howned _)
  have hlow : lineSet .clk false (lineDone .data d s) = .next (lineDone .clk false (lineDone .data d s)) :=
    lineSet_owned (by rw [lineDone_owned, howned])
  have hhigh : lineSet .clk true (lineDone .clk false (lineDone .data d s)) = .next (clockBit d s) :=
    lineSet_owned (by rw [lineDone_owned, lineDone_owned, howned])
  simp only [clockIn, hdata, hlow, hhigh]

/-- The bits are shifted in one after the other. -/
theorem clockIn_chain {ds : List Bool} {s : State} (h : AllOwned s) :
    ∃ t, clockIn ds s = .next t ∧ t.chain = ds.foldl shiftIn s.chain := by
  induction ds generalizing s with
  | nil => exact ⟨s, rfl, rfl⟩
  | cons d ds ih =>
    obtain ⟨t, ht, hchain⟩ := ih (s := clockBit d s) (by rw [AllOwned, clockBit_owned, h])
    exact ⟨t, by rw [clockIn_cons h, ht], by rw [hchain, clockBit_chain, List.foldl_cons]⟩

/-- The last bits shifted in stand at the bottom, the last one in bit 0, and the chain's own bits above them. -/
theorem foldl_shiftIn_getLsbD (ds : List Bool) (c : U16) {i : Nat} (h : i < 16) : (ds.foldl shiftIn c).getLsbD i =
    if i < ds.length then ds.getD (ds.length - 1 - i) false else c.getLsbD (i - ds.length) := by
  induction ds generalizing c with
  | nil => simp
  | cons d ds ih =>
    rw [List.foldl_cons, ih, List.length_cons]
    obtain hi | rfl | hi := Nat.lt_trichotomy i ds.length
    · rw [if_pos hi, if_pos (by omega), show ds.length + 1 - 1 - i = ds.length - 1 - i + 1 by omega, List.getD_cons_succ]
    · rw [if_neg (by omega), if_pos (by omega), Nat.sub_self, shiftIn_getLsbD _ _ (by omega), if_pos rfl]
      simp
    · rw [if_neg (by omega), if_neg (by omega), shiftIn_getLsbD _ _ (by omega), if_neg (by omega), Nat.sub_sub]

/-- Settles O37: sixteen shifts leave none of the chain's own bits, and the bit shifted in first stands highest. -/
theorem sixteenEdgesPlaceBits : Obligations.SixteenEdgesPlaceBits := by
  intro s ds howned hlen
  obtain ⟨t, ht, hchain⟩ := clockIn_chain (ds := ds) howned
  refine ⟨t, ht, fun i hi => ?_⟩
  rw [hchain, foldl_shiftIn_getLsbD _ _ (by omega), hlen, if_pos (by omega), show 16 - 1 - (15 - i) = i by omega]

end Sys2Proof.Machine
end

section
/-! ### A WRITE's end state, and the order of its line events (40_shift_register_driver.md R79, R81, R85) -/

namespace Sys2Proof.Machine

/-- Settles O17: WRITE is the unhindered run of its sequence. -/
theorem writeCompletes : Obligations.WriteCompletes := fun _ v h hhost => h.exec_write hhost v

/-- Line event e of a WRITE sequence of v, as the trace names it (R70, R79). -/
def writeLineEvent (v : U16) (e : Nat) : LineEvent := .set (writeEvent v e).1 (writeEvent v e).2

theorem writeTrace_events (v : U16) (s : State) :
    (writeTrace v s).reverse.map (·.event) = (List.range 52).map (writeLineEvent v) := by
  rw [writeTrace, List.reverse_reverse, List.map_map]
  rfl

/-- CLK and STORE low, then n bits from bit 15 down, each on DATA with one CLK pulse after it. -/
theorem writeLineEvents_bits (v : U16) {n : Nat} (h : n ≤ 16) : (List.range (2 + 3 * n)).map (writeLineEvent v) =
    [.set .clk false, .set .store false] ++
      (List.range n).flatMap fun j => [.set .data (v.getLsbD (15 - j)), .set .clk true, .set .clk false] := by
  induction n with
  | zero => rfl
  | succ n ih =>
    have hbit : [writeLineEvent v (2 + 3 * n), writeLineEvent v (3 + 3 * n), writeLineEvent v (4 + 3 * n)] =
        [.set .data (v.getLsbD (15 - n)), .set .clk true, .set .clk false] := by
      simp only [writeLineEvent, writeEvent_data v h, writeEvent_rise v h, writeEvent_fall v h]
    calc (List.range (2 + 3 * (n + 1))).map (writeLineEvent v)
        = (List.range (2 + 3 * n)).map (writeLineEvent v) ++
          [writeLineEvent v (2 + 3 * n), writeLineEvent v (3 + 3 * n), writeLineEvent v (4 + 3 * n)] := by
          rw [show 2 + 3 * (n + 1) = 2 + 3 * n + 1 + 1 + 1 by omega, List.range_succ, List.range_succ, List.range_succ,
            show 2 + 3 * n + 1 + 1 = 4 + 3 * n by omega, show 2 + 3 * n + 1 = 3 + 3 * n by omega]
          simp only [List.map_append, List.map_cons, List.map_nil, List.append_assoc, List.cons_append, List.nil_append]
      _ = _ := by
          rw [ih (by omega), hbit, List.range_succ, List.flatMap_append, List.append_assoc]
          simp only [List.flatMap_cons, List.flatMap_nil, List.append_nil]

/-- Settles O38: the trace of `wroteState` holds all sixteen bits' events and then the STORE pulse. -/
theorem writeTraceOrder : Obligations.WriteTraceOrder := by
  intro s v h hhost
  refine ⟨_, h.exec_write hhost v, ?_⟩
  have htrace : (returnResult (.ok .nothing) (wroteState v s)).trace = writeTrace v s ++ s.trace := rfl
  have hpulse : (List.range 52).map (writeLineEvent v) =
      (List.range (2 + 3 * 16)).map (writeLineEvent v) ++ [.set .store true, .set .store false] := by
    rw [List.range_succ, List.range_succ, List.append_assoc, List.map_append]
    rfl
  rw [htrace, List.reverse_append, List.map_append, writeTrace_events, hpulse, writeLineEvents_bits v le_rfl]

end Sys2Proof.Machine
end

section
/-! ### A WRITE cut short (20_memory.md R47, R48, R54, R61; 40_shift_register_driver.md R80) -/

namespace Sys2Proof.Machine

/-- The first k micro-steps of a WRITE sequence within a turn. -/
theorem runTurn_reaches_writeAt {f : InFlight} {s : State}
    (hs : ∀ k, k < 53 → (sequenceOf f.instr)[f.idx + k]? = some (.shiftOut k)) (ho : AllOwned s) {k : Nat} (hk : k ≤ 53) :
    runTurn k (s.setOp (some f)) = .next (writeAt f k s) := by
  induction k with
  | zero => exact congrArg _ (writeAt_zero f s).symm
  | succ k ih =>
    have hop : ((writeAt f k s).seq (writeAt f k s).agent).op = some { f with idx := f.idx + k } := by simp [writeAt]
    rw [runTurn_add (ih (by omega)) 1, runTurn_succ_of_microStep hop (microStep_writeAt (hs k (by omega)) ho)]
    rfl

theorem writeEvent_ne_store_high {v : U16} {e : Nat} (he : e < 50) : writeEvent v e ≠ (.store, true) := by
  obtain rfl | rfl | ⟨j, hj, rfl⟩ | ⟨j, hj, rfl⟩ | ⟨j, hj, rfl⟩ | rfl | rfl := event_cases (show e < 52 by omega)
  · rw [writeEvent_zero]; nofun
  · rw [writeEvent_one]; nofun
  · rw [writeEvent_data v hj]; nofun
  · rw [writeEvent_rise v hj]; nofun
  · rw [writeEvent_fall v hj]; nofun
  · omega
  · omega

/-- Up to its STORE pulse a WRITE sequence keeps the latch (R80). -/
theorem afterEvents_latch_old (v : U16) (s : State) {e : Nat} (he : e ≤ 50) : (afterEvents v e s).latch = s.latch := by
  induction e with
  | zero => rfl
  | succ e ih =>
    have hno : ¬ ((writeEvent v e).1 = .store ∧ (afterEvents v e s).level.store = .driven false ∧ (writeEvent v e).2 = true) :=
      fun ⟨hl, _, hb⟩ => writeEvent_ne_store_high (by omega) (Prod.ext hl hb)
    rw [afterEvents, lineDone_latch, if_neg hno, ih (by omega)]

theorem afterEvents_latch_old_or_new (v : U16) (s : State) {e : Nat} (he : e ≤ 52) :
    (afterEvents v e s).latch = s.latch ∨ (afterEvents v e s).latch = v := by
  by_cases h : e ≤ 50
  · exact .inl (afterEvents_latch_old v s h)
  · exact .inr ((afterEvents_progress v s he).latch (by omega))

/-- WRITE of v once its value is loaded, before the first micro-step of its WRITE sequence (R79). -/
def loadedWrite (v : U16) (s : State) : InFlight := { inFlightOf (.write v) with wpos := s.turn.wpos, idx := 2 }

theorem sequenceOf_loadedWrite (v : U16) (s : State) {k : Nat} (hk : k < 53) :
    (sequenceOf (loadedWrite v s).instr)[(loadedWrite v s).idx + k]? = some (.shiftOut k) :=
  seqRaw_shift v hk

section
variable {s : State} (v : U16) (hfree : s.lock = .free)
include hfree

theorem runTurn_write_loaded (n : Nat) : runTurn (n + 2) (s.setOp (some (inFlightOf (.write v)))) =
    runTurn n (({ s with lock := .held s.agent } : State).setOp (some (loadedWrite v s))) :=
  (runTurn_lock rfl hfree (n + 1)).trans (runTurn_load (s := { s with lock := .held s.agent }) rfl)

/-- Before its load a WRITE has changed nothing, after it `writeAt` says what each micro-step has done, and a turn that holds the
whole WRITE ends in `wroteState`. -/
theorem runTurn_write_old_or_new (howned : AllOwned s) (n : Nat) :
    ∃ t, runTurn n (s.setOp (some (inFlightOf (.write v)))) = .next t ∧ (t.latch = s.latch ∨ t.latch = v) ∧
      t.mirror = if n ≤ 2 + s.turn.wpos.val then s.mirror else some v := by
  have hw := s.turn.wpos.isLt
  match n with
  | 0 => exact ⟨_, rfl, .inl rfl, (if_pos (by omega)).symm⟩
  | 1 => exact ⟨_, runTurn_lock rfl hfree 0, .inl rfl, (if_pos (by omega)).symm⟩
  | k + 2 =>
    rw [runTurn_write_loaded v hfree]
    by_cases hk : k ≤ 53
    · refine ⟨_, runTurn_reaches_writeAt (s := { s with lock := .held s.agent })
        (fun _ => sequenceOf_loadedWrite v s) howned hk, ?_, ?_⟩
      · exact afterEvents_latch_old_or_new v { s with lock := .held s.agent } (by simp only [eventsBefore]; split <;> omega)
      · change (if s.turn.wpos.val < k then some v else s.mirror) = _
        rw [← ite_not]
        exact if_congr (by omega) rfl rfl
    · obtain ⟨m, rfl⟩ : ∃ m, k = m + 54 := ⟨k - 54, by omega⟩
      exact ⟨_, runTurn_write_unlock (s := { s with lock := .held s.agent }) (fun _ => sequenceOf_loadedWrite v s) rfl howned rfl m,
        .inr rfl, (if_neg (by omega)).symm⟩

end

theorem exec_write_run {s : State} (hidle : MayIssue s) (hopen : Open s) (hhost : s.agent = .host) (v : U16) :
    exec (.write v) s = runTurn s.turn.budget (s.setOp (some (inFlightOf (.write v)))) := by
  rw [exec_write]
  exact operate_run hidle (admission_eq_none.mpr ⟨rfl, fun _ => hhost, lifecycleReady_open hopen⟩) rfl

/-- Settles O39: the WRITE is admitted, and its turn ends as `runTurn_write_old_or_new` says. -/
theorem writePrefixOldOrNew : Obligations.WritePrefixOldOrNew := by
  intro s v w n hidle hopen hfree howned hhost
  rw [exec_write_run (s := { s with turn := { s.turn with wpos := w, budget := n } }) hidle hopen hhost v]
  exact runTurn_write_old_or_new (s := { s with turn := { s.turn with wpos := w, budget := n } }) v hfree howned n

end Sys2Proof.Machine
end

section
/-! ### SETOE beside a WRITE in flight (20_memory.md R52; 40_shift_register_driver.md R83; 42_output_enable.md R105) -/

namespace Sys2Proof.Machine

theorem RegSame.setSeq {s t : State} (h : RegSame s t) (a : Agent) (x : Sequencer) : RegSame s (t.setSeq a x) :=
  ⟨h.mirror, h.chain, h.latch, h.owned, h.clk, h.data, h.store⟩

/-! #### The host's WRITE, whoever's turn it is -/

/-- The host's WRITE of v is in flight as f, before its return: what of the state its remaining micro-steps need. -/
structure WriteInFlight (v : U16) (f : InFlight) (s : State) : Prop where
  op : s.seqs.host.op = some f
  running : s.seqs.host.stopped = false
  instr : f.instr = .write v
  owned : AllOwned s
  lock : s.lock = if f.idx = 0 then .free else .held .host
  phase : 2 ≤ f.idx → f.v = v ∧ WritePhase f (f.idx - 2) s

/-- OE and the lifecycle, which no micro-step of a WRITE touches. -/
structure OeSame (s t : State) : Prop where
  oeState : t.oeState = s.oeState
  oe : t.level.oe = s.level.oe
  life : t.life = s.life

theorem OeSame.trans {s t u : State} (h : OeSame s t) (k : OeSame t u) : OeSame s u :=
  ⟨k.oeState.trans h.oeState, k.oe.trans h.oe, k.life.trans h.life⟩

theorem WriteInFlight.keep {v : U16} {f : InFlight} {s t : State} (h : WriteInFlight v f s) (r : RegSame s t)
    (hlock : t.lock = s.lock) (hhost : t.seqs.host = s.seqs.host) : WriteInFlight v f t :=
  ⟨hhost ▸ h.op, hhost ▸ h.running, h.instr, r.owned.trans h.owned, hlock.trans h.lock,
    fun hi => ⟨(h.phase hi).1, (h.phase hi).2.keep r⟩⟩

section
variable {v : U16} {f : InFlight} {s : State}

theorem setOp_seqs_host (hhost : s.agent = .host) (g : Option InFlight) :
    (s.setOp g).seqs.host = { s.seqs.host with op := g } := by
  rw [setOp_seqs, hhost]
  rfl

theorem returnResult_seqs_host {r : OpResult} (hhost : s.agent = .host) :
    (returnResult r s).seqs = s.seqs.set .host { s.seqs.host with op := none, result := some r } := by
  rw [returnResult_seqs, hhost]
  rfl

theorem WriteInFlight.ofIssue (hidle : MayIssue s) (hhost : s.agent = .host) (hfree : s.lock = .free) (howned : AllOwned s) :
    WriteInFlight v (inFlightOf (.write v)) (s.setOp (some (inFlightOf (.write v)))) where
  op := by rw [setOp_seqs_host hhost]
  running := by
    rw [MayIssue, hhost] at hidle
    rw [setOp_seqs_host hhost]
    exact (ready_iff.mp hidle).2
  instr := rfl
  owned := howned
  lock := hfree
  phase := fun hi => absurd hi (by rw [inFlightOf_idx]; decide)

theorem WriteInFlight.microStep_of (h : WriteInFlight v f s) {m : Micro} (hm : (seqWrite v)[f.idx]? = some m) :
    microStep f s = runMicro f m s :=
  microStep_eq (by rw [h.instr]; exact hm)

theorem WriteInFlight.op_of_agent (h : WriteInFlight v f s) (hhost : s.agent = .host) : (s.seq s.agent).op = some f := by
  rw [hhost]
  exact h.op

theorem WriteInFlight.advanced (h : WriteInFlight v f s) (hhost : s.agent = .host) {g : InFlight} {t : State}
    (hinstr : g.instr = f.instr) (hidx : g.idx = f.idx + 1) (hlock : t.lock = .held .host) (howned : AllOwned t)
    (hturn : t.turn = s.turn) (hseqs : t.seqs = s.seqs)
    (hphase : 2 ≤ g.idx → g.v = v ∧ WritePhase g (g.idx - 2) t) : WriteInFlight v g (t.setOp (some g)) := by
  have hhost' : t.agent = .host := (congrArg Turn.agent hturn).trans hhost
  refine ⟨by rw [setOp_seqs_host hhost'], by rw [setOp_seqs_host hhost', hseqs]; exact h.running, hinstr.trans h.instr, howned,
    by rw [if_neg (by omega)]; exact hlock, fun hi => ⟨(hphase hi).1, (hphase hi).2.keep ⟨rfl, rfl, rfl, rfl, rfl, rfl, rfl⟩⟩⟩

/-- Each of the 55 micro-steps before the return leads to the next one. -/
theorem WriteInFlight.microStep_next (h : WriteInFlight v f s) (hhost : s.agent = .host) (hi : f.idx < 55) :
    ∃ t g, microStep f s = .next t ∧ WriteInFlight v g t ∧ g.idx = f.idx + 1 ∧ OeSame s t := by
  obtain h0 | h1 | h2 : f.idx = 0 ∨ f.idx = 1 ∨ 2 ≤ f.idx := by omega
  · have hlock : s.lock = .free := h.lock.trans (if_pos h0)
    have hm : (seqWrite v)[f.idx]? = some .lockAcquire := by rw [h0]; rfl
    rw [h.microStep_of hm, runMicro, microLockAcquire, if_pos hlock]
    exact ⟨_, { f with idx := f.idx + 1 }, rfl,
      h.advanced hhost rfl rfl (congrArg _ hhost) h.owned rfl rfl (by simp only; omega), rfl, ⟨rfl, rfl, rfl⟩⟩
  · have hlock : s.lock = .held .host := h.lock.trans (if_neg (by omega))
    have hm : (seqWrite v)[f.idx]? = some (.load v) := by rw [h1]; rfl
    rw [h.microStep_of hm]
    refine ⟨_, { f with v := v, wpos := s.turn.wpos, idx := f.idx + 1 }, rfl,
      h.advanced hhost rfl rfl hlock h.owned rfl rfl fun _ => ⟨rfl, ?_⟩, rfl, ⟨rfl, rfl, rfl⟩⟩
    exact h.owned.writePhase_cast (by simp only [h1])
  · obtain ⟨hv, hphase⟩ := h.phase h2
    have hlock : s.lock = .held .host := h.lock.trans (if_neg (by omega))
    have hm : (sequenceOf f.instr)[f.idx]? = some (.shiftOut (f.idx - 2)) := by
      have hshift := seqRaw_shift v (show f.idx - 2 < 53 by omega)
      rwa [Nat.add_sub_cancel' h2, ← show sequenceOf f.instr = seqWrite v from congrArg _ h.instr] at hshift
    obtain ⟨t, ht, hnext, hline⟩ := microStep_write (show f.idx - 2 < 53 by omega) hm hphase
    refine ⟨_, { f with idx := f.idx + 1 }, ht, h.advanced hhost rfl rfl (hline.lock.trans hlock) (hline.owned.trans h.owned)
      hline.turn hline.seqs fun _ => ⟨hv, hnext.cast rfl rfl (by simp only; omega)⟩, rfl, hline.oeState, hline.oe, hline.life⟩

/-- A turn of the host takes its WRITE on by the turn's micro-steps. -/
theorem WriteInFlight.runTurn_next {n : Nat} (h : WriteInFlight v f s) (hhost : s.agent = .host) (hn : f.idx + n ≤ 55) :
    ∃ t g, runTurn n s = .next t ∧ WriteInFlight v g t ∧ g.idx = f.idx + n ∧ OeSame s t := by
  induction n generalizing f s with
  | zero => exact ⟨s, f, rfl, h, rfl, ⟨rfl, rfl, rfl⟩⟩
  | succ n ih =>
    obtain ⟨u, g, hu, hg, hidx, hsame⟩ := h.microStep_next hhost (by omega)
    have hhost' : u.agent = .host := (congrArg Turn.agent (microStep_frame hu).turn).trans hhost
    obtain ⟨t, k, ht, hk, hkidx, hsame'⟩ := ih hg hhost' (by omega)
    refine ⟨t, k, ?_, hk, by omega, hsame.trans hsame'⟩
    rw [runTurn_succ_of_microStep (h.op_of_agent hhost) hu, ht]

/-- The last micro-step frees the lock and returns, with the register written (R56, R81). -/
theorem WriteInFlight.runTurn_returns (h : WriteInFlight v f s) (hhost : s.agent = .host) (hi : f.idx = 55) (n : Nat) :
    runTurn (n + 1) s = .next (returnResult (.ok .nothing) { s with lock := .free }) ∧ Coherent s ∧ s.latch = v := by
  obtain ⟨hv, hphase⟩ := h.phase (by omega)
  rw [hi] at hphase
  have hm : (seqWrite v)[f.idx]? = some (.lockRelease (.ok .nothing)) := by rw [hi]; exact seqRaw_end v
  have hlock : s.lock = .held s.agent := (h.lock.trans (if_neg (by omega))).trans (congrArg _ hhost.symm)
  refine ⟨?_, hphase.done.1, hphase.done.2.trans hv⟩
  rw [runTurn_succ_of_microStep (h.op_of_agent hhost)
    ((h.microStep_of hm).trans (if_pos hlock))]
  exact runTurn_idle (by simp) n

/-- The rest of the WRITE within a turn: whatever micro-step it stands before, it ends with the register written, the lock free and
OE as it was. -/
theorem WriteInFlight.runTurn_ends {n : Nat} (h : WriteInFlight v f s) (hhost : s.agent = .host) (hi : f.idx ≤ 55)
    (hn : 56 ≤ f.idx + n) :
    ∃ t, runTurn n s = .next t ∧ t.mirror = some v ∧ t.chain = v ∧ t.latch = v ∧ t.lock = .free ∧ OeSame s t ∧
      t.seqs.host.result = some (.ok .nothing) := by
  obtain ⟨u, g, hu, hg, hidx, hsame⟩ := h.runTurn_next (n := 55 - f.idx) hhost (by omega)
  have hhost' : u.agent = .host := (congrArg Turn.agent (runTurn_frame hu).turn).trans hhost
  obtain ⟨hret, hcoherent, hlatch⟩ := hg.runTurn_returns hhost' (by omega) (n - (55 - f.idx) - 1)
  refine ⟨returnResult (.ok .nothing) { u with lock := .free }, ?_, hcoherent.latch.trans (congrArg _ hlatch),
    hcoherent.chain.trans hlatch, hlatch, rfl, hsame.trans ⟨rfl, rfl, rfl⟩, ?_⟩
  · rw [show n = (55 - f.idx) + ((n - (55 - f.idx) - 1) + 1) by omega, runTurn_add hu, hret]
  · rw [returnResult_seqs_host (s := { u with lock := .free }) hhost']
    rfl

end

/-! #### SETOE, which needs no lock (R104) -/

theorem exec_setoe_next {s : State} {on : Bool} (hidle : MayIssue s) (hopen : Open s) (howned : s.owned.oe = true)
    (hbudget : 1 ≤ s.turn.budget) :
    exec (.setoe on) s = .next (returnResult (.ok .nothing) { lineDone .oe on s with oeState := on }) := by
  obtain ⟨n, hn⟩ : ∃ n, s.turn.budget = n + 1 := ⟨s.turn.budget - 1, by omega⟩
  have hadm : admission (.setoe on) lifecycleReady s = none := admission_eq_none.mpr ⟨rfl, nofun, lifecycleReady_open hopen⟩
  have hmicro : runMicro (inFlightOf (.setoe on)) (.setOe on) (s.setOp (some (inFlightOf (.setoe on)))) =
      .next (returnResult (.ok .nothing) { lineDone .oe on s with oeState := on }) := by
    have howned' : (s.setOp (some (inFlightOf (.setoe on)))).owned.get .oe = true := howned
    simp only [runMicro, microSetOe, driveOe, lineSet_owned howned']
    simp [lineDone_eq, returnResult, State.setOp, State.setSeq]
  rw [exec_setoe, operate_run hidle hadm rfl, hn, runTurn_micro rfl hmicro]
  exact runTurn_idle (by simp) n

/-! #### The three steps -/

/-- The state in which the request of the turn u is served: the move and the request are taken off. -/
def servedIn (u : Turn) (ms : List Move) (rs : List Request) (s : State) : State :=
  ({ s with schedule := ms, turn := u } : State).setSeq u.agent { s.seq u.agent with program := rs }

section
variable {s : State} {v : U16} {f : InFlight} {u : Turn} {ms : List Move} {rs : List Request}

theorem servedIn_seq_same : (servedIn u ms rs s).seq u.agent = { s.seq u.agent with program := rs } :=
  seqs_get_set_same _ _ _

theorem servedIn_seq_ne {a : Agent} (h : a ≠ u.agent) : (servedIn u ms rs s).seq a = s.seq a :=
  seqs_get_set_ne _ _ h

theorem servedIn_regSame : RegSame s (servedIn u ms rs s) := ⟨rfl, rfl, rfl, rfl, rfl, rfl, rfl⟩

theorem servedIn_mayIssue (h : (s.seq u.agent).ready = true) : MayIssue (servedIn u ms rs s) := by
  change ((servedIn u ms rs s).seq u.agent).ready = true
  rw [servedIn_seq_same]
  exact h

theorem servedIn_open (hlife : s.life = .ready) (hhost : ∀ f, s.seqs.host.op = some f → changesLife f.instr = false) :
    Open (servedIn u ms rs s) := by
  refine ⟨hlife, hostInTransition_eq_false.mpr fun f hf => hhost f ?_⟩
  by_cases h : Agent.host = u.agent
  · have hop := congrArg Sequencer.op (servedIn_seq_same (s := s) (u := u) (ms := ms) (rs := rs))
    rw [← h] at hop
    exact hop.symm.trans hf
  · exact (congrArg Sequencer.op (servedIn_seq_ne h)).symm.trans hf

theorem step_serves_encode {i : Instr} (hsched : s.schedule = .turn u :: ms) (hready : (s.seq u.agent).ready = true)
    (hprog : (s.seq u.agent).program = .word (encode i) :: rs) (hwf : i.wellFormed = true) :
    step s = exec i (servedIn u ms rs s) :=
  stepRunsDecodedInstruction s u ms _ rs i hsched hready hprog (decodeEncodeRoundTrip i hwf)

/-- The host's turn that issues a WRITE and is cut after its micro-steps. -/
theorem step_issues_write (hsched : s.schedule = .turn u :: ms) (hhost : u.agent = .host) (hopen : Open s)
    (hfree : s.lock = .free) (howned : AllOwned s) (hready : s.seqs.host.ready = true)
    (hprog : s.seqs.host.program = .word (encode (.write v)) :: rs) (hbudget : u.budget ≤ 55) :
    ∃ t g, step s = .next t ∧ WriteInFlight v g t ∧ g.idx = u.budget ∧ OeSame s t ∧ t.schedule = ms ∧
      ∀ n, t.seq (.caller n) = s.seq (.caller n) := by
  have hready' : (s.seq u.agent).ready = true := by rw [hhost]; exact hready
  have hstep : step s = exec (.write v) (servedIn u ms rs s) := step_serves_encode hsched hready' (by rw [hhost]; exact hprog) rfl
  have hidle : MayIssue (servedIn u ms rs s) := servedIn_mayIssue hready'
  have hopen' : Open (servedIn u ms rs s) := servedIn_open hopen.1 (hostInTransition_eq_false.mp hopen.2)
  obtain ⟨t, g, ht, hg, hidx, hsame⟩ := (WriteInFlight.ofIssue (v := v) hidle hhost hfree howned).runTurn_next hhost
    (n := u.budget) (by rw [inFlightOf_idx]; omega)
  have hrun : exec (.write v) (servedIn u ms rs s) = .next t := (exec_write_run hidle hopen' hhost v).trans ht
  have hframe := exec_frame hrun
  refine ⟨t, g, hstep.trans hrun, hg, by rw [hidx, inFlightOf_idx, Nat.zero_add], ⟨hsame.oeState, hsame.oe, hsame.life⟩,
    hframe.schedule, fun n => ?_⟩
  have hne : Agent.caller n ≠ u.agent := by rw [hhost]; nofun
  exact (hframe.others _ hne).trans (servedIn_seq_ne hne)

/-- A caller's SETOE beside the host's WRITE. -/
theorem step_setoe_beside_write {c : Fin Config.nCallers} {on : Bool} (h : WriteInFlight v f s)
    (hsched : s.schedule = .turn u :: ms) (hcaller : u.agent = .caller c) (hlife : s.life = .ready)
    (hready : (s.seq (.caller c)).ready = true) (hprog : (s.seq (.caller c)).program = .word (encode (.setoe on)) :: rs)
    (hbudget : 1 ≤ u.budget) :
    ∃ t, step s = .next t ∧ WriteInFlight v f t ∧ t.oeState = on ∧ t.level.oe = .driven on ∧ t.schedule = ms := by
  have hne : Agent.host ≠ u.agent := by rw [hcaller]; nofun
  rw [← hcaller] at hready hprog
  have hstep : step s = exec (.setoe on) (servedIn u ms rs s) := step_serves_encode hsched hready hprog rfl
  have hidle : MayIssue (servedIn u ms rs s) := servedIn_mayIssue hready
  have hopen : Open (servedIn u ms rs s) := servedIn_open hlife fun g hg => by
    cases h.op.symm.trans hg
    rw [h.instr]
    rfl
  have howned : (servedIn u ms rs s).owned.oe = true := congrArg PerLine.oe h.owned
  have hrun := exec_setoe_next (on := on) hidle hopen howned hbudget
  have hframe := exec_frame hrun
  refine ⟨_, hstep.trans hrun, ?_, rfl, ?_, hframe.schedule⟩
  · exact (h.keep servedIn_regSame rfl (servedIn_seq_ne hne)).keep ((regSame_driveOe on _).setSeq _ _)
      (lineDone_lock .oe on (servedIn u ms rs s)) (hframe.others .host hne)
  · exact congrArg PerLine.oe (lineDone_level .oe on (servedIn u ms rs s))

/-- The host's turn that goes on with the WRITE to its end. -/
theorem step_ends_write (h : WriteInFlight v f s) (hsched : s.schedule = .turn u :: ms) (hhost : u.agent = .host)
    (hi : f.idx ≤ 55) (hbudget : 56 ≤ f.idx + u.budget) :
    ∃ t, step s = .next t ∧ t.mirror = some v ∧ t.chain = v ∧ t.latch = v ∧ t.lock = .free ∧ OeSame s t ∧
      t.seqs.host.result = some (.ok .nothing) := by
  have hbusy : takeTurn u { s with schedule := ms } = runTurn u.budget { s with schedule := ms, turn := u } :=
    takeTurn_busy (s := { s with schedule := ms }) (by rw [hhost]; exact h.running) (by rw [hhost]; exact h.op)
  obtain ⟨t, ht, hmirror, hchain, hlatch, hlock, hsame, hresult⟩ :=
    (h.keep (t := { s with schedule := ms, turn := u }) ⟨rfl, rfl, rfl, rfl, rfl, rfl, rfl⟩ rfl rfl).runTurn_ends hhost hi hbudget
  exact ⟨t, ((step_cons hsched).trans hbusy).trans ht, hmirror, hchain, hlatch, hlock, ⟨hsame.oeState, hsame.oe, hsame.life⟩,
    hresult⟩

end

/-- Settles O41: each of the three steps as its own run. The SETOE touches nothing the WRITE in flight needs, and the WRITE, wherever
it stands, ends with the register written and OE as it found it. -/
theorem setoeDuringWriteIsHarmless : Obligations.SetoeDuringWriteIsHarmless := by
  intro s v on n c th tc ms rs qs hopen hfree howned hready hreadyC hprog hprogC hth htc hbudget hn hsched
  obtain ⟨s1, f, hstep1, hwrite1, hidx, hsame1, hsched1, hcallers⟩ :=
    step_issues_write hsched hth hopen hfree howned hready hprog hn
  obtain ⟨s2, hstep2, hwrite2, hoeState, hoe, hsched2⟩ := step_setoe_beside_write hwrite1 hsched1 htc (hsame1.life.trans hopen.1)
    (by rw [hcallers]; exact hreadyC) (by rw [hcallers]; exact hprogC) hbudget
  obtain ⟨s3, hstep3, hmirror, hchain, hlatch, hlock, hsame3, hresult⟩ :=
    step_ends_write hwrite2 hsched2 hth (hidx.trans_le hn) (Nat.le_add_left _ _)
  refine ⟨s3, ?_, hmirror, hchain, hlatch, hsame3.oeState.trans hoeState, hsame3.oe.trans hoe, hlock, hresult⟩
  rw [run_next Sys2Proof.core 2 s s1 hstep1, run_next Sys2Proof.core 1 s1 s2 hstep2, run_next Sys2Proof.core 0 s2 s3 hstep3]
  rfl

end Sys2Proof.Machine
end

section
/-! ### INIT and TEARDOWN within one turn (40_shift_register_driver.md R86 to R90) -/

namespace Sys2Proof.Machine

/-! #### Four acquisitions, and four releases with what follows them -/

/-- The four lines acquired, in INIT's order (R86). -/
def acquireAll (s : State) : State := acquireLine .oe (acquireLine .store (acquireLine .data (acquireLine .clk s)))

/-- The four lines released, in the order of INIT and TEARDOWN (R86, R90). -/
def releaseAll (s : State) : State := releaseLine .oe (releaseLine .store (releaseLine .data (releaseLine .clk s)))

theorem acquireAll_eq (s : State) : acquireAll s = { s with
    owned := PerLine.all true
    level := PerLine.all (.driven false)
    trace := [⟨s.now, s.agent, .acquire .oe true⟩, ⟨s.now, s.agent, .acquire .store true⟩, ⟨s.now, s.agent, .acquire .data true⟩,
      ⟨s.now, s.agent, .acquire .clk true⟩] ++ s.trace } := rfl

theorem releaseAll_of_allOwned {s : State} (h : AllOwned s) : releaseAll s = { s with
    owned := PerLine.all false
    level := PerLine.all .unknown
    trace := [⟨s.now, s.agent, .release .oe⟩, ⟨s.now, s.agent, .release .store⟩, ⟨s.now, s.agent, .release .data⟩,
      ⟨s.now, s.agent, .release .clk⟩] ++ s.trace } := by
  cases s
  obtain rfl := h
  rfl

/-- After the four releases no line is owned, and no level known. -/
theorem releaseAll_get {s : State} (h : ∀ l, s.owned.get l = true ↔ s.level.get l ≠ .unknown) (l : Line) :
    (releaseAll s).owned.get l = false ∧ (releaseAll s).level.get l = .unknown := by
  have hknown : (releaseAll s).owned.get l = true ↔ (releaseAll s).level.get l ≠ .unknown :=
    known_releaseLine (known_releaseLine (known_releaseLine (known_releaseLine h))) l
  have howned : (releaseAll s).owned.get l = false := by
    simp only [releaseAll, releaseLine_owned_get]
    cases l <;> rfl
  refine ⟨howned, not_not.mp fun hlevel => ?_⟩
  cases howned.symm.trans (hknown.mpr hlevel)

section
variable {s : State} {f : InFlight}

theorem runTurn_acquireAll (hs : ∀ n, n < 4 → (sequenceOf f.instr)[f.idx + n]? = some (.acquire (lineAt n)))
    (hgrant : s.turn.grant = PerLine.all true) (m : Nat) :
    runTurn (m + 4) (s.setOp (some f)) = runTurn m ((acquireAll s).setOp (some { f with idx := f.idx + 4 })) := by
  have hg : ∀ l, s.turn.grant.get l = true := fun l => by rw [hgrant, perLine_get_all]
  calc runTurn (m + 4) (s.setOp (some f))
      = runTurn (m + 3) ((acquireLine .clk s).setOp (some { f with idx := f.idx + 1 })) :=
        runTurn_acquire (hs 0 (by decide)) (hg _)
    _ = runTurn (m + 2) ((acquireLine .data (acquireLine .clk s)).setOp (some { f with idx := f.idx + 2 })) :=
        runTurn_acquire (f := { f with idx := f.idx + 1 }) (hs 1 (by decide)) (hg _)
    _ = runTurn (m + 1) ((acquireLine .store (acquireLine .data (acquireLine .clk s))).setOp (some { f with idx := f.idx + 3 })) :=
        runTurn_acquire (f := { f with idx := f.idx + 2 }) (hs 2 (by decide)) (hg _)
    _ = runTurn m ((acquireAll s).setOp (some { f with idx := f.idx + 4 })) :=
        runTurn_acquire (f := { f with idx := f.idx + 3 }) (hs 3 (by decide)) (hg _)

theorem runTurn_releaseAll (hs : ∀ n, n < 4 → (sequenceOf f.instr)[f.idx + n]? = some (.release (lineAt n))) (m : Nat) :
    runTurn (m + 4) (s.setOp (some f)) = runTurn m ((releaseAll s).setOp (some { f with idx := f.idx + 4 })) := by
  calc runTurn (m + 4) (s.setOp (some f))
      = runTurn (m + 3) ((releaseLine .clk s).setOp (some { f with idx := f.idx + 1 })) :=
        runTurn_release (hs 0 (by decide))
    _ = runTurn (m + 2) ((releaseLine .data (releaseLine .clk s)).setOp (some { f with idx := f.idx + 2 })) :=
        runTurn_release (f := { f with idx := f.idx + 1 }) (hs 1 (by decide))
    _ = runTurn (m + 1) ((releaseLine .store (releaseLine .data (releaseLine .clk s))).setOp (some { f with idx := f.idx + 3 })) :=
        runTurn_release (f := { f with idx := f.idx + 2 }) (hs 2 (by decide))
    _ = runTurn m ((releaseAll s).setOp (some { f with idx := f.idx + 4 })) :=
        runTurn_release (f := { f with idx := f.idx + 3 }) (hs 3 (by decide))

/-- The end that TEARDOWN and a refused INIT share: the lines are released, life is Down, the lock is freed. -/
theorem runTurn_release_down {r : OpResult}
    (hs : ∀ n, n < 4 → (sequenceOf f.instr)[f.idx + n]? = some (.release (lineAt n)))
    (hlife : (sequenceOf f.instr)[f.idx + 4]? = some (.setLife .down))
    (hret : (sequenceOf f.instr)[f.idx + 5]? = some (.lockRelease r)) (hlock : s.lock = .held s.agent) (m : Nat) :
    runTurn (m + 6) (s.setOp (some f)) = .next (returnResult r { releaseAll s with life := .down, lock := .free }) := by
  have hlock' : (releaseAll s).lock = .held (releaseAll s).agent := by simpa [releaseAll] using hlock
  calc runTurn (m + 6) (s.setOp (some f))
      = runTurn (m + 2) ((releaseAll s).setOp (some { f with idx := f.idx + 4 })) := runTurn_releaseAll hs (m + 2)
    _ = runTurn (m + 1) (({ releaseAll s with life := .down } : State).setOp (some { f with idx := f.idx + 5 })) :=
        runTurn_setLife (f := { f with idx := f.idx + 4 }) hlife
    _ = _ := runTurn_unlock (s := { releaseAll s with life := .down }) (f := { f with idx := f.idx + 5 }) hret hlock' m

end

/-! #### The beginnings of INIT and TEARDOWN -/

theorem exec_init_run {s : State} (hidle : MayIssue s) (hhost : s.agent = .host) (hlife : s.life = .down) :
    exec .init s = runTurn s.turn.budget (s.setOp (some (inFlightOf .init))) := by
  rw [exec_init]
  exact operate_run hidle (admission_eq_none.mpr ⟨rfl, fun _ => hhost, by simp only [lifecycleInit, hlife]⟩) rfl

theorem exec_teardown_run {s : State} (hidle : MayIssue s) (hhost : s.agent = .host) (hlife : s.life = .ready)
    (hfree : s.lock = .free) (hquiet : ∀ n, (s.seq (.caller n)).op = none) :
    exec .teardown s = runTurn s.turn.budget (s.setOp (some (inFlightOf .teardown))) := by
  have hcheck : lifecycleTeardown s = none := by
    rw [lifecycleTeardown, callerInFlight_false.mpr hquiet, State.lockHeldByOther, hfree]
    rfl
  rw [exec_teardown]
  exact operate_run hidle (admission_eq_none.mpr ⟨rfl, fun _ => hhost, hcheck⟩) (by rw [teardownAtOnce, hlife]; rfl)

/-- The lock taken and life written. -/
def begun (l : Lifecycle) (s : State) : State := { s with lock := .held s.agent, life := l }

theorem runTurn_begun {s : State} {i : Instr} {l : Lifecycle} (hlock : (sequenceOf i)[0]? = some .lockAcquire)
    (hlife : (sequenceOf i)[1]? = some (.setLife l)) (hfree : s.lock = .free) (m : Nat) :
    runTurn (m + 2) (s.setOp (some (inFlightOf i))) = runTurn m ((begun l s).setOp (some { inFlightOf i with idx := 2 })) := by
  calc runTurn (m + 2) (s.setOp (some (inFlightOf i)))
      = runTurn (m + 1) (({ s with lock := .held s.agent } : State).setOp
          (some { inFlightOf i with idx := (inFlightOf i).idx + 1 })) :=
        runTurn_lock (by rw [inFlightOf_instr, inFlightOf_idx]; exact hlock) hfree (m + 1)
    _ = runTurn (m + 1) (({ s with lock := .held s.agent } : State).setOp (some { inFlightOf i with idx := 1 })) := by
        rw [inFlightOf_idx]
    _ = _ := runTurn_setLife (s := { s with lock := .held s.agent }) (f := { inFlightOf i with idx := 1 })
        (by rw [inFlightOf_instr]; exact hlife)

/-! #### The whole operations -/

/-- Settles O23: with every line owned each of the four releases is an event. -/
theorem teardownCompletes : Obligations.TeardownCompletes := by
  intro s hidle hhost hlife hfree howned hquiet hbudget
  obtain ⟨m, hm⟩ : ∃ m, s.turn.budget = m + 6 + 2 := ⟨s.turn.budget - 8, by omega⟩
  rw [exec_teardown_run hidle hhost hlife hfree hquiet, hm, runTurn_begun rfl rfl hfree,
    runTurn_release_down (s := begun .tearingDown s) (fun _ => seqTeardown_release) rfl rfl rfl,
    releaseAll_of_allOwned (s := begun .tearingDown s) howned]
  rw [← hhost, hfree]
  rfl

/-- INIT in flight before its micro-step k, with the draw w of the mirror update's position once that is made. -/
def initFlight (w : Fin 53) (k : Nat) : InFlight := { inFlightOf .init with wpos := w, idx := k }

/-- The register cleared and OE raised, as INIT does once it owns the lines (R86, R88). -/
def clearedOn (s : State) : State := { lineDone .oe true (wroteState 0 s) with oeState := true }

theorem clearedOn_acquireAll (s : State) : clearedOn (acquireAll s) = { s with
    mirror := some 0
    oeState := true
    owned := PerLine.all true
    level := ⟨.driven false, .driven false, .driven false, .driven true⟩
    chain := 0
    latch := 0
    trace := ⟨s.now, s.agent, .set .oe true⟩ :: (writeTrace 0 s ++ [⟨s.now, s.agent, .acquire .oe true⟩,
      ⟨s.now, s.agent, .acquire .store true⟩, ⟨s.now, s.agent, .acquire .data true⟩, ⟨s.now, s.agent, .acquire .clk true⟩] ++
      s.trace) } := by
  rw [clearedOn, lineDone_eq, acquireAll_eq]
  simp [wroteState, writeTrace, PerLine.set, PerLine.all]

/-- INIT's micro-steps from the load on, once the lines are owned. -/
theorem runTurn_init_owned {s : State} (howned : AllOwned s) (hlock : s.lock = .held s.agent) (m : Nat) :
    runTurn (m + 57) (s.setOp (some (initFlight 0 6))) =
      .next (returnResult (.ok .nothing) { clearedOn s with life := .ready, lock := .free }) := by
  have hoe : (wroteState 0 s).owned.oe = true := congrArg PerLine.oe howned
  have hlock' : (clearedOn s).lock = .held (clearedOn s).agent := by
    rw [clearedOn, lineDone_eq]
    exact hlock
  calc runTurn (m + 57) (s.setOp (some (initFlight 0 6)))
      = runTurn (m + 56) (s.setOp (some (initFlight s.turn.wpos 7))) := runTurn_load (f := initFlight 0 6) rfl
    _ = runTurn (m + 3) ((wroteState 0 s).setOp (some (initFlight s.turn.wpos 60))) :=
        runTurn_write (f := initFlight s.turn.wpos 7) (fun _ => seqInit_shift) howned (m + 3)
    _ = runTurn (m + 2) ((clearedOn s).setOp (some (initFlight s.turn.wpos 61))) :=
        runTurn_oeOn (f := initFlight s.turn.wpos 60) rfl hoe
    _ = runTurn (m + 1) (({ clearedOn s with life := .ready } : State).setOp (some (initFlight s.turn.wpos 62))) :=
        runTurn_setLife (f := initFlight s.turn.wpos 61) rfl
    _ = _ := runTurn_unlock (s := { clearedOn s with life := .ready }) (f := initFlight s.turn.wpos 62) rfl hlock' m

/-- INIT's micro-steps with every acquisition granted. -/
theorem runTurn_init_granted {s : State} (hfree : s.lock = .free) (hgrant : s.turn.grant = PerLine.all true) (m : Nat) :
    runTurn (m + 63) (s.setOp (some (inFlightOf .init))) = .next (returnResult (.ok .nothing)
      { clearedOn (acquireAll (begun .initializing s)) with life := .ready, lock := .free }) := by
  calc runTurn (m + 63) (s.setOp (some (inFlightOf .init)))
      = runTurn (m + 61) ((begun .initializing s).setOp (some (initFlight 0 2))) := runTurn_begun rfl rfl hfree (m + 61)
    _ = runTurn (m + 57) ((acquireAll (begun .initializing s)).setOp (some (initFlight 0 6))) :=
        runTurn_acquireAll (s := begun .initializing s) (f := initFlight 0 2) (fun _ => seqInit_acquire) hgrant (m + 57)
    _ = _ := runTurn_init_owned rfl rfl m

/-- Settles O21: INIT's micro-steps end in the state given. -/
theorem initCompletes : Obligations.InitCompletes := by
  intro s hidle hhost hlife hfree hgrant hbudget
  obtain ⟨m, hm⟩ : ∃ m, s.turn.budget = m + 63 := ⟨s.turn.budget - 63, by omega⟩
  rw [exec_init_run hidle hhost hlife, hm, runTurn_init_granted hfree hgrant, clearedOn_acquireAll, ← hhost, hfree]
  rfl

/-! #### INIT with an acquisition refused (R89) -/

/-- All that may differ is which lines are owned, their levels and the trace. -/
def OnlyLines (s t : State) : Prop := ∃ o l tr, t = { s with owned := o, level := l, trace := tr }

theorem OnlyLines.trans {s t u : State} : OnlyLines s t → OnlyLines t u → OnlyLines s u := by
  rintro ⟨_, _, _, rfl⟩ ⟨o, l, tr, rfl⟩
  exact ⟨o, l, tr, rfl⟩

theorem onlyLines_releaseLine (l : Line) (s : State) : OnlyLines s (releaseLine l s) := by
  unfold releaseLine
  split
  · exact ⟨_, _, _, rfl⟩
  · exact ⟨_, _, _, rfl⟩

theorem onlyLines_releaseAll (s : State) : OnlyLines s (releaseAll s) :=
  (((onlyLines_releaseLine .clk s).trans (onlyLines_releaseLine .data _)).trans (onlyLines_releaseLine .store _)).trans
    (onlyLines_releaseLine .oe _)

theorem exists_lineAt (l : Line) : ∃ n, n < 4 ∧ lineAt n = l := by
  cases l
  · exact ⟨0, by decide, rfl⟩
  · exact ⟨1, by decide, rfl⟩
  · exact ⟨2, by decide, rfl⟩
  · exact ⟨3, by decide, rfl⟩

/-- From its n-th acquisition on, with one of the j left refused, INIT comes to its release part. -/
theorem runTurn_init_refused {j n : Nat} {s : State} (hn : n + j = 4)
    (hknown : ∀ l, s.owned.get l = true ↔ s.level.get l ≠ .unknown)
    (hrefused : ∃ i, n ≤ i ∧ i < 4 ∧ s.turn.grant.get (lineAt i) = false) :
    ∃ t k, OnlyLines s t ∧ (∀ l, t.owned.get l = true ↔ t.level.get l ≠ .unknown) ∧ k ≤ j ∧
      ∀ m, runTurn (m + k) (s.setOp (some (initFlight 0 (2 + n)))) = runTurn m (t.setOp (some (initFlight 0 initFailIdx))) := by
  induction j generalizing n s with
  | zero =>
    obtain ⟨i, hi, hi4, -⟩ := hrefused
    omega
  | succ j ih =>
    have hmicro : (sequenceOf (initFlight 0 (2 + n)).instr)[(initFlight 0 (2 + n)).idx]? = some (.acquire (lineAt n)) :=
      seqInit_acquire (by omega)
    cases hg : s.turn.grant.get (lineAt n) with
    | false => exact ⟨s.log (.acquire (lineAt n) false), 1, ⟨_, _, _, rfl⟩, hknown, by omega, fun m => runTurn_denied hmicro hg⟩
    | true =>
      obtain ⟨i, hi, hi4, hno⟩ := hrefused
      have hne : i ≠ n := by
        rintro rfl
        cases hg.symm.trans hno
      obtain ⟨t, k, honly, hknown', hk, hrun⟩ := ih (n := n + 1) (s := acquireLine (lineAt n) s) (by omega)
        (known_acquireLine hknown) ⟨i, by omega, hi4, hno⟩
      exact ⟨t, k + 1, OnlyLines.trans ⟨_, _, _, rfl⟩ honly, hknown', by omega,
        fun m => (runTurn_acquire hmicro hg).trans (hrun m)⟩

/-- Settles O22: the acquisitions before the refused one touch the lines alone, and the release part gives every line back. -/
theorem failedInitHoldsNothing : Obligations.FailedInitHoldsNothing := by
  intro s hidle hhost hlife howned hlevel hfree ⟨l, hl⟩ hbudget
  obtain ⟨i, hi, rfl⟩ := exists_lineAt l
  have hknown : ∀ k, s.owned.get k = true ↔ s.level.get k ≠ .unknown := fun k => by
    simp only [howned, hlevel, perLine_get_all, Bool.false_eq_true, ne_eq, not_true_eq_false]
  obtain ⟨t, k, honly, hknown', hk, hrun⟩ :=
    runTurn_init_refused (j := 4) (n := 0) (s := begun .initializing s) rfl hknown ⟨i, Nat.zero_le i, hi, hl⟩
  obtain ⟨m, hm⟩ : ∃ m, s.turn.budget = m + 6 + k + 2 := ⟨s.turn.budget - (6 + k + 2), by omega⟩
  have hlock : t.lock = .held t.agent := by
    obtain ⟨_, _, _, rfl⟩ := honly
    rfl
  have hexec : exec .init s = .next (returnResult .resourceUnavailable { releaseAll t with life := .down, lock := .free }) := by
    calc exec .init s = runTurn s.turn.budget (s.setOp (some (inFlightOf .init))) := exec_init_run hidle hhost hlife
      _ = runTurn (m + 6 + k) ((begun .initializing s).setOp (some (initFlight 0 2))) := by
          rw [hm]; exact runTurn_begun rfl rfl hfree _
      _ = runTurn (m + 6) (t.setOp (some (initFlight 0 initFailIdx))) := hrun (m + 6)
      _ = _ := runTurn_release_down (fun _ => seqInit_release) rfl rfl hlock m
  have hgone := releaseAll_get hknown'
  obtain ⟨o, lv, tr, he⟩ := honly.trans (onlyLines_releaseAll t)
  refine ⟨_, hexec, hgone, rfl, rfl, ?_⟩
  rw [he]
  exact ⟨rfl, rfl, rfl, rfl, rfl, rfl, returnResult_seqs_host hhost⟩

end Sys2Proof.Machine
end

section
/-! ### OE while INIT is under way (40_shift_register_driver.md R87; 70_reset_and_hazards.md R145) -/

namespace Sys2Proof.Machine

/-- INIT keeps OE low until it has latched 0x0000, and where it has been refused OE is low or released. -/
theorem Inv.oe_low_or_latch_zero {s : State} (hI : Inv s) (hlife : s.life = .initializing) (howned : s.owned.oe = true) :
    s.level.oe = .driven false ∨ s.latch = 0 := by
  obtain ⟨f, hf, hi⟩ := hI.initializing hlife
  have hphase := (hI.flight .host f hf).phase
  rw [phaseOf_init hi] at hphase
  rcases hphase with ⟨-, h⟩ | ⟨-, -, -, -, -, -, hoe, -, -, -, hnoe⟩ | ⟨-, -, -, -, -, h⟩ | ⟨-, -, -, -, h, -⟩ | ⟨-, h, -⟩ |
    ⟨-, -, -, hlow, -⟩ | ⟨-, h⟩
  · cases hlife.symm.trans h
  · refine .inl (hoe (not_lt.mp fun hlt => ?_)).2
    cases howned.symm.trans (hnoe hlt)
  · exact .inl h
  · exact .inr h
  · cases hlife.symm.trans h
  · cases hlevel : s.level.oe with
    | unknown => exact absurd hlevel ((hI.known .oe).mp howned)
    | driven b =>
      cases b
      · exact .inl rfl
      · exact absurd hlevel hlow
  · cases hlife.symm.trans h

/-- Settles O55: with OE low no output is driven, and with 0x0000 latched none is driven to 1. -/
theorem initNeverDrivesStaleLatch : Obligations.InitNeverDrivesStaleLatch := by
  intro s hI hlife howned k d
  obtain ⟨hhigh, hlow, -⟩ := outputsFollowLatchAndOe s k
  cases hlevel : s.level.oe with
  | unknown => exact absurd hlevel ((hI.known .oe).mp howned)
  | driven b =>
    cases b
    · exact .inl (hlow hlevel d)
    · refine .inr ((hhigh hlevel d).trans ?_)
      obtain h | h := hI.oe_low_or_latch_zero hlife howned
      · cases hlevel.symm.trans h
      · rw [h]
        simp

end Sys2Proof.Machine
end

section
/-! ### Voltage codes, the delay condition, and the bits of a port's field (41_port_controller.md R93 to R97) -/

namespace Sys2Proof.Machine

theorem voltageOf_dec_enc (c : VoltageClass) : voltageOf (dec (enc c)) = some c := by cases c <;> rfl

/-- Settles O28: both tables entry by entry, and the round trip class by class. -/
theorem voltageCodes : Obligations.VoltageCodes :=
  ⟨rfl, rfl, rfl, rfl, rfl, rfl, rfl, voltageOf_dec_enc⟩

theorem needDelay_iff {cur nb : BitVec 2} : needDelay cur nb = true ↔ nb ≠ 0b00#2 ∧ cur ≠ nb := by
  simp [needDelay]

theorem needDelay_eq_false {cur nb : BitVec 2} : needDelay cur nb = false ↔ nb = 0b00#2 ∨ cur = nb := by
  rw [← Bool.not_eq_true, needDelay_iff, not_and_or, not_not, not_not]

/-- Settles O30: the condition is `needDelay_iff`, and the cells of its table are closed facts. -/
theorem delayConditionTable : Obligations.DelayConditionTable :=
  ⟨fun _ _ => needDelay_iff, fun _ => needDelay_eq_false.mpr (.inl rfl), rfl, rfl, rfl, rfl, rfl, rfl, rfl, rfl⟩

/-- 0b11 is the value of two low ones, as a register value. -/
theorem three_getLsbD (i : Nat) : (0b11#16).getLsbD i = decide (i < 2) := by
  rw [BitVec.getLsbD_ofNat, show (0b11 : Nat) = 2 ^ 2 - 1 from rfl, Nat.testBit_two_pow_sub_one, ← Bool.decide_and]
  exact decide_eq_decide.mpr (by omega)

theorem portMask_getLsbD (p : Port) (i : Nat) : (portMask p).getLsbD i = decide (i = 2 * p.val ∨ i = 2 * p.val + 1) := by
  have hp := p.isLt
  rw [portMask, BitVec.getLsbD_shiftLeft, three_getLsbD, ← decide_not, ← Bool.decide_and, ← Bool.decide_and]
  exact decide_eq_decide.mpr (by omega)

theorem field_getLsbD (x : U16) (p : Port) {i : Nat} (hi : i < 2) : (field x p).getLsbD i = x.getLsbD (2 * p.val + i) := by
  rw [field, BitVec.getLsbD_setWidth, BitVec.getLsbD_and, BitVec.getLsbD_ushiftRight, three_getLsbD, decide_eq_true hi,
    Bool.true_and, Bool.and_true]

/-- Settles O29: bit by bit, the field of a value and the mask. -/
theorem portFieldIsBitPair : Obligations.PortFieldIsBitPair := fun x p =>
  ⟨field_getLsbD x p Nat.two_pos, field_getLsbD x p Nat.one_lt_two, fun i => by rw [portMask_getLsbD, decide_eq_true_iff]⟩

/-- A merged value has the code's bits in port p's field and the old value's bits elsewhere (R100). -/
theorem mergeField_getLsbD (x : U16) (p : Port) (nb : BitVec 2) {i : Nat} (hi : i < 16) : (mergeField x p nb).getLsbD i =
    if i = 2 * p.val ∨ i = 2 * p.val + 1 then nb.getLsbD (i - 2 * p.val) else x.getLsbD i := by
  have hp := p.isLt
  rw [mergeField, BitVec.getLsbD_or, BitVec.getLsbD_and, BitVec.getLsbD_not, portMask_getLsbD, BitVec.getLsbD_shiftLeft,
    BitVec.getLsbD_setWidth]
  by_cases hin : i = 2 * p.val ∨ i = 2 * p.val + 1
  · have hlow : ¬ i < 2 * p.val := by omega
    have hwide : i - 2 * p.val < 16 := by omega
    simp [hin, hi, hlow, hwide]
  · have hout : i < 2 * p.val ∨ nb.getLsbD (i - 2 * p.val) = false := by
      by_cases hlow : i < 2 * p.val
      · exact .inl hlow
      · exact .inr (BitVec.getLsbD_of_ge _ _ (by omega))
    rcases hout with h | h <;> simp [hin, hi, h]

theorem field_mergeField_same (x : U16) (p : Port) (nb : BitVec 2) : field (mergeField x p nb) p = nb := by
  refine BitVec.eq_of_getLsbD_eq fun i hi => ?_
  have hp := p.isLt
  rw [field_getLsbD _ _ hi, mergeField_getLsbD _ _ _ (by omega), if_pos (by omega), Nat.add_sub_cancel_left]

theorem field_mergeField_ne (x : U16) {p q : Port} (nb : BitVec 2) (h : q ≠ p) : field (mergeField x p nb) q = field x q := by
  refine BitVec.eq_of_getLsbD_eq fun i hi => ?_
  have hq := q.isLt
  have hne : q.val ≠ p.val := Fin.val_ne_of_ne h
  rw [field_getLsbD _ _ hi, field_getLsbD _ _ hi, mergeField_getLsbD _ _ _ (by omega), if_neg (by omega)]

end Sys2Proof.Machine
end

section
/-! ### The argument check of the port operations (R100, R110, R113, R118) -/

namespace Sys2Proof.Machine

theorem portOf_eq {p : BitVec 4} (h : p.toNat < 8) : portOf p = ⟨p.toNat, h⟩ := Fin.ext (Nat.mod_eq_of_lt h)

theorem checkPort_passes {p : BitVec 4} (h : p.toNat < 8) (s : State) : checkPort p s = none :=
  if_pos (decide_eq_true (Nat.le_of_lt_succ h))

theorem checkPort_refuses {p : BitVec 4} (h : 7 < p.toNat) (s : State) : checkPort p s = some .invalidArgument :=
  if_neg fun hle => absurd (of_decide_eq_true hle) (not_le.mpr h)

/-- A port operation is admitted to any agent while the block is open (R122, R123, R128). -/
theorem admission_of_open {i : Instr} {s : State} (hopen : Open s) (hwf : i.wellFormed = true) (hany : hostOnly i = false) :
    admission i lifecycleReady s = none :=
  admission_eq_none.mpr ⟨hwf, fun h => absurd (hany.symm.trans h) Bool.false_ne_true, lifecycleReady_open hopen⟩

/-- Settles O16: each of the three is admitted, and its argument check returns at once. -/
theorem badPortIndexChangesNothing : Obligations.BadPortIndexChangesNothing := by
  intro s p nb n hidle hopen hp hnb
  have hcheck := checkPort_refuses hp s
  refine ⟨?setport, ?cssetport, ?readport⟩
  case setport => exact operate_atOnce hidle (admission_of_open hopen (setport_wellFormed.mpr hnb) rfl) hcheck
  case cssetport => exact operate_atOnce hidle (admission_of_open hopen rfl rfl) hcheck
  case readport => exact operate_atOnce hidle (admission_of_open hopen rfl rfl) hcheck

end Sys2Proof.Machine
end

section
/-! ### The settling delay (41_port_controller.md R97, R98) -/

namespace Sys2Proof.Machine

/-- Settles O34: the wait compares the time that is then reached with t0 + 300. -/
theorem waitEndsAfter300 : Obligations.WaitEndsAfter300 := by
  refine fun s f => ⟨fun h => if_pos h, fun h => ?_⟩
  exact if_neg (c := f.t0 + Config.settleDelayMs ≤ (tick s.turn.elapse s).now) (not_le.mpr h)

section
variable {s : State} {f : InFlight} {m : U16}

theorem runTurn_readField_delayed (hs : (sequenceOf f.instr)[f.idx]? = some .readField) (hm : s.mirror = some m)
    (hdelay : needDelay (field m f.p) f.nb = true) (n : Nat) :
    runTurn (n + 1) (s.setOp (some f)) = runTurn n (s.setOp (some { f with t0 := s.now, idx := f.idx + 1 })) := by
  refine runTurn_micro hs ?_ n
  simp [runMicro, microReadField, hm, hdelay]

theorem runTurn_readField_undelayed (hs : (sequenceOf f.instr)[f.idx]? = some .readField) (hm : s.mirror = some m)
    (hdelay : needDelay (field m f.p) f.nb = false) (n : Nat) :
    runTurn (n + 1) (s.setOp (some f)) = runTurn n (s.setOp (some { f with idx := f.idx + 2 })) := by
  refine runTurn_micro hs ?_ n
  simp [runMicro, microReadField, hm, hdelay]

theorem runTurn_settled (hs : (sequenceOf f.instr)[f.idx]? = some .waitSettled) (h : f.t0 + 300 ≤ s.now + s.turn.elapse) (n : Nat) :
    runTurn (n + 1) (s.setOp (some f)) = runTurn n ((tick s.turn.elapse s).setOp (some { f with idx := f.idx + 1 })) := by
  have hstep := (waitEndsAfter300 (s.setOp (some f)) f).1 h
  exact runTurn_micro hs (hstep.trans (congrArg _ (setOp_setOp (tick s.turn.elapse s) _ _))) n

theorem runTurn_waiting (hs : (sequenceOf f.instr)[f.idx]? = some .waitSettled) (h : s.now + s.turn.elapse < f.t0 + 300) (n : Nat) :
    runTurn (n + 1) (s.setOp (some f)) = runTurn n ((tick s.turn.elapse s).setOp (some f)) :=
  runTurn_micro hs ((waitEndsAfter300 _ f).2 h) n

/-- While no time passes, the wait keeps its agent where it is for a turn of any length (R98). -/
theorem runTurn_waiting_still (hs : (sequenceOf f.instr)[f.idx]? = some .waitSettled) (h : s.now < f.t0 + 300)
    (hstill : s.turn.elapse = 0) (n : Nat) : runTurn n (s.setOp (some f)) = .next (s.setOp (some f)) := by
  induction n with
  | zero => rfl
  | succ n ih => rw [runTurn_waiting hs (by omega), hstill]; exact ih

theorem runTurn_merge (hs : (sequenceOf f.instr)[f.idx]? = some .merge) (hm : s.mirror = some m) (n : Nat) :
    runTurn (n + 1) (s.setOp (some f)) =
      runTurn n (s.setOp (some { f with v := mergeField m f.p f.nb, wpos := s.turn.wpos, idx := f.idx + 1 })) := by
  refine runTurn_micro hs ?_ n
  simp [runMicro, microMerge, hm]

end

end Sys2Proof.Machine
end

section
/-! ### A whole SETPORT or CSSETPORT within one turn (41_port_controller.md R100; 44_control_surface.md R113) -/

namespace Sys2Proof.Machine

/-- An operation with SETPORT's sequence has the merged value of its field to write, before the first micro-step of its WRITE
sequence (R79, R100). -/
def mergedFlight (m : U16) (w : Fin 53) (f : InFlight) : InFlight := { f with v := mergeField m f.p f.nb, wpos := w, idx := 4 }

section
variable {s : State} {f : InFlight} {m : U16} (hseq : sequenceOf f.instr = seqSetport) (hm : s.mirror = some m)
include hseq

theorem mergedFlight_shift (m : U16) (w : Fin 53) {k : Nat} (hk : k < 53) :
    (sequenceOf (mergedFlight m w f).instr)[(mergedFlight m w f).idx + k]? = some (.shiftOut k) := by
  change (sequenceOf f.instr)[4 + k]? = _
  rw [hseq, seqPort_shift hk]

include hm

theorem runTurn_port_merged (hidx : f.idx = 3) (n : Nat) :
    runTurn (n + 1) (s.setOp (some f)) = runTurn n (s.setOp (some (mergedFlight m s.turn.wpos f))) := by
  rw [runTurn_merge (by rw [hseq, hidx]; rfl) hm, hidx]
  rfl

/-- Past its delay the operation writes the register and returns OK. -/
theorem runTurn_port_ends (hidx : f.idx = 3) (howned : AllOwned s) (hlock : s.lock = .held s.agent) (n : Nat) :
    runTurn (n + 55) (s.setOp (some f)) =
      .next (returnResult (.ok .nothing) { wroteState (mergeField m f.p f.nb) s with lock := .free }) := by
  rw [runTurn_port_merged hseq hm hidx (n + 54)]
  exact runTurn_write_unlock (fun _ => mergedFlight_shift hseq m s.turn.wpos) (by rw [← seqPort_end, ← hseq]; rfl) howned hlock n

end

/-- The time that passes at the settling delay of a port write, in a turn that lets enough pass (R97, R98). -/
def delayTime (cur nb : BitVec 2) (elapse : Nat) : Nat := if needDelay cur nb then elapse else 0

theorem delayTime_charged {cur nb : BitVec 2} (h : needDelay cur nb = true) (elapse : Nat) : delayTime cur nb elapse = elapse := if_pos h

theorem delayTime_not_charged {cur nb : BitVec 2} (h : needDelay cur nb = false) (elapse : Nat) : delayTime cur nb elapse = 0 :=
  if_neg (ne_true_of_eq_false h)

section
variable {s : State} {f : InFlight} {m : U16} (hseq : sequenceOf f.instr = seqSetport) (hidx : f.idx = 0) (hfree : s.lock = .free)
  (hm : s.mirror = some m)
include hseq hidx hfree

theorem runTurn_port_locked (n : Nat) : runTurn (n + 1) (s.setOp (some f)) =
    runTurn n (({ s with lock := .held s.agent } : State).setOp (some { f with idx := 1 })) := by
  rw [runTurn_lock (by rw [hseq, hidx]; rfl) hfree, hidx]

include hm

/-- Where the delay is charged, the lock is taken and the wait begins (R97, R98). -/
theorem runTurn_port_delayed (hdelay : needDelay (field m f.p) f.nb = true) (n : Nat) : runTurn (n + 2) (s.setOp (some f)) =
    runTurn n (({ s with lock := .held s.agent } : State).setOp (some { f with t0 := s.now, idx := 2 })) := by
  rw [runTurn_port_locked hseq hidx hfree (n + 1)]
  exact runTurn_readField_delayed (s := { s with lock := .held s.agent }) (f := { f with idx := 1 }) (by rw [hseq]; rfl) hm hdelay n

theorem runTurn_port_completes (howned : AllOwned s) (hlong : needDelay (field m f.p) f.nb = true → 300 ≤ s.turn.elapse) (n : Nat) :
    runTurn (n + 58) (s.setOp (some f)) = .next (returnResult (.ok .nothing)
      (wroteState (mergeField m f.p f.nb) (tick (delayTime (field m f.p) f.nb s.turn.elapse) s))) := by
  cases hdelay : needDelay (field m f.p) f.nb with
  | true =>
    rw [runTurn_port_delayed hseq hidx hfree hm hdelay (n + 56), delayTime_charged hdelay]
    refine (runTurn_settled (s := { s with lock := .held s.agent }) (f := { f with t0 := s.now, idx := 2 }) (by rw [hseq]; rfl)
      (Nat.add_le_add_left (hlong hdelay) _) (n + 55)).trans ?_
    refine (runTurn_port_ends (s := tick s.turn.elapse { s with lock := .held s.agent }) (f := { f with t0 := s.now, idx := 3 })
      hseq hm rfl howned rfl n).trans ?_
    exact congrArg _ (congrArg _ (wroteState_lock (s := tick s.turn.elapse s) hfree _ _))
  | false =>
    rw [runTurn_port_locked hseq hidx hfree (n + 57), delayTime_not_charged hdelay]
    refine (runTurn_readField_undelayed (s := { s with lock := .held s.agent }) (f := { f with idx := 1 }) (by rw [hseq]; rfl)
      hm hdelay (n + 56)).trans ?_
    refine (runTurn_port_ends (s := { s with lock := .held s.agent }) (f := { f with idx := 3 })
      hseq hm rfl howned rfl (n + 1)).trans ?_
    exact congrArg _ (congrArg _ (wroteState_lock (s := s) hfree _ _))

end

theorem exec_setport_run {s : State} (hidle : MayIssue s) (hopen : Open s) {p : BitVec 4} (hp : p.toNat < 8) {nb : BitVec 2}
    (hnb : nb ≠ 0b11#2) : exec (.setport p nb) s = runTurn s.turn.budget (s.setOp (some (inFlightOf (.setport p nb)))) :=
  operate_run hidle (admission_of_open hopen (setport_wellFormed.mpr hnb) rfl) (checkPort_passes hp s)

/-- An unhindered SETPORT writes the mirror with its field replaced, after the delay where it is charged (R100). -/
theorem Unhindered.exec_setport {s : State} (h : Unhindered s) {m : U16} (hm : s.mirror = some m) {p : BitVec 4} (hp : p.toNat < 8)
    {nb : BitVec 2} (hnb : nb ≠ 0b11#2) (hlong : nb ≠ 0b00#2 → field m ⟨p.toNat, hp⟩ ≠ nb → 300 ≤ s.turn.elapse) :
    exec (.setport p nb) s = .next (returnResult (.ok .nothing) (wroteState (mergeField m ⟨p.toNat, hp⟩ nb)
      (tick (delayTime (field m ⟨p.toNat, hp⟩) nb s.turn.elapse) s))) := by
  obtain ⟨hidle, hopen, hfree, howned, hbudget⟩ := h
  obtain ⟨n, hn⟩ : ∃ n, s.turn.budget = n + 58 := ⟨s.turn.budget - 58, by omega⟩
  rw [exec_setport_run hidle hopen hp hnb, hn, ← portOf_eq hp]
  refine runTurn_port_completes (f := inFlightOf (.setport p nb)) rfl rfl hfree hm howned (fun hdelay => ?_) n
  obtain ⟨hon, hnew⟩ := needDelay_iff.mp hdelay
  exact hlong hon (portOf_eq hp ▸ hnew)

/-- Settles O19: the two branches of the delay condition in `Unhindered.exec_setport`. -/
theorem setportCompletes : Obligations.SetportCompletes := by
  intro s m p nb h hm hp hnb
  refine ⟨fun hon hnew hlong => ?_, fun hoff => ?_⟩
  · rw [h.exec_setport hm hp hnb fun _ _ => hlong, delayTime_charged (needDelay_iff.mpr ⟨hon, hnew⟩)]
    rfl
  · rw [h.exec_setport hm hp hnb fun hon hnew => absurd hoff (not_or.mpr ⟨hon, hnew⟩),
      delayTime_not_charged (needDelay_eq_false.mpr hoff)]
    rfl

/-- Settles O31: the merged value has the code in field p, and every other field as it was. -/
theorem setportChangesOnlyItsField : Obligations.SetportChangesOnlyItsField := by
  intro s m p nb h hm hp hnb hlong
  have hsame : field (mergeField m ⟨p.toNat, hp⟩ nb) ⟨p.toNat, hp⟩ = nb := field_mergeField_same ..
  refine ⟨_, _, h.exec_setport hm hp hnb hlong, ?_, rfl, hsame, fun q hq => field_mergeField_ne m nb hq, fun q hboth => ?_⟩
  · simp [wroteState]
  · by_cases hq : q = ⟨p.toNat, hp⟩
    · subst hq
      exact absurd (hsame.symm.trans hboth) hnb
    · rwa [field_mergeField_ne m nb hq] at hboth

/-- Settles O33: two micro-steps bring SETPORT to its wait, which it does not leave while no time passes. -/
theorem delayHoldsTheLock : Obligations.DelayHoldsTheLock := by
  intro s m p nb h hm hp hnb hon hnew hstill
  obtain ⟨hidle, hopen, hfree, -, hbudget⟩ := h
  obtain ⟨n, hn⟩ : ∃ n, s.turn.budget = n + 2 := ⟨s.turn.budget - 2, by omega⟩
  have hdelay : needDelay (field m (portOf p)) nb = true := needDelay_iff.mpr ⟨hon, portOf_eq hp ▸ hnew⟩
  have hwait := runTurn_waiting_still (s := { s with lock := .held s.agent })
    (f := { inFlightOf (.setport p nb) with t0 := s.now, idx := 2 }) rfl (Nat.lt_add_of_pos_right (by decide)) hstill
  have hexec := exec_setport_run hidle hopen hp hnb
  rw [hn, runTurn_port_delayed (f := inFlightOf (.setport p nb)) rfl rfl hfree hm hdelay, hwait] at hexec
  exact ⟨_, _, hexec, op_setOp _ _, rfl, rfl, rfl, rfl, rfl, rfl, rfl, rfl, rfl, hwait⟩

end Sys2Proof.Machine
end

section
/-! ### A port read after it is set (41_port_controller.md R101; 44_control_surface.md R110; 10_state.md R33) -/

namespace Sys2Proof.Machine

theorem enc_ne_both (c : VoltageClass) : enc c ≠ 0b11#2 := by cases c <;> decide

/-- The two bits of a class's code are its 48V and its 24V enable (R33, R93). -/
theorem enc_getLsbD (c : VoltageClass) :
    (enc c).getLsbD 0 = decide (c = .v48) ∧ (enc c).getLsbD 1 = decide (c = .v24) := by cases c <;> decide

/-- READPORT of a field that encodes a class returns it (R110). -/
theorem exec_readport_enc {s : State} (hidle : MayIssue s) (hopen : Open s) (hbudget : 1 ≤ s.turn.budget) {m : U16}
    (hm : s.mirror = some m) {p : BitVec 4} (hp : p.toNat < 8) {c : VoltageClass} (hc : field m ⟨p.toNat, hp⟩ = enc c) :
    exec (.readport p) s = .next (returnResult (.ok (.port c)) s) := by
  obtain ⟨n, hn⟩ : ∃ n, s.turn.budget = n + 1 := ⟨s.turn.budget - 1, by omega⟩
  have hreply : runMicro (inFlightOf (.readport p)) .replyPort (s.setOp (some (inFlightOf (.readport p)))) =
      .next (returnResult (.ok (.port c)) s) := by
    have hvolt : voltageOf (dec (field m (inFlightOf (.readport p)).p)) = some c := by
      rw [show (inFlightOf (.readport p)).p = _ from portOf_eq hp, hc, voltageOf_dec_enc]
    simp only [runMicro, microReplyPort, setOp_mirror, hm, hvolt, returnResult_setOp]
  have hrun : exec (.readport p) s = runTurn s.turn.budget (s.setOp (some (inFlightOf (.readport p)))) :=
    operate_run hidle (admission_of_open hopen rfl rfl) (checkPort_passes hp s)
  rw [hrun, hn, runTurn_micro rfl hreply]
  exact runTurn_idle (by simp) n

/-- The outputs of a port are the two bits of its field in the latch, once OE drives (R32, R33). -/
theorem out_of_field {s : State} (hoe : s.level.oe = .driven true) (p : Port) (d : Bool) :
    s.out (output48 p) d = .driving ((field s.latch p).getLsbD 0) ∧ s.out (output24 p) d = .driving ((field s.latch p).getLsbD 1) := by
  rw [(outputsFollowLatchAndOe s _).1 hoe, (outputsFollowLatchAndOe s _).1 hoe, field_getLsbD _ _ Nat.two_pos,
    field_getLsbD _ _ Nat.one_lt_two]
  exact ⟨rfl, rfl⟩

theorem Unhindered.afterTick {s : State} (h : Unhindered s) (k : Nat) : Unhindered (tick k s) :=
  ⟨h.idle, h.opened, h.lock, h.owned, h.budget⟩

/-- Settles O32: SETPORT leaves the class's code in field p of the mirror, which READPORT decodes, and of the latch, which the
outputs follow. -/
theorem setportThenReadport : Obligations.SetportThenReadport := by
  intro s m p c h hm hp hlong
  obtain ⟨hidle, hopen, -, -, hbudget⟩ := (h.afterTick (delayTime (field m ⟨p.toNat, hp⟩) (enc c) s.turn.elapse)).afterWrite
    (mergeField m ⟨p.toNat, hp⟩ (enc c)) (.ok .nothing)
  have hfield := field_mergeField_same m ⟨p.toNat, hp⟩ (enc c)
  refine ⟨_, h.exec_setport hm hp (enc_ne_both c) hlong, exec_readport_enc hidle hopen (by omega) rfl hp hfield, fun hoe d => ?_⟩
  obtain ⟨h48, h24⟩ := out_of_field hoe ⟨p.toNat, hp⟩ d
  obtain ⟨hlow, hhigh⟩ := enc_getLsbD c
  rw [h48, h24, ← hlow, ← hhigh]
  exact ⟨congrArg (fun x => OutLevel.driving (x.getLsbD 0)) hfield, congrArg (fun x => OutLevel.driving (x.getLsbD 1)) hfield⟩

end Sys2Proof.Machine
end

section
/-! ### When line events come: never before their micro-step's time, and after a settling delay (41_port_controller.md R98, R103) -/

namespace Sys2Proof.Machine

/-- The trace of t is that of s with newer entries, none of them before the time n (R70). -/
def LogsFrom (n : Nat) (s t : State) : Prop := ∃ new, t.trace = new ++ s.trace ∧ ∀ e ∈ new, n ≤ e.time

theorem LogsFrom.of_same {n : Nat} {s t : State} (h : t.trace = s.trace) : LogsFrom n s t :=
  ⟨[], h, nofun⟩

theorem LogsFrom.of_cons {s t : State} {a : Agent} {e : LineEvent} (h : t.trace = ⟨s.now, a, e⟩ :: s.trace) : LogsFrom s.now s t :=
  ⟨[_], h, fun _ he => List.mem_singleton.mp he ▸ le_rfl⟩

theorem LogsFrom.trans {n : Nat} {s t u : State} (h : LogsFrom n s t) (k : LogsFrom n t u) : LogsFrom n s u := by
  obtain ⟨xs, hxs, hx⟩ := h
  obtain ⟨ys, hys, hy⟩ := k
  exact ⟨ys ++ xs, by rw [hys, hxs, List.append_assoc], fun e he => (List.mem_append.mp he).elim (hy e) (hx e)⟩

theorem LogsFrom.mono {m n : Nat} {s t : State} (h : LogsFrom n s t) (hmn : m ≤ n) : LogsFrom m s t := by
  obtain ⟨new, hnew, htime⟩ := h
  exact ⟨new, hnew, fun e he => hmn.trans (htime e he)⟩

theorem releaseLine_logs (l : Line) (s : State) : LogsFrom s.now s (releaseLine l s) := by
  unfold releaseLine
  split
  · exact .of_cons rfl
  · exact .of_same rfl

/-- A micro-step adds at most one entry, with the time before it (R70). -/
theorem microStep_logs {f : InFlight} {s t : State} (h : microStep f s = .next t) : LogsFrom s.now s t := by
  obtain ⟨m, -, heffect⟩ := microStep_effect h
  cases heffect with
  | granted | denied => exact .of_cons rfl
  | shifted | oeRaised | oeDriven => exact .of_cons (lineDone_trace ..)
  | released l => exact releaseLine_logs l s
  | _ => exact .of_same rfl

theorem runTurn_logs {n : Nat} {s t : State} (h : runTurn n s = .next t) : LogsFrom s.now s t := by
  induction n generalizing s with
  | zero =>
    cases h
    exact .of_same rfl
  | succ n ih =>
    obtain ⟨-, rfl⟩ | ⟨f, u, -, hu, ht⟩ := runTurn_succ_cases h
    · exact .of_same rfl
    · exact (microStep_logs hu).trans ((ih ht).mono (microStep_frame hu).now)

/-- A turn that finds its operation in a settling delay adds no entry before the delay is over (R98, R103). -/
theorem runTurn_logs_of_waiting {n : Nat} {s t : State} {f : InFlight} (hf : (s.seq s.agent).op = some f)
    (hwait : (sequenceOf f.instr)[f.idx]? = some .waitSettled) (h : runTurn n s = .next t) : LogsFrom (f.t0 + 300) s t := by
  induction n generalizing s with
  | zero =>
    cases h
    exact .of_same rfl
  | succ n ih =>
    obtain ⟨-, rfl⟩ | ⟨g, u, hg, hu, ht⟩ := runTurn_succ_cases h
    · exact .of_same rfl
    · cases hf.symm.trans hg
      rw [microStep_eq hwait] at hu
      cases runMicro_effect hu with
      | settled hlate => exact LogsFrom.trans (.of_same rfl) ((runTurn_logs ht).mono hlate)
      | waiting => exact LogsFrom.trans (.of_same rfl) (ih (s := tick s.turn.elapse s) hf ht)

end Sys2Proof.Machine
end

section
/-! ### SETPORT in a turn of any length (41_port_controller.md R98, R100, R103) -/

namespace Sys2Proof.Machine

section
variable {s : State} {f : InFlight} {m : U16} (hseq : sequenceOf f.instr = seqSetport) (hm : s.mirror = some m)
  (howned : AllOwned s) (hlock : s.lock = .held s.agent)
include hseq hm howned hlock

/-- Past its delay the operation goes on, and keeps its t0 for as long as it is in flight. -/
theorem runTurn_port_settled (hidx : f.idx = 3) (n : Nat) :
    ∃ t, runTurn n (s.setOp (some f)) = .next t ∧ ∀ g, (t.seq s.agent).op = some g → g.t0 = f.t0 := by
  match n with
  | 0 =>
    refine ⟨_, rfl, fun g hg => ?_⟩
    cases (op_setOp s _).symm.trans hg
    rfl
  | k + 1 =>
    by_cases hk : k ≤ 53
    · refine ⟨_, (runTurn_port_merged hseq hm hidx k).trans
        (runTurn_reaches_writeAt (fun _ => mergedFlight_shift hseq m s.turn.wpos) howned hk), fun g hg => ?_⟩
      simp only [writeAt, seq_eq, agent_eq, seqs_get_set_same, Option.some.injEq] at hg
      rw [← hg]
      rfl
    · obtain ⟨j, rfl⟩ : ∃ j, k = j + 54 := ⟨k - 54, by omega⟩
      refine ⟨_, runTurn_port_ends hseq hm hidx howned hlock j, fun g hg => ?_⟩
      simp [wroteState] at hg

/-- From its delay on, the operation goes on and keeps its t0, and 300 ms have passed once it is past the delay. -/
theorem runTurn_port_waiting (hidx : f.idx = 2) (n : Nat) :
    ∃ t, runTurn n (s.setOp (some f)) = .next t ∧
      ∀ g, (t.seq s.agent).op = some g → g.t0 = f.t0 ∧ (3 ≤ g.idx → f.t0 + 300 ≤ t.now) := by
  have hwait : (sequenceOf f.instr)[f.idx]? = some .waitSettled := by rw [hseq, hidx]; rfl
  induction n generalizing s with
  | zero =>
    refine ⟨_, rfl, fun g hg => ?_⟩
    cases (op_setOp s _).symm.trans hg
    exact ⟨rfl, by omega⟩
  | succ n ih =>
    by_cases hlate : f.t0 + 300 ≤ s.now + s.turn.elapse
    · obtain ⟨t, ht, hop⟩ := runTurn_port_settled (s := tick s.turn.elapse s) (f := { f with idx := f.idx + 1 }) hseq hm howned hlock
        (congrArg (· + 1) hidx) n
      exact ⟨t, (runTurn_settled hwait hlate n).trans ht, fun g hg => ⟨hop g hg, fun _ => hlate.trans (runTurn_frame ht).now⟩⟩
    · obtain ⟨t, ht, hop⟩ := ih (s := tick s.turn.elapse s) hm howned hlock
      exact ⟨t, (runTurn_waiting hwait (not_le.mp hlate) n).trans ht, hop⟩

end

section
variable {s : State} {f : InFlight} {m : U16} (hseq : sequenceOf f.instr = seqSetport) (hidx : f.idx = 0) (hfree : s.lock = .free)
  (hm : s.mirror = some m) (howned : AllOwned s) (hdelay : needDelay (field m f.p) f.nb = true)
include hseq hidx hfree hm howned hdelay

/-- A port write that charges the delay: its line events come 300 ms after now, and in flight it has now as its t0 from its delay
on (R98, R103). -/
theorem runTurn_port_energizes_later (n : Nat) : ∃ t, runTurn n (s.setOp (some f)) = .next t ∧ LogsFrom (s.now + 300) s t ∧
    ∀ g, (t.seq s.agent).op = some g → (2 ≤ g.idx → g.t0 = s.now) ∧ (3 ≤ g.idx → s.now + 300 ≤ t.now) := by
  match n with
  | 0 =>
    refine ⟨_, rfl, .of_same rfl, fun g hg => ?_⟩
    cases (op_setOp s _).symm.trans hg
    exact ⟨by omega, by omega⟩
  | 1 =>
    refine ⟨_, runTurn_port_locked hseq hidx hfree 0, .of_same rfl, fun g hg => ?_⟩
    cases (op_setOp { s with lock := .held s.agent } _).symm.trans hg
    exact ⟨nofun, nofun⟩
  | k + 2 =>
    obtain ⟨t, ht, hop⟩ := runTurn_port_waiting (s := { s with lock := .held s.agent }) (f := { f with t0 := s.now, idx := 2 })
      hseq hm howned rfl rfl k
    have hlogs := runTurn_logs_of_waiting (op_setOp _ _) (by rw [hseq]; rfl) ht
    refine ⟨t, (runTurn_port_delayed hseq hidx hfree hm hdelay k).trans ht, hlogs, fun g hg => ?_⟩
    obtain ⟨ht0, hpast⟩ := hop g hg
    exact ⟨fun _ => ht0, hpast⟩

end

/-- The STORE rising edge is event 50 of a WRITE sequence (R79). -/
theorem store_rise_mem_writeTrace (v : U16) (s : State) : ⟨s.now, s.agent, .set .store true⟩ ∈ writeTrace v s :=
  List.mem_reverse.mpr (List.mem_map.mpr ⟨50, List.mem_range.mpr (by decide), rfl⟩)

/-- Settles O35: the first part is `runTurn_port_energizes_later`, with the edge in the WRITE sequence of a SETPORT that completes;
the second is `runTurn_logs_of_waiting`. -/
theorem energizingEdgeComesLater : Obligations.EnergizingEdgeComesLater := by
  refine ⟨?issued, fun s t f n hf hwait ht => runTurn_logs_of_waiting hf hwait ht⟩
  case issued =>
    intro s m p nb hidle hopen hfree howned hm hp hnb hon hnew
    have hdelay : needDelay (field m (portOf p)) nb = true := needDelay_iff.mpr ⟨hon, portOf_eq hp ▸ hnew⟩
    obtain ⟨t, ht, ⟨new, htrace, htime⟩, hop⟩ :=
      runTurn_port_energizes_later (f := inFlightOf (.setport p nb)) rfl rfl hfree hm howned hdelay s.turn.budget
    have hexec := (exec_setport_run hidle hopen hp hnb).trans ht
    refine ⟨t, new, hexec, htrace, htime, hop, fun hbudget hlong => ?_⟩
    have hdone := Unhindered.exec_setport ⟨hidle, hopen, hfree, howned, hbudget⟩ hm hp hnb fun _ _ => hlong
    cases hexec.symm.trans hdone
    rw [← List.append_cancel_right htrace]
    exact ⟨_, store_rise_mem_writeTrace _ _, rfl⟩

end Sys2Proof.Machine
end

section
/-! ### SETOE on its own, whoever holds the lock (42_output_enable.md R104) -/

namespace Sys2Proof.Machine

/-- OE clocks neither register: of a line event, only the level and the trace remain. -/
theorem lineDone_oe (on : Bool) (s : State) :
    lineDone .oe on s = { s with
      level := { s.level with oe := .driven on }
      trace := ⟨s.now, s.agent, .set .oe on⟩ :: s.trace } := by
  simp [lineDone_eq, PerLine.set]

/-- Settles O24: SETOE's one micro-step is OE's line event (`exec_setoe_next`), which writes what `lineDone_oe` says. -/
theorem setoeCompletes : Obligations.SetoeCompletes := by
  intro s on hidle hopen howned hbudget
  rw [exec_setoe_next hidle hopen howned hbudget, lineDone_oe]

end Sys2Proof.Machine
end

section
/-! ### SETRAW, and its value read back and written as text (43_raw_override.md R106, R107; 44_control_surface.md R108, R109) -/

namespace Sys2Proof.Machine

/-- SETRAW has WRITE's sequence and is open to every agent (R106, R128). -/
theorem Unhindered.exec_setraw {s : State} (h : Unhindered s) (v : U16) :
    exec (.setraw v) s = .next (returnResult (.ok .nothing) (wroteState v s)) :=
  h.operate_raw rfl (fun hhost => absurd hhost Bool.false_ne_true) (seqSetraw_eq v)

/-- Settles O18: SETRAW is the unhindered run of WRITE's sequence, whose end state keeps the time. -/
theorem setrawCompletes : Obligations.SetrawCompletes := fun _ v h => h.exec_setraw v

/-- An operation whose first micro-step returns its result is no more than that return, once admitted. -/
theorem operate_returns {i : Instr} {life : State → Option FaultCode} {atOnce : State → Option OpResult} {s : State} {m : Micro}
    {r : OpResult} (hidle : MayIssue s) (hbudget : 1 ≤ s.turn.budget) (hadm : admission i life s = none) (hcheck : atOnce s = none)
    (hfirst : (sequenceOf i)[0]? = some m)
    (hreply : runMicro (inFlightOf i) m (s.setOp (some (inFlightOf i))) = .next (returnResult r s)) :
    operate i life atOnce s = .next (returnResult r s) := by
  obtain ⟨n, hn⟩ : ∃ n, s.turn.budget = n + 1 := ⟨s.turn.budget - 1, by omega⟩
  have hmicro : (sequenceOf (inFlightOf i).instr)[(inFlightOf i).idx]? = some m := by rwa [inFlightOf_instr, inFlightOf_idx]
  rw [operate_run hidle hadm hcheck, hn, runTurn_micro hmicro hreply]
  exact runTurn_idle (by simp) n

/-- READRAW returns the mirror (R108). -/
theorem exec_readraw_mirror {s : State} (hidle : MayIssue s) (hopen : Open s) (hbudget : 1 ≤ s.turn.budget) {m : U16}
    (hm : s.mirror = some m) : exec .readraw s = .next (returnResult (.ok (.raw m)) s) := by
  rw [exec_readraw]
  refine operate_returns hidle hbudget (admission_of_open hopen rfl rfl) rfl rfl ?_
  simp only [runMicro, microReplyRaw, setOp_mirror, hm, returnResult_setOp]

/-- The law R109 asks of the open text forms: a lawful pair has it as tested at every value, and the pair that stands in for an
unlawful one writes a value as a text of that length. -/
theorem rawParse_rawFormat (v : U16) : Config.rawParse (Config.rawFormat v) = some v.toNat := by
  unfold Config.rawParse Config.rawFormat
  split
  case isTrue hlaw =>
    have hat : Config.rawLawAt v.toNat = true := List.all_eq_true.mp hlaw v.toNat (List.mem_range.mpr v.isLt)
    rw [Config.rawLawAt, BitVec.ofNat_toNat, BitVec.setWidth_eq] at hat
    exact beq_iff_eq.mp hat
  case isFalse => rw [List.length_replicate]

/-- RAW text that parses to a 16-bit value issues SETRAW of it, whatever the policy for wider values (R109). -/
theorem writeRaw_issues {t : Text} {v : U16} (h : Config.rawParse t = some v.toNat) :
    (Request.writeRaw t).issues = some (.setraw v) := by
  have hfits : ¬ 0xFFFF < v.toNat := by omega
  unfold Request.issues
  simp only [h, hfits, false_and, if_false, BitVec.ofNat_toNat, BitVec.setWidth_eq]

/-- Settles O50: SETRAW leaves its value in the mirror, which READRAW returns, and its text issues the same SETRAW. -/
theorem rawRoundTrip : Obligations.RawRoundTrip := by
  intro s v h
  obtain ⟨hidle, hopen, -, -, hbudget⟩ := h.afterWrite v (.ok .nothing)
  have hset := h.exec_setraw v
  have htext := serve_of_issues s (writeRaw_issues (rawParse_rawFormat v))
  exact ⟨_, hset, exec_readraw_mirror hidle hopen (by omega) rfl, htext.trans hset⟩

end Sys2Proof.Machine
end

section
/-! ### Requested voltages and the open text forms (44_control_surface.md R109, R112, R115) -/

namespace Sys2Proof.Machine

theorem normVolt_other {n : Int} (h24 : n ≠ 24) (h48 : n ≠ 48) : normVolt n = .off := by
  rw [normVolt, if_neg h24, if_neg h48]

/-- An integer that the operand V does not hold asks for Off, as its stand-in 0 does (R112). -/
theorem normVolt_outside {n : Int} (h : ¬ (0 ≤ n ∧ n ≤ 65535)) : normVolt n = .off :=
  normVolt_other (by omega) (by omega)

/-- An integer that the operand V holds is kept by it. -/
theorem toNat_ofNat_of_holds {n : Int} (h : 0 ≤ n ∧ n ≤ 65535) : ((BitVec.ofNat 16 n.toNat).toNat : Int) = n := by
  rw [BitVec.toNat_ofNat]; omega

/-- The operand that a voltage text becomes asks for the class of the text's integer, and for Off where it has none (R112). -/
theorem normVolt_voltOperand (t : Text) : normVolt (voltOperand t).toNat = (Config.voltParse t).elim .off normVolt := by
  unfold voltOperand
  cases Config.voltParse t with
  | none => rfl
  | some n =>
    by_cases h : 0 ≤ n ∧ n ≤ 65535
    · simp only [if_pos h, toNat_ofNat_of_holds h, Option.elim_some]
    · simp only [if_neg h, Option.elim_some, normVolt_outside h]
      rfl

/-- Settles O47: the three texts are evaluated, and every text is `normVolt_voltOperand`. -/
theorem voltageTextIsForgiving : Obligations.VoltageTextIsForgiving := by
  refine ⟨rfl, rfl, fun _ => normVolt_other, rfl, rfl, rfl, fun t => ?_⟩
  rw [normVolt_voltOperand]
  cases Config.voltParse t <;> rfl

/-- The law R115 asks of the open text forms: a lawful pair has it as tested at both values, and the pair that stands in for an
unlawful one has it as well. -/
theorem oeParse_oeFormat (b : Bool) : Config.oeParse (Config.oeFormat b) = some b := by
  unfold Config.oeParse Config.oeFormat
  split
  case isTrue hlaw => exact beq_iff_eq.mp (List.all_eq_true.mp hlaw b (by cases b <;> simp))
  case isFalse => cases b <;> rfl

/-- Settles O48: the two laws, each at every value. -/
theorem textFormsRoundTrip : Obligations.TextFormsRoundTrip := ⟨rawParse_rawFormat, oeParse_oeFormat⟩

end Sys2Proof.Machine
end

section
/-! ### The four reads, as operations and as text (44_control_surface.md R108 to R111, R114 to R116) -/

namespace Sys2Proof.Machine

/-- An operation that its first micro-step ends, in whatever way, is no more than that micro-step, once admitted. -/
theorem operate_ends {i : Instr} {life : State → Option FaultCode} {atOnce : State → Option OpResult} {s t : State} {m : Micro}
    (hidle : MayIssue s) (hbudget : 1 ≤ s.turn.budget) (hadm : admission i life s = none) (hcheck : atOnce s = none)
    (hfirst : (sequenceOf i)[0]? = some m) (hmicro : runMicro (inFlightOf i) m (s.setOp (some (inFlightOf i))) = .next t)
    (hend : (t.seq t.agent).op = none) : operate i life atOnce s = .next t := by
  obtain ⟨n, hn⟩ : ∃ n, s.turn.budget = n + 1 := ⟨s.turn.budget - 1, by omega⟩
  have hm : (sequenceOf (inFlightOf i).instr)[(inFlightOf i).idx]? = some m := by rwa [inFlightOf_instr, inFlightOf_idx]
  rw [operate_run hidle hadm hcheck, hn, runTurn_micro hm hmicro, runTurn_idle hend]

section
variable {s : State} (hidle : MayIssue s) (hopen : Open s) (hbudget : 1 ≤ s.turn.budget)
include hidle hopen hbudget

theorem exec_readoe_oeState : exec .readoe s = .next (returnResult (.ok (.oe s.oeState)) s) := by
  rw [exec_readoe]
  refine operate_returns hidle hbudget (admission_of_open hopen rfl rfl) rfl rfl ?_
  simp only [runMicro, microReplyOe, setOp_oeState, returnResult_setOp]

theorem exec_readid_idString : exec .readid s = .next (returnResult (.ok (.id Config.idString)) s) := by
  rw [exec_readid]
  refine operate_returns hidle hbudget (admission_of_open hopen rfl rfl) rfl rfl ?_
  simp only [runMicro, microReplyId, returnResult_setOp]

/-- READPORT of a field with both bits set raises its fault (R110). -/
theorem exec_readport_both {m : U16} (hm : s.mirror = some m) {p : BitVec 4} (hp : p.toNat < 8)
    (hboth : field m ⟨p.toNat, hp⟩ = 0b11#2) :
    exec (.readport p) s = .next (raiseFault .undefinedPortState (encode (.readport p)) s) := by
  rw [exec_readport]
  refine operate_ends hidle hbudget (admission_of_open hopen rfl rfl) (checkPort_passes hp s) rfl ?_ (by simp)
  have hvolt : voltageOf (dec (field m (inFlightOf (.readport p)).p)) = none := by
    rw [show (inFlightOf (.readport p)).p = _ from portOf_eq hp, hboth]; rfl
  simp only [runMicro, microReplyPort, setOp_mirror, hm, hvolt, raiseFault_setOp, inFlightOf_instr]

end

/-- Settles O25: one lemma for each read. -/
theorem readsComplete : Obligations.ReadsComplete := fun _ _ hidle hopen hm hbudget =>
  ⟨exec_readraw_mirror hidle hopen hbudget hm, fun _ hp _ hc => exec_readport_enc hidle hopen hbudget hm hp hc,
    exec_readoe_oeState hidle hopen hbudget, exec_readid_idString hidle hopen hbudget⟩

/-- Settles O26: the field decodes to no class, and the fault is READPORT's one micro-step. -/
theorem readportOfBothFaults : Obligations.ReadportOfBothFaults := fun _ _ _ hidle hopen hm hp hbudget hboth =>
  exec_readport_both hidle hopen hbudget hm hp hboth

/-- A port endpoint's operations carry its number in their field A (R39, R64). -/
theorem portNumber_toNat (p : Port) : (BitVec.ofNat 4 p.val).toNat = p.val := by
  rw [BitVec.toNat_ofNat]; omega

theorem portNumber_lt (p : Port) : (BitVec.ofNat 4 p.val).toNat < 8 := by rw [portNumber_toNat]; exact p.isLt

theorem port_of_portNumber (p : Port) : (⟨(BitVec.ofNat 4 p.val).toNat, portNumber_lt p⟩ : Port) = p :=
  Fin.ext (portNumber_toNat p)

/-- Every field but 0b11 is the code of a class (R93, R95). -/
theorem exists_enc_eq {x : BitVec 2} (h : x ≠ 0b11#2) : ∃ c, x = enc c := by
  have hx := x.isLt
  have hne : x.toNat ≠ 3 := BitVec.toNat_ne.mp h
  obtain h0 | h1 | h2 : x.toNat = 0 ∨ x.toNat = 1 ∨ x.toNat = 2 := by omega
  · exact ⟨.off, BitVec.eq_of_toNat_eq h0⟩
  · exact ⟨.v48, BitVec.eq_of_toNat_eq h1⟩
  · exact ⟨.v24, BitVec.eq_of_toNat_eq h2⟩

/-- The text of a class by its code (R93, R111). -/
theorem voltText_of_enc (c : VoltageClass) : (enc c = 0b00#2 → voltText c = ['O', 'f', 'f']) ∧
    (enc c = 0b10#2 → voltText c = ['2', '4', 'V']) ∧ (enc c = 0b01#2 → voltText c = ['4', '8', 'V']) := by cases c <;> decide

/-- Settles O59: each endpoint's read is one of the four, and the text of its reply is the law or the table of that endpoint. -/
theorem textReadsComplete : Obligations.TextReadsComplete := by
  intro s m hidle hopen hm hbudget
  refine ⟨?raw, ?oe, ?id, fun p hclass => ?port, fun p hboth => ?both⟩
  case raw => exact ⟨_, exec_readraw_mirror hidle hopen hbudget hm, rawParse_rawFormat m⟩
  case oe => exact ⟨_, exec_readoe_oeState hidle hopen hbudget, oeParse_oeFormat s.oeState⟩
  case id => exact ⟨_, exec_readid_idString hidle hopen hbudget, rfl⟩
  case port =>
    obtain ⟨c, hc⟩ := exists_enc_eq hclass
    rw [hc]
    exact ⟨_, exec_readport_enc hidle hopen hbudget hm (portNumber_lt p) (by rw [port_of_portNumber, hc]), voltText_of_enc c⟩
  case both => exact exec_readport_both hidle hopen hbudget hm (portNumber_lt p) (by rw [port_of_portNumber, hboth])

end Sys2Proof.Machine
end

section
/-! ### CSSETPORT is SETPORT of the normalized voltage (44_control_surface.md R112, R113) -/

namespace Sys2Proof.Machine

theorem exec_cssetport_run {s : State} (hidle : MayIssue s) (hopen : Open s) {p : BitVec 4} (hp : p.toNat < 8) (n : U16) :
    exec (.cssetport p n) s = runTurn s.turn.budget (s.setOp (some (inFlightOf (.cssetport p n)))) :=
  operate_run hidle (admission_of_open hopen rfl rfl) (checkPort_passes hp s)

/-- Unhindered, and with a turn that outlasts a delay that is charged, CSSETPORT ends as SETPORT of its class's code does (R113). -/
theorem Unhindered.exec_cssetport_eq_setport {s : State} (h : Unhindered s) {m : U16} (hm : s.mirror = some m) {p : BitVec 4}
    (hp : p.toNat < 8) {n : U16} {nb : BitVec 2} (hnb : enc (normVolt n.toNat) = nb)
    (hlong : nb ≠ 0b00#2 → field m ⟨p.toNat, hp⟩ ≠ nb → 300 ≤ s.turn.elapse) : exec (.cssetport p n) s = exec (.setport p nb) s := by
  subst hnb
  rw [h.exec_setport hm hp (enc_ne_both _) hlong]
  obtain ⟨hidle, hopen, hfree, howned, hbudget⟩ := h
  obtain ⟨k, hk⟩ : ∃ k, s.turn.budget = k + 58 := ⟨s.turn.budget - 58, by omega⟩
  rw [exec_cssetport_run hidle hopen hp n, hk, ← portOf_eq hp]
  refine runTurn_port_completes (f := inFlightOf (.cssetport p n)) seqCssetport_eq rfl hfree hm howned (fun hdelay => ?_) k
  obtain ⟨hon, hnew⟩ := needDelay_iff.mp hdelay
  exact hlong hon (portOf_eq hp ▸ hnew)

/-- Both branches of the delay condition, for the port q that the field A names. -/
theorem Unhindered.cssetport_completes {s : State} (h : Unhindered s) {m : U16} (hm : s.mirror = some m) {p : BitVec 4} {q : Port}
    (hq : p.toNat = q.val) {n : U16} {nb : BitVec 2} (hnb : enc (normVolt n.toNat) = nb) :
    (nb ≠ 0b00#2 → field m q ≠ nb → 300 ≤ s.turn.elapse → exec (.cssetport p n) s =
      .next (returnResult (.ok .nothing) (wroteState (mergeField m q nb) { s with now := s.now + s.turn.elapse }))) ∧
    (nb = 0b00#2 ∨ field m q = nb → exec (.cssetport p n) s =
      .next (returnResult (.ok .nothing) (wroteState (mergeField m q nb) s))) := by
  obtain ⟨q, hp⟩ := q
  subst hq
  obtain ⟨hcharged, huncharged⟩ := setportCompletes s m p nb h hm hp (hnb ▸ enc_ne_both _)
  refine ⟨fun hon hnew hlong => ?_, fun hoff => ?_⟩
  · exact (h.exec_cssetport_eq_setport hm hp hnb fun _ _ => hlong).trans (hcharged hon hnew hlong)
  · exact (h.exec_cssetport_eq_setport hm hp hnb fun hon hnew => absurd hoff (not_or.mpr ⟨hon, hnew⟩)).trans (huncharged hoff)

/-- Settles O20: the code is that of the normalized voltage, and the rest is SETPORT's completion. -/
theorem cssetportCompletes : Obligations.CssetportCompletes := by
  intro s m p n h hm hp
  refine ⟨enc (normVolt n.toNat), ?h24, ?h48, fun h24 h48 => ?other, h.cssetport_completes hm (q := ⟨p.toNat, hp⟩) rfl rfl⟩
  case h24 => rintro rfl; rfl
  case h48 => rintro rfl; rfl
  case other =>
    have h24' := BitVec.toNat_ne.mp h24
    have h48' := BitVec.toNat_ne.mp h48
    rw [normVolt_other (by exact_mod_cast h24') (by exact_mod_cast h48')]
    rfl

end Sys2Proof.Machine
end

section
/-! ### Text writes (44_control_surface.md R109, R112, R115; 60_exceptions.md R118) -/

namespace Sys2Proof.Machine

theorem serve_writeRaw_malformed {t : Text} (h : Config.rawParse t = none) (s : State) :
    serve (.writeRaw t) s = .next (returnResult .invalidArgument s) := by
  change serveWriteRaw t s = _
  unfold serveWriteRaw
  simp only [h]

theorem serve_writeRaw_tooWide {t : Text} {n : Nat} (h : Config.rawParse t = some n)
    (hwide : 0xFFFF < n ∧ Config.rawWideReject = true) (s : State) :
    serve (.writeRaw t) s = .next (returnResult .invalidArgument s) := by
  change serveWriteRaw t s = _
  unfold serveWriteRaw
  simp only [h, if_pos hwide]

theorem serve_writeRaw_accepted {t : Text} {n : Nat} (h : Config.rawParse t = some n)
    (hfits : ¬ (0xFFFF < n ∧ Config.rawWideReject = true)) (s : State) :
    serve (.writeRaw t) s = exec (.setraw (BitVec.ofNat 16 n)) s := by
  change serveWriteRaw t s = _
  unfold serveWriteRaw
  simp only [h, if_neg hfits]

theorem serve_writeOe_malformed {t : Text} (h : Config.oeParse t = none) (s : State) :
    serve (.writeOe t) s = .next (returnResult .invalidArgument s) := by
  change serveWriteOe t s = _
  rw [serveWriteOe, h]

theorem serve_writeOe_accepted {t : Text} {b : Bool} (h : Config.oeParse t = some b) (s : State) :
    serve (.writeOe t) s = exec (.setoe b) s := by
  change serveWriteOe t s = _
  rw [serveWriteOe, h]

/-! #### What a port write can leave as its agent's result, in any state and a turn of any length -/

/-- The micro-steps of SETPORT's sequence; the one that returns a code returns OK (R100). -/
theorem mem_seqSetport {m : Micro} (h : m ∈ seqSetport) :
    m = .lockAcquire ∨ m = .readField ∨ m = .waitSettled ∨ m = .merge ∨ (∃ k, m = .shiftOut k) ∨ m = .lockRelease (.ok .nothing) := by
  simp only [seqSetport, writeSteps, List.mem_append, List.mem_cons, List.not_mem_nil, or_false, List.mem_map] at h
  obtain ((rfl | rfl | rfl | rfl) | ⟨k, -, rfl⟩) | rfl := h <;> simp

/-- An operation with SETPORT's sequence is in flight and has left its agent's result alone, or it has returned OK. -/
def PortWriteGoesOn (r : Option OpResult) (q : Sequencer) : Prop :=
  (∃ f, q.op = some f ∧ sequenceOf f.instr = seqSetport) ∧ q.result = r ∨ q.op = none ∧ q.result = some (.ok .nothing)

/-- The operation goes on wherever a micro-step changes its locals and the shared state, and its agent's result stays. -/
theorem PortWriteGoesOn.of_setOp {s u : State} {g : InFlight} (hseqs : u.seqs = s.seqs) (hturn : u.turn = s.turn)
    (hseq : sequenceOf g.instr = seqSetport) : PortWriteGoesOn (s.seq s.agent).result ((u.setOp (some g)).seq s.agent) := by
  refine .inl ⟨⟨g, ?_, hseq⟩, ?_⟩ <;> simp [hseqs, hturn]

theorem microStep_port_goesOn {f : InFlight} {s t : State} (hf : (s.seq s.agent).op = some f)
    (hseq : sequenceOf f.instr = seqSetport) (h : microStep f s = .next t) :
    PortWriteGoesOn (s.seq s.agent).result (t.seq s.agent) := by
  obtain ⟨m, hm, heffect⟩ := microStep_effect h
  rw [hseq] at hm
  obtain rfl | rfl | rfl | rfl | ⟨k, rfl⟩ | rfl := mem_seqSetport (List.mem_of_getElem? hm) <;> cases heffect
  case blocked | waiting => exact .inl ⟨⟨f, hf, hseq⟩, rfl⟩
  case locked | delayed | undelayed | settled | merged | mirrored => exact .of_setOp rfl rfl hseq
  case shifted => exact .of_setOp (lineDone_seqs ..) (lineDone_turn ..) hseq
  case unlocked => exact .inr ⟨by simp, by simp⟩

theorem runTurn_port_goesOn {n : Nat} {r : Option OpResult} {s t : State} (hs : PortWriteGoesOn r (s.seq s.agent))
    (h : runTurn n s = .next t) : PortWriteGoesOn r (t.seq s.agent) := by
  induction n generalizing s with
  | zero => cases h; exact hs
  | succ n ih =>
    obtain ⟨-, rfl⟩ | ⟨f, u, hf, hmicro, hrest⟩ := runTurn_succ_cases h
    · exact hs
    · obtain ⟨⟨g, hg, hseq⟩, hr⟩ | ⟨hnone, -⟩ := hs
      · cases hf.symm.trans hg
        have hagent : u.agent = s.agent := congrArg Turn.agent (microStep_frame hmicro).turn
        have hu : PortWriteGoesOn r (u.seq u.agent) := by
          rw [hagent, ← hr]
          exact microStep_port_goesOn hf hseq hmicro
        exact hagent ▸ ih hu hrest
      · cases hf.symm.trans hnone

/-- A CSSETPORT of a valid port leaves its agent's result alone, by a fault or for now, or returns OK (R113, R118). -/
theorem exec_cssetport_result {s u : State} {p : BitVec 4} (hp : p.toNat < 8) {n : U16} (h : exec (.cssetport p n) s = .next u) :
    (u.seq s.agent).result = (s.seq s.agent).result ∨ (u.seq s.agent).result = some (.ok .nothing) := by
  rw [exec_cssetport, operate] at h
  split at h
  case isFalse => cases h
  case isTrue =>
    cases hadm : admission (.cssetport p n) lifecycleReady s with
    | some c =>
      simp only [hadm] at h
      cases h
      exact .inl (by simp)
    | none =>
      simp only [hadm, checkPort_passes hp s] at h
      obtain ⟨-, hsame⟩ | ⟨-, hok⟩ := runTurn_port_goesOn (s := s.setOp (some (inFlightOf (.cssetport p n))))
        (.of_setOp (s := s) rfl rfl seqCssetport_eq) h
      · exact .inl hsame
      · exact .inr hok

/-! #### The text writes -/

/-- Settles O49: a RAW or OE text is rejected, or its write is SETRAW or SETOE; a port's text is CSSETPORT of its operand, which
completes by `Unhindered.cssetport_completes`, and in any state returns nothing but OK by `exec_cssetport_result`. -/
theorem textWritesComplete : Obligations.TextWritesComplete := by
  refine fun s t => ⟨fun h => ⟨?raw, ?oe, fun m p hm => ?port⟩, fun p u hu => exec_cssetport_result (portNumber_lt p) hu⟩
  case raw =>
    cases hparse : Config.rawParse t with
    | none => exact serve_writeRaw_malformed hparse s
    | some n =>
      dsimp only
      split
      · next hwide => exact serve_writeRaw_tooWide hparse hwide s
      · next hfits => rw [serve_writeRaw_accepted hparse hfits, h.exec_setraw]
  case oe =>
    cases hparse : Config.oeParse t with
    | none => exact serve_writeOe_malformed hparse s
    | some b =>
      have howned : s.owned.oe = true := congrArg PerLine.oe h.owned
      have hbudget := h.budget
      exact (serve_writeOe_accepted hparse s).trans (setoeCompletes s b h.idle h.opened howned (by omega))
  case port =>
    refine ⟨enc (normVolt (voltOperand t).toNat), ?h24, ?h48, fun h24 h48 => ?other,
      h.cssetport_completes hm (portNumber_toNat p) rfl⟩
    case h24 => intro hparse; rw [normVolt_voltOperand, hparse]; rfl
    case h48 => intro hparse; rw [normVolt_voltOperand, hparse]; rfl
    case other =>
      rw [normVolt_voltOperand]
      cases hparse : Config.voltParse t with
      | none => rfl
      | some n =>
        rw [hparse] at h24 h48
        rw [Option.elim_some, normVolt_other (fun e => h24 (congrArg some e)) (fun e => h48 (congrArg some e))]
        rfl

end Sys2Proof.Machine
end

section
/-! ### Raising a fault (60_exceptions.md R121, R125) -/

namespace Sys2Proof.Machine

theorem raiseFault_seq_same (c : FaultCode) (w : OpWord) (s : State) :
    (raiseFault c w s).seq s.agent = { s.seq s.agent with op := none, stopped := true } :=
  seqs_get_set_same s.seqs s.agent _

/-- Settles O15: the agent's own sequencer is the one written, and the others are its frame. -/
theorem faultIsPrecise : Obligations.FaultIsPrecise := by
  intro c w s
  rw [raiseFault_seq_same]
  exact ⟨rfl, rfl, rfl, rfl, rfl, (Frame.raiseFault c w s).others, rfl⟩

end Sys2Proof.Machine
end

section
/-! ### What admission turns away (60_exceptions.md R122, R123, R124, R135) -/

namespace Sys2Proof.Machine

/-- A well-formed operation that its agent may ask for raises the fault its lifecycle check names (R122, R123). -/
theorem exec_lifecycle_fault {i : Instr} {s : State} {c : FaultCode} (hidle : MayIssue s) (hwf : i.wellFormed = true)
    (hrole : hostOnly i = true → s.agent = .host) (hlife : lifecycleOf i s = some c) :
    exec i s = .next (raiseFault c (encode i) s) := by
  rw [exec_eq, operate_fault hidle ((admission_passes hwf hrole).trans hlife)]

theorem admission_role {i : Instr} {s : State} (hwf : i.wellFormed = true) (hhost : hostOnly i = true) (hagent : s.agent ≠ .host)
    (life : State → Option FaultCode) : admission i life s = some .role := by
  rw [admission, hwf, if_neg Bool.noConfusion, if_pos ⟨hhost, hagent⟩]

theorem exec_role_fault {i : Instr} {s : State} (hidle : MayIssue s) (hwf : i.wellFormed = true) (hhost : hostOnly i = true)
    (hagent : s.agent ≠ .host) : exec i s = .next (raiseFault .role (encode i) s) := by
  rw [exec_eq, operate_fault hidle (admission_role hwf hhost hagent _)]

/-- Every operation but INIT and TEARDOWN has the one check for Ready (R123). -/
theorem lifecycleOf_eq_ready {i : Instr} (hinit : i ≠ .init) (hteardown : i ≠ .teardown) : lifecycleOf i = lifecycleReady := by
  cases i with
  | init => exact absurd rfl hinit
  | teardown => exact absurd rfl hteardown
  | _ => rfl

theorem lifecycleReady_refuses {s : State} (h : ¬ Open s) : lifecycleReady s = some .notReady := if_neg h

theorem lockHeldByOther_iff {s : State} : s.lockHeldByOther = true ↔ ∃ a, s.lock = .held a ∧ a ≠ s.agent := by
  cases hlock : s.lock <;> simp [State.lockHeldByOther, hlock]

theorem lifecycleTeardown_refuses {s : State}
    (h : (∃ n f, (s.seq (.caller n)).op = some f) ∨ ∃ a, s.lock = .held a ∧ a ≠ s.agent) :
    lifecycleTeardown s = some .hostProtocol :=
  if_pos (Bool.or_eq_true_iff.mpr (h.imp callerInFlight_true.mpr lockHeldByOther_iff.mpr))

theorem lifecycleTeardown_passes {s : State} (hquiet : ∀ n, (s.seq (.caller n)).op = none)
    (hlock : ∀ a, s.lock = .held a → a = s.agent) : lifecycleTeardown s = none := by
  refine if_neg fun h => ?_
  rcases Bool.or_eq_true_iff.mp h with hcaller | hother
  · rw [callerInFlight_false.mpr hquiet] at hcaller
    cases hcaller
  · obtain ⟨a, hheld, hne⟩ := lockHeldByOther_iff.mp hother
    exact hne (hlock a hheld)

/-- Settles O12: each refusal is what the operation's lifecycle check names; TEARDOWN in Down passes its check and returns. -/
theorem lifecycleAdmission : Obligations.LifecycleAdmission := by
  intro s hidle
  refine ⟨fun hhost hready => ?initReady, fun hhost hbetween => ?initBetween, fun hhost hbusy => ?teardownBusy,
    fun hhost hquiet hlock hdown => ?teardownDown, fun i hwf hinit hteardown hrole hnot => ?notReady⟩
  case initReady => exact exec_lifecycle_fault hidle rfl (fun _ => hhost) (by rw [lifecycleOf, lifecycleInit, hready])
  case initBetween =>
    refine exec_lifecycle_fault hidle rfl (fun _ => hhost) ?_
    rcases hbetween with hlife | hlife <;> rw [lifecycleOf, lifecycleInit, hlife]
  case teardownBusy => exact exec_lifecycle_fault hidle rfl (fun _ => hhost) (lifecycleTeardown_refuses hbusy)
  case teardownDown =>
    have hadm : admission .teardown lifecycleTeardown s = none :=
      admission_eq_none.mpr ⟨rfl, fun _ => hhost, lifecycleTeardown_passes hquiet hlock⟩
    exact operate_atOnce hidle hadm (if_pos hdown)
  case notReady =>
    refine exec_lifecycle_fault hidle hwf hrole ?_
    rw [lifecycleOf_eq_ready hinit hteardown]
    exact lifecycleReady_refuses fun hopen => hnot hopen.1

/-- Settles O13: the three are the host's own and well formed, so the role check decides before the lifecycle is looked at. -/
theorem hostOperationsNeedHostRole : Obligations.HostOperationsNeedHostRole := by
  rintro s i hidle hagent (rfl | rfl | ⟨v, rfl⟩) <;> exact exec_role_fault hidle rfl rfl hagent

/-- Settles O14: beside the host's INIT or TEARDOWN the block is not open, whatever its lifecycle. -/
theorem noCallerOperationInTransition : Obligations.NoCallerOperationInTransition := by
  intro s i f hidle _ hany hwf hop hinstr
  have hnotOpen : ¬ Open s := fun hopen => by
    have hquiet : changesLife f.instr = false := hostInTransition_eq_false.mp hopen.2 f hop
    rcases hinstr with h | h <;> rw [h] at hquiet <;> cases hquiet
  refine exec_lifecycle_fault hidle hwf (fun hhost => absurd (hany.symm.trans hhost) Bool.false_ne_true) ?_
  rw [lifecycleOf_eq_ready (by rintro rfl; cases hany) (by rintro rfl; cases hany)]
  exact lifecycleReady_refuses hnotOpen

end Sys2Proof.Machine
end

section
/-! ### A run that is over (60_exceptions.md R136) -/

namespace Sys2Proof.Machine

theorem runOver_iff_agents {s : State} :
    s.runOver = true ↔ ∀ a, (s.seq a).stopped = true ∨ (s.seq a).op = none ∧ (s.seq a).program = [] :=
  runOver_iff.trans (forall_congr' fun _ => over_iff)

/-- Once a run is over a turn of any agent changes nothing but the turn. -/
theorem step_turn_of_over {s : State} {u : Turn} {ms : List Move} (hover : s.runOver = true) (hsched : s.schedule = .turn u :: ms) :
    step s = .next { s with schedule := ms, turn := u } := by
  obtain ⟨-, hstopped, hidle⟩ := turnResumesOperation s u ms hsched
  rcases runOver_iff_agents.mp hover u.agent with hstop | ⟨hop, hprog⟩
  · exact hstopped hstop
  · exact hidle hop hprog

/-- `t` is `s` but for the moves left, the turn, the time, and a register half whose line floats (R77, R129). -/
def OnlyTimeAndFloats (s t : State) : Prop :=
  ∃ ms u c l n, t = { s with schedule := ms, turn := u, chain := c, latch := l, now := n } ∧
    (s.owned.clk = true → c = s.chain) ∧ (s.owned.store = true → l = s.latch)

/-- Once a run is over a step of any kind does no more than the environment can. -/
theorem onlyTimeAndFloats_of_over {s t : State} (hover : s.runOver = true) (h : step s = .next t) : OnlyTimeAndFloats s t := by
  cases hsched : s.schedule with
  | nil =>
    simp only [step, hsched, Host.Outcome.next.injEq] at h
    exact ⟨s.schedule, s.turn, s.chain, s.latch, s.now, h.symm, fun _ => rfl, fun _ => rfl⟩
  | cons m ms =>
    cases m with
    | turn u =>
      rw [step_turn_of_over hover hsched] at h
      cases h
      exact ⟨ms, u, s.chain, s.latch, s.now, rfl, fun _ => rfl, fun _ => rfl⟩
    | tick k =>
      rw [step_cons hsched] at h
      cases h
      exact ⟨ms, s.turn, s.chain, s.latch, s.now + k, rfl, fun _ => rfl, fun _ => rfl⟩
    | floatChain v =>
      obtain ⟨c, hc⟩ := floatChain_eq v { s with schedule := ms }
      rw [step_cons hsched, runMove, hc] at h
      cases h
      refine ⟨ms, s.turn, c, s.latch, s.now, rfl, fun howned => ?_, fun _ => rfl⟩
      exact congrArg State.chain (hc.symm.trans (floatChain_owned (s := { s with schedule := ms }) howned v))
    | floatLatch v =>
      obtain ⟨l, hl⟩ := floatLatch_eq v { s with schedule := ms }
      rw [step_cons hsched, runMove, hl] at h
      cases h
      refine ⟨ms, s.turn, s.chain, l, s.now, rfl, fun _ => rfl, fun howned => ?_⟩
      exact congrArg State.latch (hl.symm.trans (floatLatch_owned (s := { s with schedule := ms }) howned v))

/-- Settles O60: a run's end is each agent's end, and the time and the floats after it leave every sequencer at its end. -/
theorem runOverIsFinal : Obligations.RunOverIsFinal := by
  refine fun s => ⟨runOver_iff_agents, fun _ _ => finalState_of_op, fun _ _ => step_turn_of_over, fun t hover h => ?_⟩
  obtain ⟨ms, u, c, l, n, rfl, hchain, hlatch⟩ := onlyTimeAndFloats_of_over hover h
  exact ⟨c, l, n, finalState_of_over hover, rfl, rfl, hchain, hlatch⟩

end Sys2Proof.Machine
end

section
/-! ### Power-up (70_reset_and_hazards.md R137) -/

namespace Sys2Proof.Machine

theorem powerUp_seq (c l : U16) (a : Agent) : (State.powerUp c l).seq a = Sequencer.idle := idle_get a

theorem powerUp_owned_get (c l : U16) (k : Line) : (State.powerUp c l).owned.get k = false := perLine_get_all false k

theorem powerUp_level_get (c l : U16) (k : Line) : (State.powerUp c l).level.get k = .unknown :=
  perLine_get_all LineLevel.unknown k

/-- Settles O11: the lines and the agents by their reads, and every other part as `State.powerUp` writes it. -/
theorem powerUpState : Obligations.PowerUpState := by
  refine fun c l => ⟨rfl, rfl, fun k => ⟨powerUp_owned_get c l k, powerUp_level_get c l k⟩, rfl, rfl, rfl, rfl, rfl, rfl, fun a => ?_⟩
  rw [powerUp_seq]
  rfl

/-- Down, with no line owned and every level unknown. -/
theorem blockOk_powerUp (c l : U16) : BlockOk (State.powerUp c l) := by
  refine BlockOk.ofDown (fun k => ?_) rfl rfl
  rw [powerUp_owned_get, powerUp_level_get]
  exact ⟨nofun, fun h => absurd rfl h⟩

/-- Every agent is idle beside a free lock and an empty fault set. -/
theorem agentOk_powerUp (c l : U16) (a : Agent) : AgentOk (State.powerUp c l) a := by
  refine AgentOk.ofIdle ?op nofun ?stopped <;> rw [powerUp_seq]
  case op => rfl
  case stopped => exact ⟨nofun, fun ⟨_, hr, _⟩ => nomatch hr⟩

theorem inv_powerUp (c l : U16) : Inv (State.powerUp c l) :=
  inv_iff.mpr ⟨blockOk_powerUp c l, ⟨nofun, nofun⟩, agentOk_powerUp c l⟩

/-- Settles O51: reset is the power-up with `chain` and `latch` at zero. -/
theorem invHoldsAtPowerUp : Obligations.InvHoldsAtPowerUp := ⟨inv_powerUp, inv_powerUp 0 0⟩

end Sys2Proof.Machine
end

section
/-! ### After INIT (70_reset_and_hazards.md R138, R139) -/

namespace Sys2Proof.Machine

/-- R139's own words: every field of 0x0000 decodes to Off. -/
theorem dec_field_zero (p : Port) : dec (field 0#16 p) = .off := by
  rw [field, BitVec.zero_ushiftRight, BitVec.zero_and]
  rfl

/-- With 0x0000 latched and OE high every output is driven at 0 (R32). -/
theorem out_latch_zero {s : State} (hoe : s.level.oe = .driven true) (hlatch : s.latch = 0#16) (k : Fin 16) (d : Bool) :
    s.out k d = .driving false := by
  rw [(outputsFollowLatchAndOe s k).1 hoe, hlatch, BitVec.getLsbD_zero]

/-- Settles O27: INIT's end state has 0x0000 in the mirror and the latch, and OE high. -/
theorem initLeavesEveryPortOff : Obligations.InitLeavesEveryPortOff := by
  intro s hidle hhost hlife hfree hgrant hbudget
  refine ⟨_, 0, initCompletes s hidle hhost hlife hfree hgrant hbudget, ?result, rfl, dec_field_zero, out_latch_zero rfl rfl⟩
  case result => exact congrArg Sequencer.result (seqs_get_set_same s.seqs s.agent _)

end Sys2Proof.Machine
end
